-- ==== Sys2Proof/Word.lean ====
section
/-!
DEFINITION. The word types of the block (spec/00_scope.md rules R7, R10, R11): every quantity is unsigned.
A datagram and a chunk are finite sequences of bytes, byte 0 first.
-/

namespace Sys2Proof

/-- An 8-bit byte (R51: "Bytes are 8 bits"). -/
abbrev Byte := BitVec 8

/-- A `u16`: the checksum and the flags field (R7). -/
abbrev U16 := BitVec 16

/-- A `u32`: sequence and acknowledgment numbers and the sequence registers (R7, R21, R22, R23, R30). -/
abbrev U32 := BitVec 32

/-- A datagram `d[0], d[1], …` of any length (R11). -/
abbrev Datagram := List Byte

/-- A payload: `PAYLOAD_CAPACITY` bytes of the stream (R14, R62). -/
abbrev Chunk := List Byte

end Sys2Proof
end

