-- ==== Sys2Proof/Config.lean ====
section
/-!
DEFINITION. The configuration record of spec/00_scope.md rule R5, passed to each instance at construction and constant
from then on (R36), and the values the spec leaves open, as constants with no body.
-/

namespace Sys2Proof

/-- `CK_ALGO` (R5). `other k` stands for every function the contract R113 allows beyond the two the spec
gives (a CRC or a Fletcher sum among them, 90_conflicts.md C1); what it computes is `Config.otherCksum k`. -/
inductive CkAlgo where
  | xor16be            -- R112, the default
  | xor8               -- R114
  | other (k : Nat)    -- R113
  deriving DecidableEq, Repr

/-- `REACK0` (R5, R167): what the receiver does with an unexpected packet while `expected_seq = 0`. -/
inductive Reack0 where
  | suppress
  | wrap
  deriving DecidableEq, Repr

/-- The arbitration pick of R185 (last row of the open parameters of 92_eei_decisions.md): packet first, or
left open, in which case the sender's turn says which of two enabled steps is taken. -/
inductive Arbitration where
  | packetFirst
  | free
  deriving DecidableEq, Repr

/-- The configuration of one instance (R5, R36). Ranges are R6, checked by `Machine.configLegal`. -/
structure Config where
  windowSize      : Nat
  payloadCapacity : Nat
  timeoutMs       : Nat
  finRepeat       : Nat
  ckAlgo          : CkAlgo
  reack0          : Reack0
  arbitration     : Arbitration
  deriving DecidableEq, Repr

/-- FREE VALUE (log entry 7; R113): the checksum of an unspecified algorithm. Its arguments are exactly what
R113 (a) and (d) let it depend on: sequence number, acknowledgment number, flags, payload. -/
opaque Config.otherCksum : Nat → U32 → U32 → U16 → List Byte → U16

/-- FREE VALUE (log entry 6; R5, D14): `TIMEOUT_MS` less one, for which the spec gives no value. -/
opaque Config.openTimeout : Nat

/-- The configuration of `State.reset` (log entry 5): the defaults of R5, with `TIMEOUT_MS` open. -/
def Config.default : Config where
  windowSize := 10
  payloadCapacity := 1024
  timeoutMs := Config.openTimeout + 1
  finRepeat := 3
  ckAlgo := .xor16be
  reack0 := .suppress
  arbitration := .packetFirst

end Sys2Proof
end

