-- ==== Sys2Proof/Syntax.lean ====
section
/-!
DEFINITION. The operations of the block: one constructor per row of spec/opcode_table.json (30_encoding.md rules R84, R87,
R92), and the two forms in which an operation is presented (an event code, or a wire packet on a port).
-/

namespace Sys2Proof

/-- One of the two instances (R1, R214), and the port it receives on: `sender` is RxS, `receiver` is RxR (R61). -/
inductive Side where
  | sender
  | receiver
  deriving DecidableEq, Repr

/-- The legal values of `flags` (R14, R83). -/
inductive Kind where
  | data
  | ack
  | fin
  deriving DecidableEq, Repr

/-- The packet record of R14. -/
structure Packet where
  seq     : U32
  ack     : U32
  ck      : U16
  flags   : U16
  payload : Chunk
  deriving DecidableEq, Repr

/-- The operations. Where a field is the spec's operand its name is the spec's. The wire kinds carry the fields of
the packet and the side it is delivered to; the codec operations carry the side whose codec (and configuration)
is called. `onAck`, `onPacket` and `onFin` take a record the caller has validated and whose flags it has tested
(R140, R164, R168): they carry the fields the rule reads, and no others (log entry 22). -/
inductive Instr where
  -- wire kinds (R84, R87)
  | data         (side : Side) (seq ack : U32) (ck : U16) (payload : Chunk)
  | ack          (side : Side) (seq ack : U32) (ck : U16) (payload : Chunk)
  | fin          (side : Side) (seq ack : U32) (ck : U16) (payload : Chunk)
  | badflagDrop  (side : Side) (seq ack : U32) (ck flags : U16) (payload : Chunk)
  -- codec, 0x00 to 0x04 (R111 to R117)
  | encode       (side : Side) (p : Packet)
  | decode       (side : Side) (d : Datagram)
  | cksum        (side : Side) (p : Packet)
  | validate     (side : Side) (d : Datagram)
  | frame        (side : Side) (seq ack : U32) (kind : Kind) (payload : Chunk)
  -- sender, 0x10 to 0x15 (R131 to R143)
  | sStart       (n : Nat) (chunks : List Chunk)
  | fillWindow
  | sRx          (d : Datagram)
  | onAck        (ack : U32)
  | onTimeout
  | finish
  -- receiver, 0x20 to 0x23 (R161 to R168)
  | rStart
  | rRx          (d : Datagram)
  | onPacket     (seq : U32) (payload : Chunk)
  | onFin
  -- timer, 0x30 to 0x32 (R181 to R183); `now` is the state's
  | arm
  | disarm
  | restart
  deriving DecidableEq, Repr

/-- The operands presented beside an event code. The spec gives the codes and no operand encoding ("no bus in
the source carries them", R92), so the operands are a record, of which each operation reads its own (log entry 2). -/
structure Args where
  side     : Side := .sender
  packet   : Packet := { seq := 0, ack := 0, ck := 0, flags := 0, payload := [] }
  kind     : Kind := .data
  datagram : Datagram := []
  count    : Nat := 0
  chunks   : List Chunk := []
  deriving DecidableEq, Repr

/-- What the machine is presented with before decoding: an event code with its operands (R92), or a
datagram on a port, whose flags field selects the row (R84). -/
inductive Fetched where
  | event  (code : Byte) (args : Args)
  | packet (side : Side) (d : Datagram)
  deriving DecidableEq, Repr

end Sys2Proof
end

