-- ==== Sys2Proof/WellFormed.lean ====
section
/-!
DEFINITION. Which terms of `Instr` stand for an operation: the checks that do not depend on a configuration (the length
of a payload does, and is checked where the operation runs).
-/

namespace Sys2Proof

/-- R87: the illegal-flags row holds every value of `flags` but 0, 1 and 2. R6 and R131: `N` is a `u32` and
exactly `N` chunks are handed over. Every other operand is legal by its type. -/
def Instr.wf : Instr → Bool
  | .data _ _ _ _ _ => true
  | .ack _ _ _ _ _ => true
  | .fin _ _ _ _ _ => true
  | .badflagDrop _ _ _ _ flags _ => decide (3 ≤ flags.toNat)
  | .encode _ _ => true
  | .decode _ _ => true
  | .cksum _ _ => true
  | .validate _ _ => true
  | .frame _ _ _ _ _ => true
  | .sStart n chunks => decide (n < 2 ^ 32) && decide (chunks.length = n)
  | .fillWindow => true
  | .sRx _ => true
  | .onAck _ => true
  | .onTimeout => true
  | .finish => true
  | .rStart => true
  | .rRx _ => true
  | .onPacket _ _ => true
  | .onFin => true
  | .arm => true
  | .disarm => true
  | .restart => true

end Sys2Proof
end

