-- ==== Sys2Proof/Decode.lean ====
section
/-!
DEFINITION. Byte order, the packet record's wire image (ENCODE and DECODE as functions), the decoder of event codes and
wire packets, total and rejecting by name, and after it the encoder.
-/

namespace Sys2Proof

/-! ### Byte order (R11, R54: big-endian) -/

/-- `be16(b0, b1) = b0 * 256 + b1` (R11). -/
def be16 (b0 b1 : Byte) : U16 := b0 ++ b1

/-- `be32(b0, b1, b2, b3)` (R11). -/
def be32 (b0 b1 b2 b3 : Byte) : U32 := be16 b0 b1 ++ be16 b2 b3

/-- `bytes_be16`, the inverse of `be16` (R11). -/
def bytesBe16 (v : U16) : List Byte := [v.extractLsb' 8 8, v.extractLsb' 0 8]

/-- `bytes_be32`, the inverse of `be32` (R11). -/
def bytesBe32 (v : U32) : List Byte :=
  bytesBe16 (v.extractLsb' 16 16) ++ bytesBe16 (v.extractLsb' 0 16)

/-- A `u16` from the front of a byte sequence, and the rest. -/
def take16 : List Byte → Option (U16 × List Byte)
  | b0 :: b1 :: r => some (be16 b0 b1, r)
  | _ => none

/-- A `u32` from the front of a byte sequence, and the rest. -/
def take32 : List Byte → Option (U32 × List Byte)
  | b0 :: b1 :: b2 :: b3 :: r => some (be32 b0 b1 b2 b3, r)
  | _ => none

/-- `0^n` (R11). -/
def zeros (n : Nat) : List Byte := List.replicate n 0

/-- The header is 12 bytes (R7). -/
def headerLen : Nat := 12

/-! ### The packet record and its wire image (R81, R82, R111, R115) -/

/-- ENCODE (R111): the five fields in order, no padding. -/
def encodeRec (p : Packet) : Datagram :=
  bytesBe32 p.seq ++ (bytesBe32 p.ack ++ (bytesBe16 p.ck ++ (bytesBe16 p.flags ++ p.payload)))

/-- DECODE (R115): none when there is no complete header (R89: "none of its bytes is interpreted"). -/
def decodeRec (d : Datagram) : Option Packet :=
  match take32 d with
  | none => none
  | some (seq, d) =>
    match take32 d with
    | none => none
    | some (ack, d) =>
      match take16 d with
      | none => none
      | some (ck, d) =>
        match take16 d with
        | none => none
        | some (flags, payload) => some { seq, ack, ck, flags, payload }

/-- The wire value of a kind (R83). -/
def Kind.flags : Kind → U16
  | .data => 0x0000
  | .ack  => 0x0001
  | .fin  => 0x0002

/-! ### The decoder -/

/-- Why a presented operation has no decoding. -/
inductive DecodeError where
  /-- X12, R92: "Every code not in the table names no operation; a model's decoder of codes refuses it." -/
  | unknownCode (code : Byte)
  deriving DecidableEq, Repr

/-- The reception step of a side: S_RX or R_RX. -/
def receptionOf (side : Side) (d : Datagram) : Instr :=
  match side with
  | .sender => .sRx d
  | .receiver => .rRx d

/-- The row a datagram on a port selects (R84, R87): by `flags` alone. A datagram with no complete header has
no flags field (R89); it goes to the side's reception step, which drops it (log entry 23). -/
def decodePacket (side : Side) (d : Datagram) : Instr :=
  match decodeRec d with
  | none => receptionOf side d
  | some p =>
    if p.flags = Kind.data.flags then .data side p.seq p.ack p.ck p.payload
    else if p.flags = Kind.ack.flags then .ack side p.seq p.ack p.ck p.payload
    else if p.flags = Kind.fin.flags then .fin side p.seq p.ack p.ck p.payload
    else .badflagDrop side p.seq p.ack p.ck p.flags p.payload

/-- The operation an event code names (the table of R92). -/
def decodeEvent (code : Byte) (a : Args) : Except DecodeError Instr :=
  match code.toNat with
  | 0x00 => .ok (.encode a.side a.packet)
  | 0x01 => .ok (.decode a.side a.datagram)
  | 0x02 => .ok (.cksum a.side a.packet)
  | 0x03 => .ok (.validate a.side a.datagram)
  | 0x04 => .ok (.frame a.side a.packet.seq a.packet.ack a.kind a.packet.payload)
  | 0x10 => .ok (.sStart a.count a.chunks)
  | 0x11 => .ok .fillWindow
  | 0x12 => .ok (.sRx a.datagram)
  | 0x13 => .ok (.onAck a.packet.ack)
  | 0x14 => .ok .onTimeout
  | 0x15 => .ok .finish
  | 0x20 => .ok .rStart
  | 0x21 => .ok (.rRx a.datagram)
  | 0x22 => .ok (.onPacket a.packet.seq a.packet.payload)
  | 0x23 => .ok .onFin
  | 0x30 => .ok .arm
  | 0x31 => .ok .disarm
  | 0x32 => .ok .restart
  | _ => .error (.unknownCode code)

/-- The decoder: total on every code, every operand record and every byte sequence. -/
def decode : Fetched → Except DecodeError Instr
  | .event code args => decodeEvent code args
  | .packet side d => .ok (decodePacket side d)

/-! ### The encoder -/

/-- The presentation of an operation: its code of R92 with its operands, or its wire image on its port. -/
def encode : Instr → Fetched
  | .data side seq ack ck payload =>
    .packet side (encodeRec { seq, ack, ck, flags := Kind.data.flags, payload })
  | .ack side seq ack ck payload =>
    .packet side (encodeRec { seq, ack, ck, flags := Kind.ack.flags, payload })
  | .fin side seq ack ck payload =>
    .packet side (encodeRec { seq, ack, ck, flags := Kind.fin.flags, payload })
  | .badflagDrop side seq ack ck flags payload =>
    .packet side (encodeRec { seq, ack, ck, flags, payload })
  | .encode side packet => .event 0x00 { side, packet }
  | .decode side datagram => .event 0x01 { side, datagram }
  | .cksum side packet => .event 0x02 { side, packet }
  | .validate side datagram => .event 0x03 { side, datagram }
  | .frame side seq ack kind payload =>
    .event 0x04 { side, kind, packet := { seq, ack, ck := 0, flags := 0, payload } }
  | .sStart count chunks => .event 0x10 { count, chunks }
  | .fillWindow => .event 0x11 {}
  | .sRx datagram => .event 0x12 { datagram }
  | .onAck ack => .event 0x13 { packet := { seq := 0, ack, ck := 0, flags := 0, payload := [] } }
  | .onTimeout => .event 0x14 {}
  | .finish => .event 0x15 {}
  | .rStart => .event 0x20 {}
  | .rRx datagram => .event 0x21 { datagram }
  | .onPacket seq payload => .event 0x22 { packet := { seq, ack := 0, ck := 0, flags := 0, payload } }
  | .onFin => .event 0x23 {}
  | .arm => .event 0x30 {}
  | .disarm => .event 0x31 {}
  | .restart => .event 0x32 {}

/-! ### The opcode table's words -/

/-- The side at which a wire word of the opcode table runs when no port is given (the last column of R84's
table: DATA and FIN at the receiver, ACK at the sender; an illegal kind at the receiver). -/
def homeSide (flags : U16) : Side := if flags = Kind.ack.flags then .sender else .receiver

/-- The side whose state a code's operation works on (the unit column of R92). -/
def codeSide (code : Byte) : Side :=
  if 0x20 ≤ code.toNat ∧ code.toNat ≤ 0x23 then .receiver else .sender

/-- The header word of the table, bit 95 the most significant bit of byte 0 (R81), laid out as the hardware
stores it: most significant byte first. -/
def headerBytes (w : Nat) : List Byte :=
  bytesBe32 (BitVec.ofNat 32 (w / 2 ^ 64)) ++ bytesBe32 (BitVec.ofNat 32 (w / 2 ^ 32)) ++
    bytesBe32 (BitVec.ofNat 32 w)

/-- Operands of zeros for an instance whose payload capacity is `cap`. -/
def zeroArgs (cap : Nat) : Args where
  packet := { seq := 0, ack := 0, ck := 0, flags := 0, payload := zeros cap }
  datagram := zeros (headerLen + cap)

/-- A word of the opcode table as it is presented to the machine: 8 bits are an event code, 96 bits are a packet's
header, and every bit beyond them is zero. `cap` gives each side's payload capacity. -/
def tableFetch (cap : Side → Nat) (nbits w : Nat) : Option Fetched :=
  if nbits = 8 then
    some (.event (BitVec.ofNat 8 w) (zeroArgs (cap (codeSide (BitVec.ofNat 8 w)))))
  else if nbits = 96 then
    some (.packet (homeSide (BitVec.ofNat 16 w))
      (headerBytes w ++ zeros (cap (homeSide (BitVec.ofNat 16 w)))))
  else none

/-- The instruction the decoder reads from a word of the opcode table (payload capacity as at reset). -/
def decodeTableWord (nbits w : Nat) : Option Instr :=
  match tableFetch (fun _ => Config.default.payloadCapacity) nbits w with
  | none => none
  | some f => (decode f).toOption

end Sys2Proof
end

