-- ==== Sys2Proof/Machine/State.lean ====
section
/-!
DEFINITION. The state of the whole system of spec/60_exceptions.md rule R214: the sender, the receiver, the channel between
them, the sink, the time, and the schedule that says which agent moves next. Plain data throughout.
-/

namespace Sys2Proof.Machine

/-- `phase_s`, the sender's control state (R27). -/
inductive PhaseS where
  | idle   -- S_IDLE
  | fill   -- S_FILL
  | wait   -- S_WAIT
  | fin    -- S_FIN
  | done   -- S_DONE
  deriving DecidableEq, Repr

/-- The 3-bit code of `phase_s` (R27; 5, 6 and 7 are never held). -/
def PhaseS.code : PhaseS → BitVec 3
  | .idle => 0
  | .fill => 1
  | .wait => 2
  | .fin => 3
  | .done => 4

/-- `phase_r`, the receiver's control state (R34). -/
inductive PhaseR where
  | idle   -- R_IDLE
  | wait   -- R_WAIT
  | done   -- R_DONE
  deriving DecidableEq, Repr

/-- The 2-bit code of `phase_r` (R34; 3 is never held). -/
def PhaseR.code : PhaseR → BitVec 2
  | .idle => 0
  | .wait => 1
  | .done => 2

/-- `timer` = (`armed`, `t_arm`) of R25. `t_arm` "has a meaning only while `armed = 1`": it is held exactly then
(log entry 8). -/
inductive Timer where
  | disarmed
  | armed (tArm : Nat)
  deriving DecidableEq, Repr

/-- The packet buffer `buf` (R24, R52): (sequence number, packet) pairs, sequence numbers strictly rising. An
unlisted entry holds no value (R40). The smallest unit the spec addresses is one packet (R50; log entry 9). -/
abbrev Memory := List (Nat × Datagram)

/-- The sender's registers (R20 to R27) and the configuration it was constructed with (R36). -/
structure Sender where
  cfg          : Config
  phase        : PhaseS
  base         : U32
  nextSeq      : U32
  totalPackets : U32
  buf          : Memory
  timer        : Timer
  deriving DecidableEq, Repr

/-- The receiver's registers (R30, R34) and the configuration it was constructed with (R36). -/
structure Receiver where
  cfg         : Config
  phase       : PhaseR
  expectedSeq : U32
  deriving DecidableEq, Repr

/-- One direction of the channel (R60): the multiset in flight (listed in the order of emission, R65 (b), which the
channel is free to ignore), and the datagrams it has made available on the destination's port and no step
has consumed (R38 (c), R207). Both are part of the channel, and all of R60 may happen to a datagram in either (log entry 14). -/
structure Lane where
  flying  : List Datagram
  waiting : List Datagram
  deriving DecidableEq, Repr

/-- The labels of R200. -/
inductive Anomaly where
  | badLen
  | badSum
  | badFlag
  | staleAck
  | beyondAck
  | dup
  | ahead
  | loss
  | finLoss   -- "detected by: nobody": no operation records it
  deriving DecidableEq, Repr

/-- The codes of R200. -/
def Anomaly.code : Anomaly → Nat
  | .badLen => 1
  | .badSum => 2
  | .badFlag => 3
  | .staleAck => 4
  | .beyondAck => 5
  | .dup => 6
  | .ahead => 7
  | .loss => 8
  | .finLoss => 9

/-- What a directly invoked codec operation hands back to its invoker (log entry 10). -/
inductive CodecResult where
  | datagram (d : Datagram)   -- ENCODE, FRAME
  | packet (p : Packet)       -- DECODE
  | checksum (c : U16)        -- CKSUM
  | verdict (b : Bool)        -- VALIDATE
  deriving DecidableEq, Repr

/-- Where a datagram of one direction is: in flight, or available on the port and not yet consumed (R38 (c)). -/
inductive Place where
  | flying (k : Nat)
  | waiting (k : Nat)
  deriving DecidableEq, Repr

/-- What the channel may do with a datagram of one direction, wherever in the channel it is (R60, R93), and what any other party may
do to it (R213, C8; `flip` is FLIP of R94). -/
inductive ChannelAct where
  | arrive (k : Nat)                       -- make the `k`-th in flight available on the destination's port
  | drop (p : Place)
  | dup (p : Place)                        -- one more copy in flight
  | delay (p : Place)                      -- leave it for later: one that was available is in flight again
  | flip (p : Place) (i : Nat) (m : Byte)  -- byte `i` replaced by `byte XOR m`
  | inject (d : Datagram)                  -- a datagram no step of the block emitted
  deriving DecidableEq, Repr

/-- Which of two enabled steps the arbiter takes when the configuration leaves the pick open (R185). -/
inductive Pick where
  | datagram
  | timeout
  deriving DecidableEq, Repr

/-- One turn: which agent of R214 moves, with the environment's choice for it (log entry 1). -/
inductive Turn where
  | sender (pick : Pick)                           -- the sender's control loop takes its next step (R132)
  | receiver                                       -- the receiver's control loop takes its next step (R162)
  | channel (dest : Side) (act : ChannelAct)       -- the channel toward `dest` (R60)
  | clock (t : Nat)                                -- `now` becomes `t` (R187; the `@t` of R93)
  | startSender (n : Nat) (chunks : List Chunk)    -- the Transfer Driver asserts `start_s` (R61, R62)
  | startReceiver                                  -- the Delivery Driver asserts `start_r` (R61)
  | resetSender (cfg : Config)                     -- a sender is created (R230, R232)
  | resetReceiver (cfg : Config)                   -- a receiver is created (R230, R233)
  | invoke (f : Fetched)                           -- an operation is invoked directly (R92, R93)
  deriving DecidableEq, Repr

/-- The state. `toRcv` carries TxS to RxR, `toSnd` carries TxR to RxS (R60, R61). -/
structure State where
  snd       : Sender
  rcv       : Receiver
  toRcv     : Lane
  toSnd     : Lane
  sink      : List Chunk
  now       : Nat
  result    : Option CodecResult
  anomalies : List Anomaly
  schedule  : List Turn
  deriving DecidableEq, Repr

/-- Why the machine stops. -/
inductive Fault where
  /-- Raised by an operation invoked in a phase, or without a precondition, that its rule names: "has no step" (R92; X3
  `stuck`). `code` is the operation's code. Safe. -/
  | noStep (code : Byte)
  /-- Raised by `BufRead(i)` with `i >= total_packets` (R52, X5). Safe; unreachable by the rules. -/
  | bufOutOfRange (i : Nat)
  /-- Raised by `BufRead(i)` of an entry that holds no value (R40, X6). Safe. -/
  | bufNoValue (i : Nat)
  /-- Raised by DECODE and VALIDATE on a datagram whose length is not `PKT_LEN` (R115, X7). Safe. -/
  | badLength (len : Nat)
  deriving DecidableEq, Repr

/-- Why the machine gives no meaning. -/
inductive Refusal where
  /-- Raised by `exec`'s arm of an instruction that has no meaning yet (none here). Safe. -/
  | notModelled (mnemonic : String)
  /-- Raised by every operation of an instance whose configuration is outside R6 (X1). Safe. -/
  | illegalConfig
  /-- Raised by S_START with `N` outside `0 .. 2^32 - 1` (R6, X1). Safe. -/
  | tooManyPackets (n : Nat)
  /-- Raised by S_START when the chunks are not `N` chunks of `PAYLOAD_CAPACITY` bytes (X4). Safe. -/
  | badChunks
  /-- Raised by an operation whose packet record's payload is not `PAYLOAD_CAPACITY` bytes, which is no record of
  R14 (log entry 19). Safe. -/
  | badRecord (len : Nat)
  /-- Raised by a clock turn that would move `now` backwards (R187, X9). Safe. -/
  | clockBackwards (t : Nat)
  /-- Raised by a step whose code names no operation (R92, X12). Safe. -/
  | undecodable (e : DecodeError)
  deriving DecidableEq, Repr

/-- The outcome of an operation. -/
abbrev Out := Host.Outcome State Fault Refusal

/-- A sender right after its creation (R40). -/
def Sender.created (cfg : Config) : Sender where
  cfg := cfg
  phase := .idle
  base := 0
  nextSeq := 0
  totalPackets := 0
  buf := []
  timer := .disarmed

/-- A receiver right after its creation (R40). -/
def Receiver.created (cfg : Config) : Receiver where
  cfg := cfg
  phase := .idle
  expectedSeq := 0

/-- The machine right after reset (R40, R230): both instances created with the default configuration (log entry 5),
an empty channel, an empty sink, nothing scheduled. -/
def State.reset : State where
  snd := Sender.created Config.default
  rcv := Receiver.created Config.default
  toRcv := { flying := [], waiting := [] }
  toSnd := { flying := [], waiting := [] }
  sink := []
  now := 0
  result := none
  anomalies := []
  schedule := []

end Sys2Proof.Machine
end

