-- ==== Sys2Proof/Machine/Operands.lean ====
section
/-!
DEFINITION. What an operation's operands must be (spec/00_scope.md rules R6, R7, R14; spec/93_implementation_defined.md X1, X4,
X7) and the operand values computed from registers and packet fields.
-/

namespace Sys2Proof.Machine

/-- `PKT_LEN = 12 + PAYLOAD_CAPACITY` (R7). -/
def pktLen (c : Config) : Nat := headerLen + c.payloadCapacity

/-- At least 1. -/
def positive : Nat → Bool
  | 0 => false
  | _ + 1 => true

/-- The ranges of R6. -/
def configLegal (c : Config) : Bool :=
  positive c.windowSize && decide (c.windowSize < 2 ^ 32) && positive c.payloadCapacity &&
    positive c.timeoutMs && positive c.finRepeat

/-- The configuration of an instance. -/
def cfgOf (side : Side) (s : State) : Config :=
  match side with
  | .sender => s.snd.cfg
  | .receiver => s.rcv.cfg

/-- X4: exactly `N` chunks, each of `PAYLOAD_CAPACITY` bytes. -/
def chunksFit (c : Config) (n : Nat) (chunks : List Chunk) : Bool :=
  decide (chunks.length = n) && chunks.all fun k => decide (k.length = c.payloadCapacity)

/-- `a1 = u32(p.ack + 1)` (R140, R145 (a)). -/
def ackNext (ack : U32) : U32 := ack + 1

end Sys2Proof.Machine
end

