-- ==== Sys2Proof/Machine/Flags.lean ====
section
/-!
DEFINITION. The conditions computed from the registers (spec/10_state.md rules R28, R37; spec/43_timer_arbiter.md rule R184).
None of them is state.
-/

namespace Sys2Proof.Machine

/-- `window_open` (R28, R134): over the integers. -/
def windowOpen (x : Sender) : Bool :=
  decide (x.nextSeq.toNat < x.base.toNat + x.cfg.windowSize) &&
    decide (x.nextSeq.toNat < x.totalPackets.toNat)

/-- `outstanding` (R28). -/
def outstanding (x : Sender) : Bool := decide (x.base.toNat < x.nextSeq.toNat)

/-- `all_acked` (R28): the end test of R132. -/
def allAcked (x : Sender) : Bool := decide (x.base = x.totalPackets)

/-- The sender is in a phase in which it reacts to an acknowledgment or an expiry, S_WAIT, or has just done so, S_FILL (R132,
R136). -/
def reacting (x : Sender) : Bool := decide (x.phase = .wait) || decide (x.phase = .fill)

/-- `timer.armed` (R25). -/
def isArmed : Timer → Bool
  | .disarmed => false
  | .armed _ => true

/-- `now - timer.t_arm >= TIMEOUT_MS` while armed (R184); a disarmed timer never expires (R182). -/
def expired (x : Sender) (now : Nat) : Bool :=
  match x.timer with
  | .disarmed => false
  | .armed tArm => decide (tArm + x.cfg.timeoutMs ≤ now)

/-- The acknowledgment qualifies (R140): `a1 > base and a1 <= next_seq`. -/
def qualifies (x : Sender) (ack : U32) : Bool :=
  decide (x.base.toNat < (ackNext ack).toNat) && decide ((ackNext ack).toNat ≤ x.nextSeq.toNat)

/-- `done_s` (R37). -/
def doneS (s : State) : Bool := decide (s.snd.phase = .done)

/-- `done_r` (R37). -/
def doneR (s : State) : Bool := decide (s.rcv.phase = .done)

end Sys2Proof.Machine
end

