-- ==== Sys2Proof/Machine/Ops.lean ====
section
/-!
DEFINITION. The named operations over the state: the packet buffer, register writes, the primitives of spec/00_scope.md rule R13
(BufRead, BufWrite, SinkAppend, TxS, TxR, drop), the timer's primitives, the codec's functions, the checks on one
inbound datagram, and the two wrappers every meaning runs under.
-/

namespace Sys2Proof.Machine

/-! ### The packet buffer (R24, R52) -/

/-- The canonical form: sequence numbers strictly rising. (An unlisted entry holds no value, so no listed entry
can equal one.) -/
def Memory.wf : Memory → Bool
  | [] => true
  | [_] => true
  | a :: b :: m => decide (a.1 < b.1) && Memory.wf (b :: m)

/-- The packet listed at `i`. -/
def Memory.read : Memory → Nat → Option Datagram
  | [], _ => none
  | (k, d) :: m, i => if k = i then some d else Memory.read m i

/-- Byte `j` of the packet listed at `i`. -/
def Memory.byteAt (m : Memory) (i j : Nat) : Option Byte :=
  match m.read i with
  | none => none
  | some d => d[j]?

/-- Store packet `i`, keeping the canonical form. -/
def Memory.write : Memory → Nat → Datagram → Memory
  | [], i, d => [(i, d)]
  | (k, e) :: m, i, d =>
    if i < k then (i, d) :: (k, e) :: m
    else if i = k then (i, d) :: m
    else (k, e) :: Memory.write m i d

/-- `BufRead(i)` (R52): in range and written, or a fault (X5, X6). -/
def bufRead (x : Sender) (i : Nat) : Except Fault Datagram :=
  if i < x.totalPackets.toNat then
    match x.buf.read i with
    | some d => .ok d
    | none => .error (.bufNoValue i)
  else .error (.bufOutOfRange i)

/-! ### Register writes -/

def State.setSnd (s : State) (x : Sender) : State := { s with snd := x }
def State.setRcv (s : State) (x : Receiver) : State := { s with rcv := x }
def State.setPhaseS (s : State) (p : PhaseS) : State := { s with snd := { s.snd with phase := p } }
def State.setBase (s : State) (v : U32) : State := { s with snd := { s.snd with base := v } }
def State.setNextSeq (s : State) (v : U32) : State := { s with snd := { s.snd with nextSeq := v } }
def State.setTimer (s : State) (t : Timer) : State := { s with snd := { s.snd with timer := t } }
def State.setPhaseR (s : State) (p : PhaseR) : State := { s with rcv := { s.rcv with phase := p } }
def State.setExpectedSeq (s : State) (v : U32) : State :=
  { s with rcv := { s.rcv with expectedSeq := v } }

/-! ### The primitives of R13 -/

/-- Datagrams enter one direction of the channel, after everything emitted before (R65 (b)). -/
def Lane.emit (l : Lane) (ds : List Datagram) : Lane := { l with flying := l.flying ++ ds }

/-- `TxS`: the sender hands one datagram to the channel. -/
def State.txS (s : State) (d : Datagram) : State := { s with toRcv := s.toRcv.emit [d] }

/-- `TxR`: the receiver hands one datagram to the channel. -/
def State.txR (s : State) (d : Datagram) : State := { s with toSnd := s.toSnd.emit [d] }

/-- `SinkAppend` (R53). -/
def State.sinkAppend (s : State) (c : Chunk) : State := { s with sink := s.sink ++ [c] }

/-- Record an anomaly in the event log (R200; log entry 11). -/
def State.note (s : State) (a : Anomaly) : State := { s with anomalies := s.anomalies ++ [a] }

/-- Hand a codec value back to the invoker (log entry 10). -/
def State.giveBack (s : State) (r : CodecResult) : State := { s with result := some r }

/-- X10, R132, R162: a datagram offered to a machine that is not waiting stays in the channel. -/
def State.leaveInChannel (s : State) (side : Side) (d : Datagram) : State :=
  match side with
  | .sender => { s with toSnd := { s.toSnd with waiting := s.toSnd.waiting ++ [d] } }
  | .receiver => { s with toRcv := { s.toRcv with waiting := s.toRcv.waiting ++ [d] } }

/-! ### Sequencing -/

/-- Go on with a value, or stop with the fault. -/
def andThen {α : Type} (r : Except Fault α) (k : α → Out) : Out :=
  match r with
  | .ok a => k a
  | .error f => .fault f

/-- The wrapper of an operation of one instance: X1 (an illegal configuration is refused), then R92 (an operation
invoked where its rule's precondition fails has no step). -/
def runIn (side : Side) (s : State) (enabled : Bool) (code : Byte) (k : Out) : Out :=
  if configLegal (cfgOf side s) then
    if enabled then k else .fault (.noStep code)
  else .refused .illegalConfig

/-! ### The timer (R181, R182, R183) -/

/-- ARM: precondition `timer.armed == 0`. -/
def armTimer (now : Nat) : Timer → Except Fault Timer
  | .disarmed => .ok (.armed now)
  | .armed _ => .error (.noStep 0x30)

/-- DISARM: no precondition; `t_arm` loses its meaning. -/
def disarmTimer : Timer → Timer := fun _ => .disarmed

/-- RESTART: precondition `timer.armed == 1`. -/
def restartTimer (now : Nat) : Timer → Except Fault Timer
  | .armed _ => .ok (.armed now)
  | .disarmed => .error (.noStep 0x32)

/-! ### The codec's functions (R112 to R117) -/

/-- The fold of `XOR16_BE` (R112): big-endian 16-bit words into an accumulator; an odd last byte is the high byte of a
word whose low byte is 0x00. -/
def xorWords : U16 → List Byte → U16
  | acc, [] => acc
  | acc, [hi] => acc ^^^ be16 hi 0
  | acc, hi :: lo :: r => xorWords (acc ^^^ be16 hi lo) r

/-- The fold of `XOR8` (R114). -/
def xorBytes : Byte → List Byte → Byte
  | acc, [] => acc
  | acc, b :: r => xorBytes (acc ^^^ b) r

/-- CKSUM (R112, R113, R114): over the wire image with a zero checksum field; `p.ck` is ignored. -/
def cksum (c : Config) (p : Packet) : U16 :=
  match c.ckAlgo with
  | .xor16be => xorWords 0 (encodeRec { p with ck := 0 })
  | .xor8 => (xorBytes 0 (encodeRec { p with ck := 0 })).setWidth 16
  | .other k => Config.otherCksum k p.seq p.ack p.flags p.payload

/-- FRAME (R116). -/
def frame (c : Config) (seq ack : U32) (flags : U16) (payload : Chunk) : Datagram :=
  let p : Packet := { seq, ack, ck := 0, flags, payload }
  encodeRec { p with ck := cksum c p }

/-- VALIDATE (R117), of a datagram that has a header. DESIGN CHOICE (log entry 27): a frame made under another `CK_ALGO` is judged by
this rule like any other, so one whose checksum is the same under both validates, where R234 and X2 say that every datagram
fails. -/
def validate (c : Config) (d : Datagram) : Bool :=
  match decodeRec d with
  | some p => decide (cksum c p = p.ck)
  | none => false

/-- The ACK packet of R165. -/
def ackPacket (c : Config) (ack : U32) : Datagram := frame c 0 ack Kind.ack.flags (zeros c.payloadCapacity)

/-- The FIN packet of R143. -/
def finPacket (c : Config) : Datagram := frame c 0 0 Kind.fin.flags (zeros c.payloadCapacity)

/-- The DATA packet of a chunk (R131). -/
def dataPacket (c : Config) (i : Nat) (chunk : Chunk) : Datagram :=
  frame c (BitVec.ofNat 32 i) 0 Kind.data.flags chunk

/-- The first two checks of R85, R86 and R208, in their order: length, then checksum. No field is looked at before both
have passed (R236). -/
def checkInbound (c : Config) (d : Datagram) : Except Anomaly Packet :=
  if d.length = pktLen c then
    if validate c d then
      match decodeRec d with
      | some p => .ok p
      | none => .error .badLen
    else .error .badSum
  else .error .badLen

end Sys2Proof.Machine
end

