-- ==== Sys2Proof/Machine/Codec.lean ====
section
/-!
DEFINITION. The codec's five operations, invoked directly (spec/40_codec.md rules R111 to R117). They write no register; the
value goes back to the invoker (log entry 10).
-/

namespace Sys2Proof.Machine

/-- A record of R14 has a payload of `PAYLOAD_CAPACITY` bytes; another is refused (log entry 19). -/
def withRecord (side : Side) (payload : Chunk) (s : State) (k : Out) : Out :=
  if payload.length = (cfgOf side s).payloadCapacity then k else .refused (.badRecord payload.length)

/-- DECODE and VALIDATE are defined on `PKT_LEN` bytes; on any other length they fault (R115, X7). -/
def withDatagram (side : Side) (d : Datagram) (s : State) (k : Packet → Out) : Out :=
  if d.length = pktLen (cfgOf side s) then
    match decodeRec d with
    | some p => k p
    | none => .fault (.badLength d.length)
  else .fault (.badLength d.length)

/-- ENCODE (R111). -/
def execEncode (side : Side) (p : Packet) (s : State) : Out :=
  runIn side s true 0x00 (withRecord side p.payload s (.next (s.giveBack (.datagram (encodeRec p)))))

/-- DECODE (R115). -/
def execDecode (side : Side) (d : Datagram) (s : State) : Out :=
  runIn side s true 0x01 (withDatagram side d s fun p => .next (s.giveBack (.packet p)))

/-- CKSUM (R112, R113, R114). -/
def execCksum (side : Side) (p : Packet) (s : State) : Out :=
  runIn side s true 0x02
    (withRecord side p.payload s (.next (s.giveBack (.checksum (cksum (cfgOf side s) p)))))

/-- VALIDATE (R117). -/
def execValidate (side : Side) (d : Datagram) (s : State) : Out :=
  runIn side s true 0x03
    (withDatagram side d s fun p => .next (s.giveBack (.verdict (decide (cksum (cfgOf side s) p = p.ck)))))

/-- FRAME (R116). -/
def execFrame (side : Side) (seq ack : U32) (kind : Kind) (payload : Chunk) (s : State) : Out :=
  runIn side s true 0x04
    (withRecord side payload s (.next (s.giveBack (.datagram (frame (cfgOf side s) seq ack kind.flags payload)))))

end Sys2Proof.Machine
end

