-- ==== Sys2Proof/Machine/Receiver.lean ====
section
/-!
DEFINITION. The receiver's operations (spec/42_receiver.md rules R161 to R169).
-/

namespace Sys2Proof.Machine

/-- R_START (R161). -/
def execRStart (s : State) : Out :=
  runIn .receiver s (decide (s.rcv.phase = .idle)) 0x20 <|
    .next ((s.setExpectedSeq 0).setPhaseR .wait)

/-- The re-acknowledgment of an unexpected packet (R166), and what `REACK0` makes of it at zero (R167). -/
def reack (s : State) : State :=
  if s.rcv.expectedSeq = 0 then
    match s.rcv.cfg.reack0 with
    | .suppress => s
    | .wrap => s.txR (ackPacket s.rcv.cfg 0xFFFFFFFF)
  else s.txR (ackPacket s.rcv.cfg (s.rcv.expectedSeq - 1))

/-- The label of an unexpected packet (R166, R200). -/
def unexpectedLabel (seq expectedSeq : U32) : Anomaly :=
  if seq.toNat < expectedSeq.toNat then .dup else .ahead

/-- The body of ON_PACKET: in order (R164), and duplicate or ahead (R166, R167). The increment is modulo
2^32 (R169 (b), log entry 17). -/
def packetAct (seq : U32) (payload : Chunk) (s : State) : State :=
  if seq = s.rcv.expectedSeq then
    ((s.sinkAppend payload).setExpectedSeq (s.rcv.expectedSeq + 1)).txR
      (ackPacket s.rcv.cfg (s.rcv.expectedSeq + 1 - 1))
  else (reack s).note (unexpectedLabel seq s.rcv.expectedSeq)

/-- The body of ON_FIN (R168). -/
def finAct (s : State) : State := s.setPhaseR .done

/-- The receiver's reception step on a datagram (R86, R163, R208). Not in R_WAIT it is not consumed (R162, X10). -/
def receiverReceive (d : Datagram) (s : State) : Out :=
  if configLegal s.rcv.cfg then
    if s.rcv.phase = .wait then
      match checkInbound s.rcv.cfg d with
      | .error a => .next (s.note a)
      | .ok p =>
        if p.flags = Kind.data.flags then .next (packetAct p.seq p.payload s)
        else if p.flags = Kind.fin.flags then .next (finAct s)
        else .next (s.note .badFlag)
    else .next (s.leaveInChannel .receiver d)
  else .refused .illegalConfig

/-- R_RX (R163). -/
def execRRx (d : Datagram) (s : State) : Out := receiverReceive d s

/-- ON_PACKET (R164, R166, R167), invoked directly (log entry 22). -/
def execOnPacket (seq : U32) (payload : Chunk) (s : State) : Out :=
  runIn .receiver s (decide (s.rcv.phase = .wait)) 0x22 <|
    if payload.length = s.rcv.cfg.payloadCapacity then .next (packetAct seq payload s)
    else .refused (.badRecord payload.length)

/-- ON_FIN (R168), invoked directly (log entry 22). -/
def execOnFin (s : State) : Out :=
  runIn .receiver s (decide (s.rcv.phase = .wait)) 0x23 (.next (finAct s))

end Sys2Proof.Machine
end

