-- ==== Sys2Proof/Machine/Sender.lean ====
section
/-!
DEFINITION. The sender's operations (spec/41_sender.md rules R131 to R145).
-/

namespace Sys2Proof.Machine

/-- `for i in 0 .. N-1: BufWrite(i, FRAME(seq = i, ack = 0, DATA, c[i]))` (R131). -/
def writeFrames (c : Config) : Nat → List Chunk → Memory → Memory
  | _, [], m => m
  | i, k :: ks, m => writeFrames c (i + 1) ks (Memory.write m i (dataPacket c i k))

/-- S_START (R131). X1: `N` past `2^32 - 1` is refused; X4: chunks that are not `N` chunks of
`PAYLOAD_CAPACITY` bytes are refused. -/
def execSStart (n : Nat) (chunks : List Chunk) (s : State) : Out :=
  runIn .sender s (decide (s.snd.phase = .idle)) 0x10 <|
    if n < 2 ^ 32 then
      if chunksFit s.snd.cfg n chunks then
        .next (s.setSnd
          { s.snd with
            totalPackets := BitVec.ofNat 32 n
            buf := writeFrames s.snd.cfg 0 chunks s.snd.buf
            base := 0
            nextSeq := 0
            timer := .disarmed
            phase := .fill })
      else .refused .badChunks
    else .refused (.tooManyPackets n)

/-- The `while` of FILL_WINDOW (R134). `fuel` bounds the number of turns of the loop; with
`total_packets - next_seq` it never runs out. -/
def fillLoop : Nat → State → Except Fault State
  | 0, s => .ok s
  | fuel + 1, s =>
    if windowOpen s.snd then
      match bufRead s.snd s.snd.nextSeq.toNat with
      | .ok d => fillLoop fuel ((s.txS d).setNextSeq (s.snd.nextSeq + 1))
      | .error f => .error f
    else .ok s

/-- `if timer.armed == 0 and base < next_seq: ARM(now)` (R134). DESIGN CHOICE (log entry 25): where FILL_WINDOW transmits nothing, the
timer is disarmed and `base < next_seq`, R134's pseudocode arms and R186's fourth row says "unchanged"; the
pseudocode is followed. No state that keeps R29 is of this kind. -/
def armIfNeeded (s : State) : Except Fault State :=
  if isArmed s.snd.timer = false ∧ outstanding s.snd = true then
    match armTimer s.now s.snd.timer with
    | .ok t => .ok (s.setTimer t)
    | .error f => .error f
  else .ok s

/-- FILL_WINDOW (R134). -/
def execFillWindow (s : State) : Out :=
  runIn .sender s (decide (s.snd.phase = .fill) && decide (s.snd.base.toNat < s.snd.totalPackets.toNat)) 0x11 <|
    andThen (fillLoop (s.snd.totalPackets.toNat - s.snd.nextSeq.toNat) s) fun s =>
      andThen (armIfNeeded s) fun s => .next (s.setPhaseS .wait)

/-- The end test of the S_FILL step, `base == total_packets` (R132): no operation of the table, no effect but the
phase. -/
def endTest (s : State) : State := s.setPhaseS .fin

/-- The body of ON_ACK (R140, R141, R145 (a)). -/
def ackAct (ack : U32) (s : State) : Out :=
  if qualifies s.snd ack then
    if ackNext ack = s.snd.nextSeq then
      .next ((s.setBase (ackNext ack)).setTimer (disarmTimer s.snd.timer))
    else
      andThen (restartTimer s.now s.snd.timer) fun t => .next ((s.setBase (ackNext ack)).setTimer t)
  else if (ackNext ack).toNat ≤ s.snd.base.toNat then .next (s.note .staleAck)
  else .next (s.note .beyondAck)

/-- The sender's reception step on a datagram (R85, R136, R208). Not in S_WAIT it is not consumed (R132, X10). -/
def senderReceive (d : Datagram) (s : State) : Out :=
  if configLegal s.snd.cfg then
    if s.snd.phase = .wait then
      match checkInbound s.snd.cfg d with
      | .error a => .next ((s.setPhaseS .fill).note a)
      | .ok p =>
        if p.flags = Kind.ack.flags then ackAct p.ack (s.setPhaseS .fill)
        else .next ((s.setPhaseS .fill).note .badFlag)
    else .next (s.leaveInChannel .sender d)
  else .refused .illegalConfig

/-- S_RX (R136). -/
def execSRx (d : Datagram) (s : State) : Out := senderReceive d s

/-- ON_ACK (R140, R141), invoked directly: while a transfer waits or reacts (log entry 22). -/
def execOnAck (ack : U32) (s : State) : Out :=
  runIn .sender s (reacting s.snd) 0x13 (ackAct ack s)

/-- `for i in base .. next_seq - 1, ascending: TxS(BufRead(i))` (R142): `count` packets from `i` on. -/
def txRange : Nat → Nat → State → Except Fault State
  | 0, _, s => .ok s
  | count + 1, i, s =>
    match bufRead s.snd i with
    | .ok d => txRange count (i + 1) (s.txS d)
    | .error f => .error f

/-- ON_TIMEOUT (R142); the anomaly is LOSS (R200). DESIGN CHOICE (log entry 26): its precondition is R142's, which names no datagram, so
invoked directly it runs while a datagram waits too; packet first (R185) is the rule of the sender's turn (`senderTurn`). -/
def execOnTimeout (s : State) : Out :=
  runIn .sender s (decide (s.snd.phase = .wait) && expired s.snd s.now) 0x14 <|
    andThen (txRange (s.snd.nextSeq.toNat - s.snd.base.toNat) s.snd.base.toNat s) fun s =>
      andThen (restartTimer s.now s.snd.timer) fun t =>
        .next (((s.setTimer t).setPhaseS .fill).note .loss)

/-- `repeat count times: TxS(f)` (R143). -/
def txRepeat : Nat → Datagram → State → State
  | 0, _, s => s
  | count + 1, f, s => txRepeat count f (s.txS f)

/-- FINISH (R143). -/
def execFinish (s : State) : Out :=
  runIn .sender s (decide (s.snd.phase = .fin)) 0x15 <|
    .next ((txRepeat s.snd.cfg.finRepeat (finPacket s.snd.cfg) s).setPhaseS .done)

end Sys2Proof.Machine
end

