-- ==== Sys2Proof/Machine/Timer.lean ====
section
/-!
DEFINITION. The timer's three primitives, invoked directly (spec/43_timer_arbiter.md rules R181 to R183). Each is "invoked only by" the
operations its rule names, so it has a step only where one of them could invoke it: in the phase of the caller, and with `base` and
`next_seq` as the rule says the caller leaves them. That is the model's reading of those words (log entry 22); with it no step
breaks R29, and none writes the timer before S_START or after S_DONE (R42, R144).
-/

namespace Sys2Proof.Machine

/-- ARM(now) (R181): invoked by FILL_WINDOW, which leaves `base < next_seq`. -/
def execArm (s : State) : Out :=
  runIn .sender s (decide (s.snd.phase = .fill) && outstanding s.snd) 0x30 <|
    andThen (armTimer s.now s.snd.timer) fun t => .next (s.setTimer t)

/-- DISARM() (R182): invoked by ON_ACK, which has brought `base` to `next_seq`. -/
def execDisarm (s : State) : Out :=
  runIn .sender s (reacting s.snd && decide (s.snd.base = s.snd.nextSeq)) 0x31 <|
    .next (s.setTimer (disarmTimer s.snd.timer))

/-- RESTART(now) (R183): invoked by ON_ACK, which leaves `base < next_seq`, and by ON_TIMEOUT, where that holds (R142 (1)). -/
def execRestart (s : State) : Out :=
  runIn .sender s (reacting s.snd && outstanding s.snd) 0x32 <|
    andThen (restartTimer s.now s.snd.timer) fun t => .next (s.setTimer t)

end Sys2Proof.Machine
end

