-- ==== Sys2Proof/Machine/Wire.lean ====
section
/-!
DEFINITION. The wire kinds of the opcode table (spec/30_encoding.md rules R84 to R88): a packet of the kind is received at a side.
The row is selected by `flags`, and nothing of it is acted on before the length check and VALIDATE have
passed (R84, R236), so each is its side's reception step on the packet's wire image.
-/

namespace Sys2Proof.Machine

/-- The reception step of a side. -/
def receiveAt (side : Side) (d : Datagram) (s : State) : Out :=
  match side with
  | .sender => senderReceive d s
  | .receiver => receiverReceive d s

/-- DATA: ON_PACKET at the receiver (R164, R166, R167); BADFLAG at the sender (R88). -/
def execData (side : Side) (seq ack : U32) (ck : U16) (payload : Chunk) (s : State) : Out :=
  receiveAt side (encodeRec { seq, ack, ck, flags := Kind.data.flags, payload }) s

/-- ACK: ON_ACK at the sender (R140, R141); BADFLAG at the receiver (R88). -/
def execAck (side : Side) (seq ack : U32) (ck : U16) (payload : Chunk) (s : State) : Out :=
  receiveAt side (encodeRec { seq, ack, ck, flags := Kind.ack.flags, payload }) s

/-- FIN: ON_FIN at the receiver (R168); BADFLAG at the sender (R88). -/
def execFin (side : Side) (seq ack : U32) (ck : U16) (payload : Chunk) (s : State) : Out :=
  receiveAt side (encodeRec { seq, ack, ck, flags := Kind.fin.flags, payload }) s

/-- An illegal `flags` value: BADFLAG at either side (R87). -/
def execBadflagDrop (side : Side) (seq ack : U32) (ck flags : U16) (payload : Chunk) (s : State) : Out :=
  receiveAt side (encodeRec { seq, ack, ck, flags, payload }) s

end Sys2Proof.Machine
end

