-- ==== Sys2Proof/Machine/Dispatch.lean ====
section
/-! DEFINITION. One arm per operation of the opcode table, each a direct call of its meaning. -/

namespace Sys2Proof.Machine

def exec (i : Instr) (s : State) : Host.Outcome State Fault Refusal :=
  match i with
  -- wire kinds
  | .data side seq ack ck payload => Sys2Proof.Machine.execData side seq ack ck payload s
  | .ack side seq ack ck payload => Sys2Proof.Machine.execAck side seq ack ck payload s
  | .fin side seq ack ck payload => Sys2Proof.Machine.execFin side seq ack ck payload s
  | .badflagDrop side seq ack ck flags payload => Sys2Proof.Machine.execBadflagDrop side seq ack ck flags payload s
  -- codec
  | .encode side p => Sys2Proof.Machine.execEncode side p s
  | .decode side d => Sys2Proof.Machine.execDecode side d s
  | .cksum side p => Sys2Proof.Machine.execCksum side p s
  | .validate side d => Sys2Proof.Machine.execValidate side d s
  | .frame side seq ack kind payload => Sys2Proof.Machine.execFrame side seq ack kind payload s
  -- sender
  | .sStart n chunks => Sys2Proof.Machine.execSStart n chunks s
  | .fillWindow => Sys2Proof.Machine.execFillWindow s
  | .sRx d => Sys2Proof.Machine.execSRx d s
  | .onAck ack => Sys2Proof.Machine.execOnAck ack s
  | .onTimeout => Sys2Proof.Machine.execOnTimeout s
  | .finish => Sys2Proof.Machine.execFinish s
  -- receiver
  | .rStart => Sys2Proof.Machine.execRStart s
  | .rRx d => Sys2Proof.Machine.execRRx d s
  | .onPacket seq payload => Sys2Proof.Machine.execOnPacket seq payload s
  | .onFin => Sys2Proof.Machine.execOnFin s
  -- timer
  | .arm => Sys2Proof.Machine.execArm s
  | .disarm => Sys2Proof.Machine.execDisarm s
  | .restart => Sys2Proof.Machine.execRestart s

end Sys2Proof.Machine
end

