-- ==== Sys2Proof/Machine/Schedule.lean ====
section
/-!
DEFINITION. Which agent moves and which operation its turn selects (spec/41_sender.md rule R132, spec/42_receiver.md rule R162,
spec/43_timer_arbiter.md rule R185, spec/60_exceptions.md rule R214): the block's counterpart of fetching.
-/

namespace Sys2Proof.Machine

/-- What a turn selects: an operation presented to the decoder, and the state it runs in; or a move that is no operation
of the table; or no meaning. -/
inductive Selection where
  | run (f : Fetched) (s : State)
  | move (s : State)
  | refuse (r : Refusal)
  deriving DecidableEq, Repr

/-- The datagram at a place. -/
def Lane.at (l : Lane) : Place → Option Datagram
  | .flying k => l.flying[k]?
  | .waiting k => l.waiting[k]?

/-- The datagram at a place taken away. -/
def Lane.remove (l : Lane) : Place → Lane
  | .flying k => { l with flying := l.flying.eraseIdx k }
  | .waiting k => { l with waiting := l.waiting.eraseIdx k }

/-- The datagram at a place altered. -/
def Lane.alter (l : Lane) (f : Datagram → Datagram) : Place → Lane
  | .flying k => { l with flying := l.flying.modify k f }
  | .waiting k => { l with waiting := l.waiting.modify k f }

/-- What the channel does to one direction (R60): any of it to a datagram in flight and to one already available, which is still in the
channel (R38 (c), D27). There is nothing to do to a datagram that is not there. -/
def Lane.act (l : Lane) : ChannelAct → Lane
  | .arrive k =>
    match l.flying[k]? with
    | some d => { flying := l.flying.eraseIdx k, waiting := l.waiting ++ [d] }
    | none => l
  | .drop p => l.remove p
  | .dup p =>
    match l.at p with
    | some d => l.emit [d]
    | none => l
  | .delay (.flying _) => l
  | .delay (.waiting k) =>
    match l.waiting[k]? with
    | some d => { flying := l.flying ++ [d], waiting := l.waiting.eraseIdx k }
    | none => l
  | .flip p i m => l.alter (fun d => d.modify i (· ^^^ m)) p
  | .inject d => l.emit [d]

/-- The arbiter of S_WAIT (R185, R209): the datagram first, unless the configuration leaves the pick open and the
turn picks the timeout. True: the expiry is served. -/
def timeoutWins (x : Sender) (pick : Pick) : Bool :=
  decide (x.cfg.arbitration = .free) && decide (pick = .timeout)

/-- The step the sender's control loop takes (the table of R132). Where no step is enabled nothing changes. -/
def senderTurn (pick : Pick) (s : State) : Selection :=
  if configLegal s.snd.cfg then
    match s.snd.phase with
    | .idle => .move s
    | .fill => if allAcked s.snd then .move (endTest s) else .run (.event 0x11 {}) s
    | .wait =>
      match s.toSnd.waiting with
      | [] => if expired s.snd s.now then .run (.event 0x14 {}) s else .move s
      | d :: ds =>
        if expired s.snd s.now && timeoutWins s.snd pick then .run (.event 0x14 {}) s
        else .run (.event 0x12 { datagram := d }) { s with toSnd := { s.toSnd with waiting := ds } }
    | .fin => .run (.event 0x15 {}) s
    | .done => .move s
  else .refuse .illegalConfig

/-- The step the receiver's control loop takes (the table of R162). -/
def receiverTurn (s : State) : Selection :=
  if configLegal s.rcv.cfg then
    match s.rcv.phase with
    | .idle => .move s
    | .wait =>
      match s.toRcv.waiting with
      | [] => .move s
      | d :: ds => .run (.event 0x21 { datagram := d }) { s with toRcv := { s.toRcv with waiting := ds } }
    | .done => .move s
  else .refuse .illegalConfig

/-- What the channel does in one direction. -/
def channelTurn (dest : Side) (act : ChannelAct) (s : State) : State :=
  match dest with
  | .receiver => { s with toRcv := s.toRcv.act act }
  | .sender => { s with toSnd := s.toSnd.act act }

/-- Creation of a sender (R40, R230): nothing of the previous transfer survives in it; the channel is untouched. -/
def resetSenderTurn (cfg : Config) (s : State) : Selection :=
  if configLegal cfg then .move (s.setSnd (Sender.created cfg)) else .refuse .illegalConfig

/-- Creation of a receiver (R40, R230), with an empty sink (R40, R233). -/
def resetReceiverTurn (cfg : Config) (s : State) : Selection :=
  if configLegal cfg then .move { s.setRcv (Receiver.created cfg) with sink := [] }
  else .refuse .illegalConfig

/-- The clock sets `now`; it never decreases (R187, X9). -/
def clockTurn (t : Nat) (s : State) : Selection :=
  if s.now ≤ t then .move { s with now := t } else .refuse (.clockBackwards t)

/-- What a turn selects, in the state left when the turn has been taken from the schedule. -/
def takeTurn (t : Turn) (s : State) : Selection :=
  match t with
  | .sender pick => senderTurn pick s
  | .receiver => receiverTurn s
  | .channel dest act => .move (channelTurn dest act s)
  | .clock t => clockTurn t s
  | .startSender n chunks => .run (.event 0x10 { count := n, chunks := chunks }) s
  | .startReceiver => .run (.event 0x20 {}) s
  | .resetSender cfg => resetSenderTurn cfg s
  | .resetReceiver cfg => resetReceiverTurn cfg s
  | .invoke f => .run f s

/-- The next step. With nothing scheduled no agent moves and nothing changes (log entry 21). -/
def select (s : State) : Selection :=
  match s.schedule with
  | [] => .move s
  | t :: ts => takeTurn t { s with schedule := ts }

/-- A transfer of one chunk of zeros, as S_START leaves it (R131). -/
def startedWithZeros (x : Sender) : Sender where
  cfg := x.cfg
  phase := .fill
  base := 0
  nextSeq := 0
  totalPackets := 1
  buf := Memory.write x.buf 0 (dataPacket x.cfg 0 (zeros x.cfg.payloadCapacity))
  timer := .disarmed

/-- A sender with something outstanding: itself if it has, else a transfer of one chunk of zeros whose packet has been sent. -/
def withOutstanding (x : Sender) : Sender :=
  if outstanding x then x else { startedWithZeros x with nextSeq := 1 }

/-- The registers that select a presented operation: the phase and the precondition its rule names, and nothing else
(R84, R92; log entry 4). -/
def selectFor (f : Fetched) (s : State) : State :=
  match f with
  | .packet .sender _ => s.setPhaseS .wait
  | .packet .receiver _ => s.setPhaseR .wait
  | .event code _ =>
    match code.toNat with
    | 0x10 => s.setPhaseS .idle
    | 0x11 =>
      if s.snd.base.toNat < s.snd.totalPackets.toNat then s.setPhaseS .fill
      else s.setSnd (startedWithZeros s.snd)
    | 0x12 => s.setPhaseS .wait
    | 0x13 => s.setPhaseS .fill
    | 0x14 => { (s.setPhaseS .wait).setTimer (.armed s.now) with now := s.now + s.snd.cfg.timeoutMs }
    | 0x15 => s.setPhaseS .fin
    | 0x20 => s.setPhaseR .idle
    | 0x21 => s.setPhaseR .wait
    | 0x22 => s.setPhaseR .wait
    | 0x23 => s.setPhaseR .wait
    | 0x30 => s.setSnd { withOutstanding s.snd with phase := .fill, timer := .disarmed }
    | 0x31 => (s.setBase s.snd.nextSeq).setPhaseS .fill
    | 0x32 => s.setSnd { withOutstanding s.snd with phase := .fill, timer := .armed s.now }
    | _ => s

/-- The state in which a presented operation is the next one to run (log entry 4). -/
def placeFetched (f : Fetched) (s : State) : State :=
  { selectFor f s with schedule := .invoke f :: s.schedule }

/-- Each side's payload capacity. -/
def capOf (s : State) (side : Side) : Nat := (cfgOf side s).payloadCapacity

end Sys2Proof.Machine
end

