-- ==== Sys2Proof/Machine/Step.lean ====
section
/-!
DEFINITION. One step of the system: the next turn is taken, what it selects is decoded and executed (spec/00_scope.md rule R8), and
where a word of the opcode table is placed so that the next step runs it.
-/

namespace Sys2Proof.Machine

/-- One atomic step (R8, R65 (a)). -/
def step (s : State) : Host.Outcome State Fault Refusal :=
  match select s with
  | .run f s =>
    match decode f with
    | .ok i => exec i s
    | .error e => .refused (.undecodable e)
  | .move s => .next s
  | .refuse r => .refused r

/-- `s` with a word of the opcode table as the next operation (log entry 4). -/
def State.withFetchWord (s : State) (nbits w : Nat) : State :=
  match tableFetch (capOf s) nbits w with
  | some f => placeFetched f s
  | none => s

end Sys2Proof.Machine
end

