-- ==== Sys2Proof/Safety.lean ====
section
/-!
DEFINITION. What holds of a safe run: the invariants of spec/10_state.md rules R26, R29, R31, of spec/41_sender.md rule R146 and of
spec/42_receiver.md rule R171, in the terms the statements use.
-/

namespace Sys2Proof.Machine

/-! ### Whose operation it is (R20, R92) -/

/-- The machine an operation belongs to; the codec's belong to neither (R35). A wire packet is received at a side. -/
def ownerOf : Instr → Option Side
  | .data side _ _ _ _ => some side
  | .ack side _ _ _ _ => some side
  | .fin side _ _ _ _ => some side
  | .badflagDrop side _ _ _ _ _ => some side
  | .encode _ _ => none
  | .decode _ _ => none
  | .cksum _ _ => none
  | .validate _ _ => none
  | .frame _ _ _ _ _ => none
  | .sStart _ _ => some .sender
  | .fillWindow => some .sender
  | .sRx _ => some .sender
  | .onAck _ => some .sender
  | .onTimeout => some .sender
  | .finish => some .sender
  | .rStart => some .receiver
  | .rRx _ => some .receiver
  | .onPacket _ _ => some .receiver
  | .onFin => some .receiver
  | .arm => some .sender
  | .disarm => some .sender
  | .restart => some .sender

/-- The instance whose configuration an operation runs under. -/
def sideOf : Instr → Side
  | .encode side _ => side
  | .decode side _ => side
  | .cksum side _ => side
  | .validate side _ => side
  | .frame side _ _ _ _ => side
  | i => (ownerOf i).getD .sender

/-- A timer primitive (R181 to R183). -/
def isTimerPrimitive : Instr → Bool
  | .arm => true
  | .disarm => true
  | .restart => true
  | _ => false

/-- S_START, the one operation that writes the buffer (R24). -/
def isSStart : Instr → Bool
  | .sStart _ _ => true
  | _ => false

/-! ### Invariants of one instance -/

/-- R26: `base <= next_seq <= total_packets` and `next_seq - base <= WINDOW_SIZE`. -/
def WindowInv (x : Sender) : Prop :=
  x.base.toNat ≤ x.nextSeq.toNat ∧ x.nextSeq.toNat ≤ x.totalPackets.toNat ∧
    x.nextSeq.toNat ≤ x.base.toNat + x.cfg.windowSize

/-- R143, R246: S_FIN is entered only when `base == total_packets`, and S_DONE from S_FIN. -/
def EndInv (x : Sender) : Prop :=
  x.phase = .fin ∨ x.phase = .done → x.base = x.totalPackets

/-- R29: `timer.armed = 1` if and only if `base < next_seq`. -/
def TimerInv (x : Sender) : Prop := isArmed x.timer = outstanding x

/-- R24, R118 (b): once a transfer has started, entry `i` is the FRAME of a chunk with sequence number `i`. -/
def BufInv (x : Sender) : Prop :=
  x.phase ≠ .idle → ∀ i, i < x.totalPackets.toNat →
    ∃ k : Chunk, k.length = x.cfg.payloadCapacity ∧ x.buf.read i = some (dataPacket x.cfg i k)

/-- Everything a sender keeps. -/
structure SenderInv (x : Sender) : Prop where
  legal  : configLegal x.cfg = true
  window : WindowInv x
  ended  : EndInv x
  timer  : TimerInv x
  buffer : BufInv x

/-- R31, R171: as many chunks in the sink as `expected_seq` says (modulo 2^32, R169 (b)), each of `PAYLOAD_CAPACITY`
bytes; nothing before R_START. -/
def SinkInv (s : State) : Prop :=
  (s.rcv.phase = .idle → s.sink = []) ∧ s.sink.length % 2 ^ 32 = s.rcv.expectedSeq.toNat ∧
    ∀ c ∈ s.sink, c.length = s.rcv.cfg.payloadCapacity

/-! ### Numbers read from bytes, and the fold of R112 written over word positions -/

/-- A byte sequence as one number, byte 0 most significant (R11, R81, R84). -/
def headerNumber (h : List Byte) : Nat := h.foldl (fun n b => n * 256 + b.toNat) 0

/-- The exclusive-or of the big-endian 16-bit words at offsets 0, 2, 4, …; a missing last low byte reads 0x00 (R112). -/
def wordFold (d : List Byte) : U16 :=
  (List.range ((d.length + 1) / 2)).foldl (fun acc k => acc ^^^ be16 (d.getD (2 * k) 0) (d.getD (2 * k + 1) 0)) 0

/-- `FLIP(d, i, m)` (R94). -/
def flipByte (d : Datagram) (i : Nat) (m : Byte) : Datagram := d.modify i (· ^^^ m)

/-! ### Turns -/

/-- The turn the next step takes. -/
def nextTurn (s : State) : Option Turn := s.schedule.head?

/-- The turn is one of R214's agents doing what R60 and R233 let it do to a transfer: no reset, no datagram altered or
injected, no operation invoked from outside. -/
def honest : Turn → Bool
  | .sender _ => true
  | .receiver => true
  | .channel _ (.arrive _) => true
  | .channel _ (.drop _) => true
  | .channel _ (.dup _) => true
  | .channel _ (.delay _) => true
  | .channel _ (.flip _ _ _) => false
  | .channel _ (.inject _) => false
  | .clock _ => true
  | .startSender _ _ => true
  | .startReceiver => true
  | .resetSender _ => false
  | .resetReceiver _ => false
  | .invoke _ => false

/-! ### The whole system (R171, R246: in-order, complete delivery) -/

/-- Everything in one direction of the channel. -/
def inLane (l : Lane) (d : Datagram) : Prop := d ∈ l.flying ∨ d ∈ l.waiting

/-- Under an honest schedule: what travels toward the receiver is a packet already sent, or the FIN of a finished
sender; what travels back acknowledges only what was accepted (or is the wrapped re-ack of R167, which the
sender ignores); the sink holds exactly the chunks of the first `expected_seq` packets, in order; `base` is never past
`expected_seq`; and the receiver ends only with everything delivered. -/
structure DeliveryInv (s : State) : Prop where
  sender   : SenderInv s.snd
  notSent  : s.snd.phase = .idle → s.snd.nextSeq = 0
  outbound : ∀ d, inLane s.toRcv d →
    (∃ i, i < s.snd.nextSeq.toNat ∧ s.snd.buf.read i = some d) ∨ (s.snd.phase = .done ∧ d = finPacket s.snd.cfg)
  inbound  : ∀ d, inLane s.toSnd d →
    ∃ a : U32, d = ackPacket s.rcv.cfg a ∧ (a.toNat + 1 ≤ s.rcv.expectedSeq.toNat ∨ a = 0xFFFFFFFF)
  idle     : s.rcv.phase = .idle → s.sink = [] ∧ s.rcv.expectedSeq = 0
  expected : s.rcv.expectedSeq.toNat ≤ s.snd.nextSeq.toNat
  acked    : s.snd.base.toNat ≤ s.rcv.expectedSeq.toNat
  count    : s.sink.length = s.rcv.expectedSeq.toNat
  content  : ∀ i, i < s.sink.length → ∃ k, s.sink[i]? = some k ∧ s.snd.buf.read i = some (dataPacket s.snd.cfg i k)
  complete : s.rcv.phase = .done → s.snd.phase = .done ∧ s.rcv.expectedSeq = s.snd.totalPackets

end Sys2Proof.Machine
end

