-- ==== Sys2Proof/Certificates/Slice0/Obligations.lean ====
section
/-!
DEFINITION. The statements for the provers, each with the rule of spec/ it formalises.
-/

open Sys2Proof Sys2Proof.Machine

/-! ## Encoding -/

/-- Every well-formed operation, with every operand at every value, is what the decoder reads from its presentation (R81, R82,
R92). -/
def Obligations.DecodeEncodeAgree : Prop :=
  ∀ i : Instr, i.wf = true → decode (encode i) = .ok i

/-- Words written out from R81, R83 and R92 (the bytes of 95_test_vectors.md K4, K9, K14, K19) decode to their rows. -/
def Obligations.WrittenWordsDecode : Prop :=
  decode (.packet .receiver [0, 0, 0, 1, 0, 0, 0, 0, 0x02, 0x0F, 0, 0, 0x45, 0x46, 0x47, 0x48]) =
    .ok (.data .receiver 1 0 0x020F [0x45, 0x46, 0x47, 0x48]) ∧
  decode (.packet .sender [0, 0, 0, 0, 0, 0, 0, 2, 0, 3, 0, 1, 0, 0, 0, 0]) = .ok (.ack .sender 0 2 3 [0, 0, 0, 0]) ∧
  decode (.packet .receiver [0, 0, 0, 0, 0, 0, 0, 0, 0, 2, 0, 2, 0, 0, 0, 0]) = .ok (.fin .receiver 0 0 2 [0, 0, 0, 0]) ∧
  decode (.packet .sender [0, 0, 0, 0, 0, 0, 0, 0, 0, 3, 0, 3, 0, 0, 0, 0]) =
    .ok (.badflagDrop .sender 0 0 3 3 [0, 0, 0, 0]) ∧
  decode (.event 0x11 {}) = .ok .fillWindow ∧ decode (.event 0x14 {}) = .ok .onTimeout ∧
  decode (.event 0x23 {}) = .ok .onFin ∧ decode (.event 0x32 {}) = .ok .restart

/-- R92: the eighteen listed codes name operations; every other code is refused by the decoder, and so is the step that
presents it (X12). -/
def Obligations.UnlistedCodesRefused : Prop :=
  ∀ (code : Byte) (a : Args),
    (code.toNat ∈ [0x00, 0x01, 0x02, 0x03, 0x04, 0x10, 0x11, 0x12, 0x13, 0x14, 0x15, 0x20, 0x21, 0x22, 0x23,
        0x30, 0x31, 0x32] → ∃ i, decode (.event code a) = .ok i) ∧
    (code.toNat ∉ [0x00, 0x01, 0x02, 0x03, 0x04, 0x10, 0x11, 0x12, 0x13, 0x14, 0x15, 0x20, 0x21, 0x22, 0x23,
        0x30, 0x31, 0x32] → decode (.event code a) = .error (.unknownCode code) ∧
      ∀ (s : State) (ts : List Turn), s.schedule = .invoke (.event code a) :: ts →
        step s = .refused (.undecodable (.unknownCode code)))

/-- R84 and R87 over the 96-bit header number `w`, byte 0 most significant: the row is selected by `w AND 0xFFFF`, and the fields
are the bits R81 gives them. -/
def Obligations.KindSelectedByMaskAndMatch : Prop :=
  ∀ (side : Side) (h : List Byte) (payload : Chunk), h.length = 12 →
    let w := headerNumber h
    let seq := BitVec.ofNat 32 (w / 2 ^ 64)
    let ack := BitVec.ofNat 32 (w / 2 ^ 32)
    let ck := BitVec.ofNat 16 (w / 2 ^ 16)
    (w &&& 0xFFFF = 0 → decode (.packet side (h ++ payload)) = .ok (.data side seq ack ck payload)) ∧
    (w &&& 0xFFFF = 1 → decode (.packet side (h ++ payload)) = .ok (.ack side seq ack ck payload)) ∧
    (w &&& 0xFFFF = 2 → decode (.packet side (h ++ payload)) = .ok (.fin side seq ack ck payload)) ∧
    (3 ≤ w &&& 0xFFFF →
      decode (.packet side (h ++ payload)) = .ok (.badflagDrop side seq ack ck (BitVec.ofNat 16 w) payload))

/-! ## The step, the control loops and the arbiter -/

/-- An operation presented by the next turn is decoded and executed, in the state whose schedule is the rest; the drivers' turns
present S_START and R_START (R92, R132, R162). That the order of turns is data in the state is the model's choice (log entry 1), and so
is that an ON_TIMEOUT invoked directly does not pass the arbiter (log entry 26). -/
def Obligations.StepRunsTheDecodedOperation : Prop :=
  ∀ (s : State) (ts : List Turn),
    (∀ f i, s.schedule = .invoke f :: ts → decode f = .ok i → step s = exec i { s with schedule := ts }) ∧
    (∀ n cs, s.schedule = .startSender n cs :: ts → step s = exec (.sStart n cs) { s with schedule := ts }) ∧
    (s.schedule = .startReceiver :: ts → step s = exec .rStart { s with schedule := ts })

/-- The table of R132 outside S_WAIT: what the sender's control loop does when it has the turn. R132 says of S_IDLE (but for S_START)
and S_DONE that no step is enabled; that such a turn answers with nothing changed is the model's choice (log entry 21), and the
turn itself is (log entry 1). -/
def Obligations.SenderLoopFollowsItsTable : Prop :=
  ∀ (s : State) (pick : Pick) (ts : List Turn), s.schedule = .sender pick :: ts → configLegal s.snd.cfg = true →
    let u : State := { s with schedule := ts }
    (s.snd.phase = .idle → step s = .next u) ∧
    (s.snd.phase = .fill → s.snd.base = s.snd.totalPackets →
      step s = .next { u with snd := { u.snd with phase := .fin } }) ∧
    (s.snd.phase = .fill → s.snd.base.toNat < s.snd.totalPackets.toNat → step s = exec .fillWindow u) ∧
    (s.snd.phase = .fin → step s = exec .finish u) ∧
    (s.snd.phase = .done → step s = .next u)

/-- R184 and R185: in S_WAIT with the pick packet first, an available datagram is received, expiry or not; without one ON_TIMEOUT
is taken exactly when the timer is armed and `now - t_arm >= TIMEOUT_MS`. No datagram and no expiry is no event (R61, decision D23);
that the turn then answers with nothing changed is the model's choice (log entry 21). -/
def Obligations.PacketFirstArbitration : Prop :=
  ∀ (s : State) (pick : Pick) (ts : List Turn), s.schedule = .sender pick :: ts → configLegal s.snd.cfg = true →
    s.snd.phase = .wait → s.snd.cfg.arbitration = .packetFirst →
    let u : State := { s with schedule := ts }
    (∀ d ds, s.toSnd.waiting = d :: ds → step s = exec (.sRx d) { u with toSnd := { u.toSnd with waiting := ds } }) ∧
    (∀ tArm, s.toSnd.waiting = [] → s.snd.timer = .armed tArm → s.snd.cfg.timeoutMs + tArm ≤ s.now →
      step s = exec .onTimeout u) ∧
    (∀ tArm, s.toSnd.waiting = [] → s.snd.timer = .armed tArm → s.now < s.snd.cfg.timeoutMs + tArm → step s = .next u) ∧
    (s.toSnd.waiting = [] → s.snd.timer = .disarmed → step s = .next u)

/-- R185, the pick left open: with a datagram available and the timer expired the turn's pick decides (the pick's source is the
model's, log entry 16); with one of the two only, whichever it is, that one is served; with neither, nothing changes (the model's
choice, log entry 21). -/
def Obligations.OpenArbitrationServesThePick : Prop :=
  ∀ (s : State) (pick : Pick) (ts : List Turn), s.schedule = .sender pick :: ts → configLegal s.snd.cfg = true →
    s.snd.phase = .wait → s.snd.cfg.arbitration = .free →
    let u : State := { s with schedule := ts }
    let expiry : Prop := ∃ tArm, s.snd.timer = .armed tArm ∧ s.snd.cfg.timeoutMs + tArm ≤ s.now
    (∀ d ds, s.toSnd.waiting = d :: ds →
      (expiry → pick = .timeout → step s = exec .onTimeout u) ∧
      (expiry → pick = .datagram → step s = exec (.sRx d) { u with toSnd := { u.toSnd with waiting := ds } }) ∧
      (¬ expiry → step s = exec (.sRx d) { u with toSnd := { u.toSnd with waiting := ds } })) ∧
    (s.toSnd.waiting = [] → (expiry → step s = exec .onTimeout u) ∧ (¬ expiry → step s = .next u))

/-- The table of R162: what the receiver's control loop does when it has the turn. R162 says of R_IDLE (but for R_START) and R_DONE that
no step is enabled; that such a turn, and one with no datagram available, answers with nothing changed is the model's choice (log
entry 21), and the turn itself is (log entry 1). -/
def Obligations.ReceiverLoopFollowsItsTable : Prop :=
  ∀ (s : State) (ts : List Turn), s.schedule = .receiver :: ts → configLegal s.rcv.cfg = true →
    let u : State := { s with schedule := ts }
    (s.rcv.phase = .idle → step s = .next u) ∧
    (∀ d ds, s.rcv.phase = .wait → s.toRcv.waiting = d :: ds →
      step s = exec (.rRx d) { u with toRcv := { u.toRcv with waiting := ds } }) ∧
    (s.rcv.phase = .wait → s.toRcv.waiting = [] → step s = .next u) ∧
    (s.rcv.phase = .done → step s = .next u)

/-- R187 and X9: the clock's turn sets `now` forward and changes nothing else; backwards it is refused. -/
def Obligations.ClockNeverGoesBack : Prop :=
  ∀ (s : State) (t : Nat) (ts : List Turn), s.schedule = .clock t :: ts →
    (s.now ≤ t → step s = .next { s with schedule := ts, now := t }) ∧
    (t < s.now → step s = .refused (.clockBackwards t))

/-- R60, and R94 and R213 for alteration and injection (log entry 15): the channel toward either side makes a datagram in flight
available on the port; a datagram in flight, and one available and not consumed (R38 (c)), it drops, duplicates or leaves for later,
and its bytes may be altered; a datagram may be put in from outside, whatever the lane holds. With no datagram at the place the
turn changes nothing (the model's choice, log entry 21). No register is touched. The two parts of a lane are the model's choice
(log entry 14). -/
def Obligations.ChannelMovesDatagrams : Prop :=
  ∀ (s : State) (dest : Side) (act : ChannelAct) (ts : List Turn), s.schedule = .channel dest act :: ts →
    let lane : Lane := match dest with | .receiver => s.toRcv | .sender => s.toSnd
    let put (l : Lane) : Out := match dest with
      | .receiver => .next { s with schedule := ts, toRcv := l }
      | .sender => .next { s with schedule := ts, toSnd := l }
    (∀ k d, lane.flying[k]? = some d →
      (act = .arrive k → step s = put { flying := lane.flying.eraseIdx k, waiting := lane.waiting ++ [d] }) ∧
      (act = .drop (.flying k) → step s = put { lane with flying := lane.flying.eraseIdx k }) ∧
      (act = .dup (.flying k) → step s = put { lane with flying := lane.flying ++ [d] }) ∧
      (act = .delay (.flying k) → step s = put lane) ∧
      (∀ i m, act = .flip (.flying k) i m → step s = put { lane with flying := lane.flying.set k (flipByte d i m) })) ∧
    (∀ k d, lane.waiting[k]? = some d →
      (act = .drop (.waiting k) → step s = put { lane with waiting := lane.waiting.eraseIdx k }) ∧
      (act = .dup (.waiting k) → step s = put { lane with flying := lane.flying ++ [d] }) ∧
      (act = .delay (.waiting k) →
        step s = put { flying := lane.flying ++ [d], waiting := lane.waiting.eraseIdx k }) ∧
      (∀ i m, act = .flip (.waiting k) i m → step s = put { lane with waiting := lane.waiting.set k (flipByte d i m) })) ∧
    (∀ d, act = .inject d → step s = put { lane with flying := lane.flying ++ [d] }) ∧
    (∀ k, lane.flying[k]? = none →
      (act = .arrive k ∨ act = .drop (.flying k) ∨ act = .dup (.flying k) ∨ act = .delay (.flying k) ∨
        ∃ i m, act = .flip (.flying k) i m) → step s = put lane) ∧
    (∀ k, lane.waiting[k]? = none →
      (act = .drop (.waiting k) ∨ act = .dup (.waiting k) ∨ act = .delay (.waiting k) ∨
        ∃ i m, act = .flip (.waiting k) i m) → step s = put lane)

/-- R40, R230: creating an instance gives it the values of the table "after reset", whatever the state before; the buffer holds no
value, the timer is disarmed, the sink is empty, and the channel keeps what it holds. -/
def Obligations.ResetGivesTheListedValues : Prop :=
  ∀ (s : State) (cfg : Config) (ts : List Turn), configLegal cfg = true →
    (s.schedule = .resetSender cfg :: ts → ∃ t, step s = .next t ∧
      t = { s with schedule := ts, snd := t.snd } ∧ t.snd.cfg = cfg ∧ t.snd.phase.code = 0 ∧ t.snd.base = 0 ∧
      t.snd.nextSeq = 0 ∧ t.snd.totalPackets = 0 ∧ isArmed t.snd.timer = false ∧
      (∀ i, t.snd.buf.read i = none) ∧ ∀ i d, bufRead t.snd i ≠ .ok d) ∧
    (s.schedule = .resetReceiver cfg :: ts → ∃ t, step s = .next t ∧
      t = { s with schedule := ts, rcv := t.rcv, sink := [] } ∧ t.rcv.cfg = cfg ∧ t.rcv.phase.code = 0 ∧
      t.rcv.expectedSeq = 0)

/-! ## The codec -/

/-- R111: the image is the five fields in order, big-endian, `PKT_LEN` bytes; `ck` is neither computed nor checked; nothing is
written but the value handed back. That it is handed back in the field `result` is the model's choice (log entry 10). -/
def Obligations.EncodeGivesTheWireImage : Prop :=
  ∀ (side : Side) (p : Packet) (s : State), configLegal (cfgOf side s) = true →
    p.payload.length = (cfgOf side s).payloadCapacity →
    let byte (n k : Nat) : Byte := BitVec.ofNat 8 (n / 256 ^ k)
    let d := [byte p.seq.toNat 3, byte p.seq.toNat 2, byte p.seq.toNat 1, byte p.seq.toNat 0,
      byte p.ack.toNat 3, byte p.ack.toNat 2, byte p.ack.toNat 1, byte p.ack.toNat 0,
      byte p.ck.toNat 1, byte p.ck.toNat 0, byte p.flags.toNat 1, byte p.flags.toNat 0] ++ p.payload
    exec (.encode side p) s = .next { s with result := some (.datagram d) } ∧
      d.length = 12 + (cfgOf side s).payloadCapacity

/-- R115: the fields are read at their offsets, flags as found, nothing is validated; any other length is a fault; and
DECODE(ENCODE(p)) = p, ENCODE(DECODE(d)) = d. The field `result` is the model's choice (log entry 10). -/
def Obligations.DecodeReadsTheFields : Prop :=
  ∀ (side : Side) (s : State), configLegal (cfgOf side s) = true →
    (∀ d : Datagram, d.length = 12 + (cfgOf side s).payloadCapacity →
      ∃ p : Packet, exec (.decode side d) s = .next { s with result := some (.packet p) } ∧
        p.seq.toNat = headerNumber (d.take 4) ∧ p.ack.toNat = headerNumber ((d.drop 4).take 4) ∧
        p.ck.toNat = headerNumber ((d.drop 8).take 2) ∧ p.flags.toNat = headerNumber ((d.drop 10).take 2) ∧
        p.payload = d.drop 12 ∧
        exec (.encode side p) s = .next { s with result := some (.datagram d) }) ∧
    (∀ d : Datagram, d.length ≠ 12 + (cfgOf side s).payloadCapacity →
      exec (.decode side d) s = .fault (.badLength d.length)) ∧
    (∀ p : Packet, p.payload.length = (cfgOf side s).payloadCapacity →
      exec (.decode side (encodeRec p)) s = .next { s with result := some (.packet p) })

/-- R113 (a) to (d): the checksum, whatever the algorithm, depends on sequence number, acknowledgment number, flags and
payload alone, and is the same at both instances when they are configured alike. -/
def Obligations.ChecksumKeepsItsContract : Prop :=
  ∀ (c c' : Config) (p q : Packet), c.ckAlgo = c'.ckAlgo → p.seq = q.seq → p.ack = q.ack → p.flags = q.flags →
    p.payload = q.payload → cksum c p = cksum c' q

/-- R112: CKSUM under XOR16_BE is the exclusive-or of the big-endian words of the image with a zero checksum field, in the
closed form of the rule. The field `result` is the model's choice (log entry 10). -/
def Obligations.ChecksumXor16Be : Prop :=
  ∀ (side : Side) (p : Packet) (s : State), configLegal (cfgOf side s) = true →
    (cfgOf side s).ckAlgo = .xor16be → p.payload.length = (cfgOf side s).payloadCapacity →
    let c := wordFold (encodeRec { p with ck := 0 })
    exec (.cksum side p) s = .next { s with result := some (.checksum c) } ∧
      c = p.seq.extractLsb' 16 16 ^^^ p.seq.extractLsb' 0 16 ^^^ p.ack.extractLsb' 16 16 ^^^
        p.ack.extractLsb' 0 16 ^^^ p.flags ^^^ wordFold p.payload

/-- R114: CKSUM under XOR8 is the exclusive-or of all bytes of the zeroed image, zero-extended; it equals
`zext_16(x[15:8] XOR x[7:0])` of the XOR16_BE result `x`. The field `result` is the model's choice (log entry 10). -/
def Obligations.ChecksumXor8 : Prop :=
  ∀ (side : Side) (p : Packet) (s : State), configLegal (cfgOf side s) = true →
    (cfgOf side s).ckAlgo = .xor8 → p.payload.length = (cfgOf side s).payloadCapacity →
    let b : Byte := (encodeRec { p with ck := 0 }).foldl (· ^^^ ·) 0
    let x := wordFold (encodeRec { p with ck := 0 })
    exec (.cksum side p) s = .next { s with result := some (.checksum (b.setWidth 16)) } ∧
      b.setWidth 16 = (x.extractLsb' 8 8 ^^^ x.extractLsb' 0 8).setWidth 16

/-- R113, U1: under any other algorithm CKSUM still completes, with a value that depends on the four fields only (a free
value, log entry 7). The field `result` is the model's choice (log entry 10). -/
def Obligations.ChecksumOfAnyAlgorithmCompletes : Prop :=
  ∀ (side : Side) (p : Packet) (s : State) (k : Nat), configLegal (cfgOf side s) = true →
    (cfgOf side s).ckAlgo = .other k → p.payload.length = (cfgOf side s).payloadCapacity →
    ∃ c, (∀ ck, exec (.cksum side { p with ck := ck }) s = .next { s with result := some (.checksum c) })

/-- R116: FRAME hands back the image of the record with its own checksum, and VALIDATE of it is true, under every algorithm. The field
`result` is the model's choice (log entry 10). -/
def Obligations.FrameValidates : Prop :=
  ∀ (side : Side) (seq ack : U32) (kind : Kind) (payload : Chunk) (s : State), configLegal (cfgOf side s) = true →
    payload.length = (cfgOf side s).payloadCapacity →
    let p : Packet := { seq, ack, ck := 0, flags := kind.flags, payload }
    let d := encodeRec { p with ck := cksum (cfgOf side s) p }
    exec (.frame side seq ack kind payload) s = .next { s with result := some (.datagram d) } ∧
      d.length = 12 + (cfgOf side s).payloadCapacity ∧
      exec (.validate side d) s = .next { s with result := some (.verdict true) }

/-- R117: the verdict compares the recomputed checksum with the field and looks at nothing else; on another length VALIDATE
faults (X7); under XOR16_BE it is true exactly when all words, the checksum's included, cancel. The field `result` is the model's
choice (log entry 10). -/
def Obligations.ValidateComparesChecksums : Prop :=
  ∀ (side : Side) (d : Datagram) (s : State), configLegal (cfgOf side s) = true →
    (∀ p, d.length = 12 + (cfgOf side s).payloadCapacity → decodeRec d = some p → ∃ b : Bool,
      exec (.validate side d) s = .next { s with result := some (.verdict b) } ∧
      (b = true ↔ cksum (cfgOf side s) { p with ck := 0 } = p.ck) ∧
      ((cfgOf side s).ckAlgo = .xor16be → (b = true ↔ wordFold d = 0))) ∧
    (d.length ≠ 12 + (cfgOf side s).payloadCapacity → exec (.validate side d) s = .fault (.badLength d.length))

/-- R119 (a): any single-bit change to a datagram that validates makes VALIDATE false, under both algorithms the spec
gives. -/
def Obligations.SingleBitChangeDetected : Prop :=
  ∀ (c : Config) (d : Datagram) (i b : Nat), (c.ckAlgo = .xor16be ∨ c.ckAlgo = .xor8) → d.length = pktLen c →
    validate c d = true → i < d.length → b < 8 → validate c (flipByte d i (BitVec.ofNat 8 (2 ^ b))) = false

/-- R119 (b), (c): under XOR16_BE two equal flips in the same byte column of two words, and an exchange of two whole words at even
offsets, checksum word included, leave VALIDATE as it was. -/
def Obligations.ColumnPairsAndWordExchangesUndetected : Prop :=
  ∀ (c : Config), c.ckAlgo = .xor16be →
    (∀ (d : Datagram) (i j : Nat) (m : Byte), d.length = pktLen c → i < d.length → j < d.length → i ≠ j →
      i % 2 = j % 2 → validate c (flipByte (flipByte d i m) j m) = validate c d) ∧
    (∀ (l1 l2 l3 : List Byte) (x0 x1 y0 y1 : Byte), l1.length % 2 = 0 → l2.length % 2 = 0 →
      (l1 ++ [x0, x1] ++ l2 ++ [y0, y1] ++ l3).length = pktLen c →
      validate c (l1 ++ [y0, y1] ++ l2 ++ [x0, x1] ++ l3) = validate c (l1 ++ [x0, x1] ++ l2 ++ [y0, y1] ++ l3))

/-! ## The sender -/

/-- R131: what S_START writes, and that it changes nothing else. -/
def Obligations.SStartCreatesTheWindow : Prop :=
  ∀ (n : Nat) (chunks : List Chunk) (s : State), configLegal s.snd.cfg = true → s.snd.phase = .idle → n < 2 ^ 32 →
    chunks.length = n → (∀ k ∈ chunks, k.length = s.snd.cfg.payloadCapacity) →
    ∃ t, exec (.sStart n chunks) s = .next t ∧
      t = { s with snd := { s.snd with
        totalPackets := BitVec.ofNat 32 n, base := 0, nextSeq := 0, timer := .disarmed, phase := .fill
        buf := t.snd.buf } } ∧
      (∀ i k, chunks[i]? = some k → t.snd.buf.read i = some (frame s.snd.cfg (BitVec.ofNat 32 i) 0 0 k)) ∧
      (∀ i j, n ≤ i → t.snd.buf.byteAt i j = s.snd.buf.byteAt i j)

/-- X1, X3, X4: S_START outside S_IDLE has no step (the model's fault `noStep`, log entry 12); `N` past `2^32 - 1` and chunks that do
not fit are refused. -/
def Obligations.SStartStopsOutsideItsContract : Prop :=
  ∀ (n : Nat) (chunks : List Chunk) (s : State), configLegal s.snd.cfg = true →
    (s.snd.phase ≠ .idle → exec (.sStart n chunks) s = .fault (.noStep 0x10)) ∧
    (s.snd.phase = .idle → 2 ^ 32 ≤ n → exec (.sStart n chunks) s = .refused (.tooManyPackets n)) ∧
    (s.snd.phase = .idle → n < 2 ^ 32 →
      (chunks.length ≠ n ∨ ∃ k ∈ chunks, k.length ≠ s.snd.cfg.payloadCapacity) →
      exec (.sStart n chunks) s = .refused .badChunks)

/-- R134: FILL_WINDOW transmits, in ascending order, the buffered packets from `next_seq` up to
`min(base + WINDOW_SIZE, total_packets)`, moves `next_seq` past them, arms a disarmed timer at `now` and leaves an armed one
as it was, and goes to S_WAIT; `base < next_seq` holds afterwards. Premises: its precondition, and that the packets are in
the buffer (`BufInv`); where one is not, it faults (`UnreadableEntriesAndBadRecordsStop`). That it arms where it transmits nothing,
with the timer disarmed and `base < next_seq` (which R29 rules out), is the model's choice (log entry 25). -/
def Obligations.FillWindowSendsTheWindow : Prop :=
  ∀ (s : State) (ds : List Datagram), configLegal s.snd.cfg = true → s.snd.phase = .fill →
    s.snd.base.toNat < s.snd.totalPackets.toNat →
    ds.length = min (s.snd.base.toNat + s.snd.cfg.windowSize) s.snd.totalPackets.toNat - s.snd.nextSeq.toNat →
    (∀ j, j < ds.length → s.snd.buf.read (s.snd.nextSeq.toNat + j) = ds[j]?) →
    exec .fillWindow s = .next { s with
      toRcv := s.toRcv.emit ds
      snd := { s.snd with
        nextSeq := s.snd.nextSeq + BitVec.ofNat 32 ds.length
        timer := if isArmed s.snd.timer then s.snd.timer else .armed s.now
        phase := .wait } } ∧
    s.snd.base.toNat < (s.snd.nextSeq + BitVec.ofNat 32 ds.length).toNat

/-- R85, R136 and R208 at the sender: the first failing check of length, checksum and flags names the label, the datagram
is consumed, the phase moves to S_FILL, and nothing else changes: not `base`, not `next_seq`, not the timer. That the label goes to
`anomalies` is the model's choice (log entry 11). -/
def Obligations.SenderDropsByTheFirstFailingCheck : Prop :=
  ∀ (d : Datagram) (s : State), configLegal s.snd.cfg = true → s.snd.phase = .wait →
    let dropped (a : Anomaly) : Out :=
      .next { s with snd := { s.snd with phase := .fill }, anomalies := s.anomalies ++ [a] }
    (d.length ≠ 12 + s.snd.cfg.payloadCapacity → exec (.sRx d) s = dropped .badLen) ∧
    (∀ p, d.length = 12 + s.snd.cfg.payloadCapacity → decodeRec d = some p → cksum s.snd.cfg p ≠ p.ck →
      exec (.sRx d) s = dropped .badSum) ∧
    (∀ p, d.length = 12 + s.snd.cfg.payloadCapacity → decodeRec d = some p → cksum s.snd.cfg p = p.ck →
      p.flags ≠ 1 → exec (.sRx d) s = dropped .badFlag)

/-- R140: an acknowledgment with `base < u32(ack + 1) <= next_seq` moves `base` there and disarms the timer if that is
`next_seq`, restarts it otherwise; whether it comes by ON_ACK (in S_WAIT or S_FILL, the model's reading, log entry 22), by S_RX or as
a packet of kind ACK at the sender. `next_seq`, the buffer and the receiver are untouched. Premise `TimerInv` rules out states with packets outstanding and no timer (R29). -/
def Obligations.QualifyingAckAdvancesBase : Prop :=
  ∀ (s : State) (seq ack : U32) (payload : Chunk), configLegal s.snd.cfg = true → s.snd.phase = .wait →
    TimerInv s.snd → s.snd.base.toNat < (ack.toNat + 1) % 2 ^ 32 → (ack.toNat + 1) % 2 ^ 32 ≤ s.snd.nextSeq.toNat →
    payload.length = s.snd.cfg.payloadCapacity →
    let p : Packet := { seq, ack, ck := 0, flags := 1, payload }
    let ck := cksum s.snd.cfg p
    let after (x : PhaseS) : Out := .next { s with snd := { s.snd with
      phase := x, base := ack + 1
      timer := if ack + 1 = s.snd.nextSeq then .disarmed else .armed s.now } }
    (∀ x, x = .wait ∨ x = .fill → exec (.onAck ack) (s.setPhaseS x) = after x) ∧
      exec (.sRx (encodeRec { p with ck := ck })) s = after .fill ∧
      exec (.ack .sender seq ack ck payload) s = after .fill

/-- R141, R200: an acknowledgment that does not qualify changes no register and not the timer; it is labelled STALE_ACK when
`u32(ack + 1) <= base`, and BEYOND_ACK when it is past `next_seq`. ON_ACK's phases are the model's reading (log entry 22), the log
`anomalies` its choice (log entry 11), and so is STALE_ACK where both conditions hold (log entry 19). -/
def Obligations.StaleOrBeyondAckIgnored : Prop :=
  ∀ (s : State) (seq ack : U32) (payload : Chunk), configLegal s.snd.cfg = true → s.snd.phase = .wait →
    payload.length = s.snd.cfg.payloadCapacity →
    let p : Packet := { seq, ack, ck := 0, flags := 1, payload }
    let ck := cksum s.snd.cfg p
    let after (x : PhaseS) (a : Anomaly) : Out :=
      .next { s with snd := { s.snd with phase := x }, anomalies := s.anomalies ++ [a] }
    ((ack.toNat + 1) % 2 ^ 32 ≤ s.snd.base.toNat →
      (∀ x, x = .wait ∨ x = .fill → exec (.onAck ack) (s.setPhaseS x) = after x .staleAck) ∧
      exec (.sRx (encodeRec { p with ck := ck })) s = after .fill .staleAck ∧
      exec (.ack .sender seq ack ck payload) s = after .fill .staleAck) ∧
    (s.snd.base.toNat < (ack.toNat + 1) % 2 ^ 32 → s.snd.nextSeq.toNat < (ack.toNat + 1) % 2 ^ 32 →
      (∀ x, x = .wait ∨ x = .fill → exec (.onAck ack) (s.setPhaseS x) = after x .beyondAck) ∧
      exec (.sRx (encodeRec { p with ck := ck })) s = after .fill .beyondAck ∧
      exec (.ack .sender seq ack ck payload) s = after .fill .beyondAck)

/-- R145 (a): the acknowledgment 0xFFFFFFFF never moves anything at the sender, whatever the state of the window. -/
def Obligations.AllOnesAckIsAlwaysStale : Prop :=
  ∀ (s t : State), exec (.onAck 0xFFFFFFFF) s = .next t → t.snd = s.snd ∧ t.toRcv = s.toRcv ∧ t.toSnd = s.toSnd

/-- R142: ON_TIMEOUT sends `[base, next_seq)` again, ascending, from the buffer, restarts the timer at `now`, goes to
S_FILL, and writes neither `base` nor `next_seq`. The label is LOSS (R200), in the model's log (log entry 11). Premise: the packets are
in the buffer; where one is not, it faults (`UnreadableEntriesAndBadRecordsStop`). That it runs, invoked directly, while a datagram
waits on the port is the model's choice (log entry 26). -/
def Obligations.TimeoutRetransmitsTheWindow : Prop :=
  ∀ (s : State) (tArm : Nat) (ds : List Datagram), configLegal s.snd.cfg = true → s.snd.phase = .wait →
    s.snd.timer = .armed tArm → s.snd.cfg.timeoutMs + tArm ≤ s.now →
    s.snd.nextSeq.toNat ≤ s.snd.totalPackets.toNat → ds.length = s.snd.nextSeq.toNat - s.snd.base.toNat →
    (∀ j, j < ds.length → s.snd.buf.read (s.snd.base.toNat + j) = ds[j]?) →
    exec .onTimeout s = .next { s with
      toRcv := s.toRcv.emit ds
      snd := { s.snd with timer := .armed s.now, phase := .fill }
      anomalies := s.anomalies ++ [.loss] }

/-- R143: FINISH transmits `FIN_REPEAT` copies of the FIN packet, back to back, and terminates. -/
def Obligations.FinishSendsTheFinCopies : Prop :=
  ∀ (s : State), configLegal s.snd.cfg = true → s.snd.phase = .fin →
    exec .finish s = .next { s with
      toRcv := s.toRcv.emit (List.replicate s.snd.cfg.finRepeat
        (frame s.snd.cfg 0 0 2 (List.replicate s.snd.cfg.payloadCapacity 0)))
      snd := { s.snd with phase := .done } }

/-! ## The receiver -/

/-- R161: R_START. -/
def Obligations.RStartCreatesTheCounter : Prop :=
  ∀ (s : State), configLegal s.rcv.cfg = true → s.rcv.phase = .idle →
    exec .rStart s = .next { s with rcv := { s.rcv with expectedSeq := 0, phase := .wait } }

/-- R164: an in-order packet is appended, `expected_seq` is incremented, and one ACK with the packet's number is emitted;
whether it comes by ON_PACKET, by R_RX or as a packet of kind DATA at the receiver; its `ack` field is ignored. -/
def Obligations.InOrderPacketAccepted : Prop :=
  ∀ (s : State) (seq ack : U32) (payload : Chunk), configLegal s.rcv.cfg = true → s.rcv.phase = .wait →
    payload.length = s.rcv.cfg.payloadCapacity → seq = s.rcv.expectedSeq →
    let p : Packet := { seq, ack, ck := 0, flags := 0, payload }
    let ck := cksum s.rcv.cfg p
    let after : Out := .next { s with
      sink := s.sink ++ [payload]
      rcv := { s.rcv with expectedSeq := seq + 1 }
      toSnd := s.toSnd.emit [frame s.rcv.cfg 0 seq 1 (List.replicate s.rcv.cfg.payloadCapacity 0)] }
    exec (.onPacket seq payload) s = after ∧
      exec (.rRx (encodeRec { p with ck := ck })) s = after ∧
      exec (.data .receiver seq ack ck payload) s = after

/-- R166: an unexpected packet after the first acceptance is discarded and the last good packet acknowledged again;
`expected_seq` and the sink are unchanged; the label is DUP below `expected_seq` and AHEAD above it. That the label goes to
`anomalies` is the model's choice (log entry 11). -/
def Obligations.UnexpectedPacketReacknowledged : Prop :=
  ∀ (s : State) (seq ack : U32) (payload : Chunk), configLegal s.rcv.cfg = true → s.rcv.phase = .wait →
    payload.length = s.rcv.cfg.payloadCapacity → seq ≠ s.rcv.expectedSeq → s.rcv.expectedSeq ≠ 0 →
    let p : Packet := { seq, ack, ck := 0, flags := 0, payload }
    let ck := cksum s.rcv.cfg p
    let after : Out := .next { s with
      toSnd := s.toSnd.emit
        [frame s.rcv.cfg 0 (s.rcv.expectedSeq - 1) 1 (List.replicate s.rcv.cfg.payloadCapacity 0)]
      anomalies := s.anomalies ++ [if seq.toNat < s.rcv.expectedSeq.toNat then .dup else .ahead] }
    exec (.onPacket seq payload) s = after ∧
      exec (.rRx (encodeRec { p with ck := ck })) s = after ∧
      exec (.data .receiver seq ack ck payload) s = after

/-- R167: an unexpected packet at `expected_seq = 0`: nothing is emitted under SUPPRESS, the acknowledgment 0xFFFFFFFF under WRAP;
nothing is appended and `expected_seq` stays 0 in both. That the label goes to `anomalies` is the model's choice (log entry 11). -/
def Obligations.UnexpectedPacketAtZero : Prop :=
  ∀ (s : State) (seq ack : U32) (payload : Chunk), configLegal s.rcv.cfg = true → s.rcv.phase = .wait →
    payload.length = s.rcv.cfg.payloadCapacity → seq ≠ 0 → s.rcv.expectedSeq = 0 →
    let p : Packet := { seq, ack, ck := 0, flags := 0, payload }
    let ck := cksum s.rcv.cfg p
    let emitted : List Datagram :=
      match s.rcv.cfg.reack0 with
      | .suppress => []
      | .wrap => [frame s.rcv.cfg 0 0xFFFFFFFF 1 (List.replicate s.rcv.cfg.payloadCapacity 0)]
    let after : Out := .next { s with toSnd := s.toSnd.emit emitted, anomalies := s.anomalies ++ [.ahead] }
    exec (.onPacket seq payload) s = after ∧
      exec (.rRx (encodeRec { p with ck := ck })) s = after ∧
      exec (.data .receiver seq ack ck payload) s = after

/-- R168: a validated FIN ends the receiver, whatever its other fields and whatever `expected_seq`; nothing is emitted,
appended or otherwise changed. -/
def Obligations.FinEndsTheReceiver : Prop :=
  ∀ (s : State) (seq ack : U32) (payload : Chunk), configLegal s.rcv.cfg = true → s.rcv.phase = .wait →
    payload.length = s.rcv.cfg.payloadCapacity →
    let p : Packet := { seq, ack, ck := 0, flags := 2, payload }
    let ck := cksum s.rcv.cfg p
    let after : Out := .next { s with rcv := { s.rcv with phase := .done } }
    exec .onFin s = after ∧
      exec (.rRx (encodeRec { p with ck := ck })) s = after ∧
      exec (.fin .receiver seq ack ck payload) s = after

/-- R86, R163 and R208 at the receiver: the first failing check names the label; the datagram is consumed; no register, no
sink append, no emission. That the label goes to `anomalies` is the model's choice (log entry 11). -/
def Obligations.ReceiverDropsByTheFirstFailingCheck : Prop :=
  ∀ (d : Datagram) (s : State), configLegal s.rcv.cfg = true → s.rcv.phase = .wait →
    let dropped (a : Anomaly) : Out := .next { s with anomalies := s.anomalies ++ [a] }
    (d.length ≠ 12 + s.rcv.cfg.payloadCapacity → exec (.rRx d) s = dropped .badLen) ∧
    (∀ p, d.length = 12 + s.rcv.cfg.payloadCapacity → decodeRec d = some p → cksum s.rcv.cfg p ≠ p.ck →
      exec (.rRx d) s = dropped .badSum) ∧
    (∀ p, d.length = 12 + s.rcv.cfg.payloadCapacity → decodeRec d = some p → cksum s.rcv.cfg p = p.ck →
      p.flags ≠ 0 → p.flags ≠ 2 → exec (.rRx d) s = dropped .badFlag)

/-! ## Wire kinds -/

/-- R84, R236: at either side, in every state and with every field, a packet of each wire kind is received as the datagram that is its
image, so the checks of length and checksum, and the phase, come first there too. R87, R88: a valid packet with an illegal `flags`
value at either side, DATA and FIN at the sender and ACK at the receiver are dropped with BADFLAG; the sender's phase moves as in
every S_RX. That a kind is a reception at a side is the model's reading (log entry 3), the log `anomalies` its choice (log
entry 11). -/
def Obligations.IllegalAndMisdirectedKindsDropped : Prop :=
  ∀ (s : State) (seq ack : U32) (flags : U16) (payload : Chunk),
    (∀ (side : Side) (ck : U16),
      let received (f : U16) : Out :=
        match side with
        | .sender => exec (.sRx (encodeRec { seq, ack, ck, flags := f, payload })) s
        | .receiver => exec (.rRx (encodeRec { seq, ack, ck, flags := f, payload })) s
      exec (.data side seq ack ck payload) s = received 0 ∧ exec (.ack side seq ack ck payload) s = received 1 ∧
      exec (.fin side seq ack ck payload) s = received 2 ∧
      exec (.badflagDrop side seq ack ck flags payload) s = received flags) ∧
    let p (f : U16) : Packet := { seq, ack, ck := 0, flags := f, payload }
    let atSender : Out :=
      .next { s with snd := { s.snd with phase := .fill }, anomalies := s.anomalies ++ [.badFlag] }
    let atReceiver : Out := .next { s with anomalies := s.anomalies ++ [.badFlag] }
    (configLegal s.snd.cfg = true → s.snd.phase = .wait → payload.length = s.snd.cfg.payloadCapacity →
      exec (.data .sender seq ack (cksum s.snd.cfg (p 0)) payload) s = atSender ∧
      exec (.fin .sender seq ack (cksum s.snd.cfg (p 2)) payload) s = atSender ∧
      (3 ≤ flags.toNat → exec (.badflagDrop .sender seq ack (cksum s.snd.cfg (p flags)) flags payload) s = atSender)) ∧
    (configLegal s.rcv.cfg = true → s.rcv.phase = .wait → payload.length = s.rcv.cfg.payloadCapacity →
      exec (.ack .receiver seq ack (cksum s.rcv.cfg (p 1)) payload) s = atReceiver ∧
      (3 ≤ flags.toNat →
        exec (.badflagDrop .receiver seq ack (cksum s.rcv.cfg (p flags)) flags payload) s = atReceiver))

/-- R132, R162, X10: a datagram offered to a machine that is not waiting is not consumed: it stays in the channel, and nothing
else changes. That the directly invoked step puts it there is the model's reading (log entry 13). -/
def Obligations.DatagramStaysInTheChannel : Prop :=
  ∀ (s : State) (d : Datagram),
    (configLegal s.snd.cfg = true → s.snd.phase ≠ .wait →
      exec (.sRx d) s = .next { s with toSnd := { s.toSnd with waiting := s.toSnd.waiting ++ [d] } }) ∧
    (configLegal s.rcv.cfg = true → s.rcv.phase ≠ .wait →
      exec (.rRx d) s = .next { s with toRcv := { s.toRcv with waiting := s.toRcv.waiting ++ [d] } })

/-- R95, R241: under XOR16_BE the datagram of zero bytes is a valid DATA packet, and a receiver at 0 accepts it. -/
def Obligations.AllZeroDatagramAccepted : Prop :=
  ∀ (s : State), configLegal s.rcv.cfg = true → s.rcv.cfg.ckAlgo = .xor16be → s.rcv.phase = .wait →
    s.rcv.expectedSeq = 0 →
    ∃ t, exec (.rRx (List.replicate (12 + s.rcv.cfg.payloadCapacity) 0)) s = .next t ∧
      t.sink = s.sink ++ [List.replicate s.rcv.cfg.payloadCapacity 0] ∧ t.rcv.expectedSeq = 1

/-- R234, X2: instances with different payload capacities: every frame of one is dropped by the other with BADLEN. With equal capacities
and different algorithms a frame whose checksum is not the same under both is dropped with BADSUM; the two sums the spec gives are
the same exactly when the XOR16_BE one is below 0x0100 (R112, R114). That a frame with the same sum under both is not dropped follows
the codec's rules and not R234's word "every" (log entry 27). That the label goes to `anomalies` is the model's choice (log
entry 11). -/
def Obligations.MismatchedCapacityDropsEverything : Prop :=
  (∀ (s : State) (seq ack : U32) (flags : U16) (payload : Chunk), configLegal s.snd.cfg = true →
    configLegal s.rcv.cfg = true →
    let p : Packet := { seq, ack, ck := 0, flags, payload }
    let atReceiver (a : Anomaly) : Prop :=
      exec (.rRx (frame s.snd.cfg seq ack flags payload)) s = .next { s with anomalies := s.anomalies ++ [a] }
    let atSender (a : Anomaly) : Prop :=
      exec (.sRx (frame s.rcv.cfg seq ack flags payload)) s =
        .next { s with snd := { s.snd with phase := .fill }, anomalies := s.anomalies ++ [a] }
    (s.snd.cfg.payloadCapacity ≠ s.rcv.cfg.payloadCapacity →
      (s.rcv.phase = .wait → payload.length = s.snd.cfg.payloadCapacity → atReceiver .badLen) ∧
      (s.snd.phase = .wait → payload.length = s.rcv.cfg.payloadCapacity → atSender .badLen)) ∧
    (s.snd.cfg.payloadCapacity = s.rcv.cfg.payloadCapacity → cksum s.snd.cfg p ≠ cksum s.rcv.cfg p →
      payload.length = s.snd.cfg.payloadCapacity →
      (s.rcv.phase = .wait → atReceiver .badSum) ∧ (s.snd.phase = .wait → atSender .badSum))) ∧
  ∀ (c c' : Config) (p : Packet), c.ckAlgo = .xor16be → c'.ckAlgo = .xor8 →
    (cksum c p = cksum c' p ↔ (cksum c p).toNat < 0x100)

/-! ## The timer -/

/-- R181, R182, R183: ARM sets a disarmed timer to `(1, now)`, RESTART an armed one, DISARM clears it; nothing else changes. A
disarmed timer never expires; after ARM or RESTART the expiry is a full `TIMEOUT_MS` away. Each where an operation that invokes it
could: ARM in S_FILL with `base < next_seq`, DISARM in S_WAIT or S_FILL with `base = next_seq`, RESTART there with `base < next_seq`;
that this is where a directly invoked primitive has a step is the model's reading of "invoked only by" (log entry 22). -/
def Obligations.TimerPrimitives : Prop :=
  ∀ (s : State), configLegal s.snd.cfg = true →
    let set (t : Timer) : Out := .next { s with snd := { s.snd with timer := t } }
    (s.snd.phase = .fill → s.snd.base.toNat < s.snd.nextSeq.toNat → s.snd.timer = .disarmed →
      exec .arm s = set (.armed s.now)) ∧
    (∀ tArm, (s.snd.phase = .wait ∨ s.snd.phase = .fill) → s.snd.base.toNat < s.snd.nextSeq.toNat →
      s.snd.timer = .armed tArm → exec .restart s = set (.armed s.now)) ∧
    ((s.snd.phase = .wait ∨ s.snd.phase = .fill) → s.snd.base = s.snd.nextSeq → exec .disarm s = set .disarmed) ∧
    (∀ now, expired { s.snd with timer := .disarmed } now = false) ∧
    (∀ now, expired { s.snd with timer := .armed s.now } now = true ↔ s.snd.cfg.timeoutMs + s.now ≤ now)

/-! ## Whole-machine rules -/

/-- R92, X3: an operation invoked where its rule's precondition fails has no step: the model's fault `noStep` (log entry 12). For ON_ACK,
ON_PACKET, ON_FIN and the timer's primitives the precondition is the model's reading of who invokes them (log entry 22). -/
def Obligations.NoStepWithoutThePrecondition : Prop :=
  ∀ (s : State),
    (configLegal s.snd.cfg = true →
      ((s.snd.phase ≠ .fill ∨ s.snd.totalPackets.toNat ≤ s.snd.base.toNat) →
        exec .fillWindow s = .fault (.noStep 0x11)) ∧
      ((s.snd.phase ≠ .wait ∨ expired s.snd s.now = false) → exec .onTimeout s = .fault (.noStep 0x14)) ∧
      (s.snd.phase ≠ .fin → exec .finish s = .fault (.noStep 0x15)) ∧
      ((s.snd.phase ≠ .fill ∨ s.snd.nextSeq.toNat ≤ s.snd.base.toNat ∨ isArmed s.snd.timer = true) →
        exec .arm s = .fault (.noStep 0x30)) ∧
      ((s.snd.phase ≠ .wait ∧ s.snd.phase ≠ .fill ∨ s.snd.base ≠ s.snd.nextSeq) →
        exec .disarm s = .fault (.noStep 0x31)) ∧
      ((s.snd.phase ≠ .wait ∧ s.snd.phase ≠ .fill ∨ s.snd.nextSeq.toNat ≤ s.snd.base.toNat ∨
          isArmed s.snd.timer = false) →
        exec .restart s = .fault (.noStep 0x32)) ∧
      (∀ a, s.snd.phase ≠ .wait → s.snd.phase ≠ .fill → exec (.onAck a) s = .fault (.noStep 0x13))) ∧
    (configLegal s.rcv.cfg = true →
      (s.rcv.phase ≠ .idle → exec .rStart s = .fault (.noStep 0x20)) ∧
      (∀ q p, s.rcv.phase ≠ .wait → exec (.onPacket q p) s = .fault (.noStep 0x22)) ∧
      (s.rcv.phase ≠ .wait → exec .onFin s = .fault (.noStep 0x23)))

/-- R6, X1: an instance with a configuration outside the ranges has no meaning: each of its operations is refused. -/
def Obligations.IllegalConfigurationRefused : Prop :=
  ∀ (i : Instr) (s : State), configLegal (cfgOf (sideOf i) s) = false → exec i s = .refused .illegalConfig

/-- R20, R213: a register is written only by its owner's operations: the sender's leave the receiver and the sink alone, the
receiver's leave the sender alone, and the codec's write no register and emit nothing. No operation moves the clock or the
schedule. -/
def Obligations.OnlyTheOwnerWritesItsRegisters : Prop :=
  ∀ (i : Instr) (s t : State), exec i s = .next t →
    (ownerOf i ≠ some .receiver → t.rcv = s.rcv ∧ t.sink = s.sink ∧ t.toSnd.flying = s.toSnd.flying) ∧
    (ownerOf i ≠ some .sender → t.snd = s.snd ∧ t.toRcv.flying = s.toRcv.flying) ∧
    (ownerOf i ≠ none → t.result = s.result) ∧ t.now = s.now ∧ t.schedule = s.schedule

/-- R36, R23, R24, R237: no operation writes a configuration; none but S_START writes `total_packets` or any byte of the
buffer. -/
def Obligations.BufferAndConfigurationImmutable : Prop :=
  ∀ (i : Instr) (s t : State), exec i s = .next t →
    t.snd.cfg = s.snd.cfg ∧ t.rcv.cfg = s.rcv.cfg ∧
    (isSStart i = false → t.snd.totalPackets = s.snd.totalPackets ∧
      ∀ a j, t.snd.buf.byteAt a j = s.snd.buf.byteAt a j)

/-- R42, R144, R170: after S_DONE no operation changes any of the sender's registers, the timer among them, or emits for it; after R_DONE
none changes a register of the receiver or the sink, or emits for it. -/
def Obligations.FinalPhasesAreFrozen : Prop :=
  ∀ (i : Instr) (s t : State), exec i s = .next t →
    (s.snd.phase = .done → t.snd = s.snd ∧ t.toRcv.flying = s.toRcv.flying) ∧
    (s.rcv.phase = .done → t.rcv = s.rcv ∧ t.sink = s.sink ∧ t.toSnd.flying = s.toSnd.flying)

/-- R21, R22, R30, R146, R171: but for S_START no operation lowers `base` or `next_seq`; but for R_START none lowers
`expected_seq`, which moves by at most one (while it is not 0xFFFFFFFF, R169 (b)). -/
def Obligations.SequenceRegistersNeverDecrease : Prop :=
  ∀ (i : Instr) (s t : State), exec i s = .next t →
    (isSStart i = false → s.snd.base.toNat ≤ t.snd.base.toNat ∧ s.snd.nextSeq.toNat ≤ t.snd.nextSeq.toNat) ∧
    (i ≠ .rStart → s.rcv.expectedSeq ≠ 0xFFFFFFFF →
      s.rcv.expectedSeq.toNat ≤ t.rcv.expectedSeq.toNat ∧
      t.rcv.expectedSeq.toNat ≤ s.rcv.expectedSeq.toNat + 1)

/-- R186: an operation changes the timer only as the table says: S_START disarms; FILL_WINDOW arms a disarmed timer; an acknowledgment
that moves `base` disarms it at `next_seq` and restarts it below; ON_TIMEOUT restarts it; and each primitive invoked directly does
what it does for its caller (log entry 22). That FILL_WINDOW arms where it transmits nothing, in states R29 rules out, is the
model's choice (log entry 25). -/
def Obligations.TimerChangesOnlyAsListed : Prop :=
  ∀ (i : Instr) (s t : State), exec i s = .next t →
    t.snd.timer = s.snd.timer ∨
    (i = .arm ∧ s.snd.timer = .disarmed ∧ t.snd.base.toNat < t.snd.nextSeq.toNat ∧ t.snd.timer = .armed s.now) ∨
    (i = .disarm ∧ t.snd.base = t.snd.nextSeq ∧ t.snd.timer = .disarmed) ∨
    (i = .restart ∧ isArmed s.snd.timer = true ∧ t.snd.base.toNat < t.snd.nextSeq.toNat ∧ t.snd.timer = .armed s.now) ∨
    (isSStart i = true ∧ t.snd.timer = .disarmed) ∨
    (i = .fillWindow ∧ s.snd.timer = .disarmed ∧ t.snd.timer = .armed s.now ∧
      s.snd.nextSeq.toNat ≤ t.snd.nextSeq.toNat ∧ t.snd.base.toNat < t.snd.nextSeq.toNat) ∨
    (s.snd.base.toNat < t.snd.base.toNat ∧
      ((t.snd.base = t.snd.nextSeq ∧ t.snd.timer = .disarmed) ∨
       (t.snd.base.toNat < t.snd.nextSeq.toNat ∧ t.snd.timer = .armed s.now))) ∨
    (i = .onTimeout ∧ expired s.snd s.now = true ∧ t.snd.timer = .armed s.now)

/-- R60, R205: the reception steps are total on every byte sequence: they never stop (at the sender, in states where the timer
runs while packets are outstanding, R29). In the phases that are not waiting no step is enabled (R92, X10); that the directly invoked
reception answers there, leaving the datagram in the channel, is the model's reading (log entry 13). -/
def Obligations.ReceptionNeverStops : Prop :=
  ∀ (d : Datagram) (s : State),
    (configLegal s.rcv.cfg = true → ∃ t, exec (.rRx d) s = .next t) ∧
    (configLegal s.snd.cfg = true → TimerInv s.snd → ∃ t, exec (.sRx d) s = .next t)

/-- R118 (a), R235: whatever an operation emits has `PKT_LEN` bytes and validates, under every checksum algorithm (for
the sender's buffered packets, in states where the buffer holds what S_START wrote). -/
def Obligations.EverythingEmittedValidates : Prop :=
  ∀ (i : Instr) (s t : State), exec i s = .next t → BufInv s.snd →
    (∃ ds, t.toRcv.flying = s.toRcv.flying ++ ds ∧
      ∀ d ∈ ds, d.length = pktLen s.snd.cfg ∧ validate s.snd.cfg d = true) ∧
    (∃ ds, t.toSnd.flying = s.toSnd.flying ++ ds ∧
      ∀ d ∈ ds, d.length = pktLen s.rcv.cfg ∧ validate s.rcv.cfg d = true)

/-! ## Invariants -/

/-- R24: the buffer keeps its canonical form in every step. -/
def Obligations.BufferStaysCanonical : Prop :=
  ∀ s t : State, Memory.wf s.snd.buf = true → step s = .next t → Memory.wf t.snd.buf = true

/-- R26, R143: every step, whatever the turn, keeps the window invariant, and S_FIN and S_DONE at the end of the window. -/
def Obligations.WindowInvariantKept : Prop :=
  ∀ s t : State, WindowInv s.snd ∧ EndInv s.snd → step s = .next t → WindowInv t.snd ∧ EndInv t.snd

/-- R29, R146: every step, whatever the turn, keeps everything a sender keeps, the timer invariant among it. -/
def Obligations.SenderInvariantKept : Prop :=
  ∀ s t : State, SenderInv s.snd → step s = .next t → SenderInv t.snd

/-- R31, R169, R171: every step keeps the sink and `expected_seq` in agreement. -/
def Obligations.SinkCountsAcceptedPackets : Prop :=
  ∀ s t : State, SinkInv s → step s = .next t → SinkInv t

/-- R40: the invariants hold at reset. -/
def Obligations.InvariantsHoldAtReset : Prop :=
  SenderInv State.reset.snd ∧ SinkInv State.reset ∧ DeliveryInv State.reset ∧ Memory.wf State.reset.snd.buf = true

/-- R65, R171, R246: under any schedule of turns that neither reset, alter, inject nor invoke from outside, and any loss,
duplication and reordering, delivery is in order, complete and without duplication: every step keeps `DeliveryInv`. -/
def Obligations.DeliveryInvariantKept : Prop :=
  ∀ s t : State, DeliveryInv s → (∀ u, nextTurn s = some u → honest u = true) → step s = .next t → DeliveryInv t

/-- R246, P1: after any number of steps of an honest schedule, from any state of the delivery invariant, a receiver that has ended holds
exactly the transfer's chunks, in order, once each; they are those in the sender's buffer at the end, and, when the transfer had
started before the run, those in its buffer at the beginning. That the order of turns is data is the model's choice (log
entry 1). -/
def Obligations.EndedReceiverHoldsEveryChunk : Prop :=
  ∀ (n : Nat) (s t : State), DeliveryInv s → (∀ u ∈ s.schedule, honest u = true) →
    Host.Core.run Sys2Proof.core n s = .next t → t.rcv.phase = .done →
    t.sink.length = t.snd.totalPackets.toNat ∧
    (∀ i, i < t.snd.totalPackets.toNat →
      ∃ k, t.sink[i]? = some k ∧ t.snd.buf.read i = some (dataPacket t.snd.cfg i k)) ∧
    (s.snd.phase ≠ .idle → t.snd.totalPackets = s.snd.totalPackets ∧
      ∀ i, i < s.snd.totalPackets.toNat →
        ∃ k, t.sink[i]? = some k ∧ s.snd.buf.read i = some (dataPacket s.snd.cfg i k))

/-- R247: a sender that keeps its invariants never stops when it has the turn: in every phase, whatever is available and whatever
the time, its step answers. In S_IDLE and S_DONE, and in S_WAIT with neither a datagram nor an expiry, no step is enabled; that the
turn answers there with nothing changed is the model's choice (log entry 21). -/
def Obligations.SenderTurnAlwaysAnswers : Prop :=
  ∀ (s : State) (pick : Pick) (ts : List Turn), SenderInv s.snd → s.schedule = .sender pick :: ts →
    ∃ t, step s = .next t

/-! ## Stops on an entry or an operand -/

/-- R52, X5, X6: FILL_WINDOW and ON_TIMEOUT fault at the first entry they would read that holds no value, and ON_TIMEOUT at the first
one past `total_packets` (FILL_WINDOW's loop ends there). R14: ENCODE, CKSUM, FRAME and ON_PACKET of a record whose payload is not
`PAYLOAD_CAPACITY` bytes are refused, the model's reading of an operand that is no record (log entry 19). That ON_TIMEOUT, invoked
directly, comes to its reads while a datagram waits on the port is the model's choice (log entry 26). -/
def Obligations.UnreadableEntriesAndBadRecordsStop : Prop :=
  ∀ (s : State),
    (configLegal s.snd.cfg = true → s.snd.phase = .fill → s.snd.base.toNat < s.snd.totalPackets.toNat →
      ∀ i, s.snd.nextSeq.toNat ≤ i → i < min (s.snd.base.toNat + s.snd.cfg.windowSize) s.snd.totalPackets.toNat →
        (∀ j, s.snd.nextSeq.toNat ≤ j → j < i → ∃ d, s.snd.buf.read j = some d) → s.snd.buf.read i = none →
        exec .fillWindow s = .fault (.bufNoValue i)) ∧
    (configLegal s.snd.cfg = true → s.snd.phase = .wait → expired s.snd s.now = true →
      ∀ i, s.snd.base.toNat ≤ i → i < s.snd.nextSeq.toNat →
        (∀ j, s.snd.base.toNat ≤ j → j < i → j < s.snd.totalPackets.toNat ∧ ∃ d, s.snd.buf.read j = some d) →
        (s.snd.totalPackets.toNat ≤ i → exec .onTimeout s = .fault (.bufOutOfRange i)) ∧
        (i < s.snd.totalPackets.toNat → s.snd.buf.read i = none → exec .onTimeout s = .fault (.bufNoValue i))) ∧
    (∀ (side : Side) (p : Packet) (kind : Kind), configLegal (cfgOf side s) = true →
      p.payload.length ≠ (cfgOf side s).payloadCapacity →
      exec (.encode side p) s = .refused (.badRecord p.payload.length) ∧
      exec (.cksum side p) s = .refused (.badRecord p.payload.length) ∧
      exec (.frame side p.seq p.ack kind p.payload) s = .refused (.badRecord p.payload.length)) ∧
    (∀ (seq : U32) (payload : Chunk), configLegal s.rcv.cfg = true → s.rcv.phase = .wait →
      payload.length ≠ s.rcv.cfg.payloadCapacity → exec (.onPacket seq payload) s = .refused (.badRecord payload.length))
end

