-- ==== Sys2Proof/Laws/State.lean ====
section
/-!
SUPPORT. One lemma per field per update of the state, true by rfl, so that no proof unfolds a record update.
-/

namespace Sys2Proof.Machine

/-! ### setSnd -/

@[simp] theorem State.setSnd_snd (s : State) (x : Sender) : (s.setSnd x).snd = x := rfl
@[simp] theorem State.setSnd_rcv (s : State) (x : Sender) : (s.setSnd x).rcv = s.rcv := rfl
@[simp] theorem State.setSnd_toRcv (s : State) (x : Sender) : (s.setSnd x).toRcv = s.toRcv := rfl
@[simp] theorem State.setSnd_toSnd (s : State) (x : Sender) : (s.setSnd x).toSnd = s.toSnd := rfl
@[simp] theorem State.setSnd_sink (s : State) (x : Sender) : (s.setSnd x).sink = s.sink := rfl
@[simp] theorem State.setSnd_now (s : State) (x : Sender) : (s.setSnd x).now = s.now := rfl
@[simp] theorem State.setSnd_result (s : State) (x : Sender) : (s.setSnd x).result = s.result := rfl
@[simp] theorem State.setSnd_anomalies (s : State) (x : Sender) : (s.setSnd x).anomalies = s.anomalies := rfl
@[simp] theorem State.setSnd_schedule (s : State) (x : Sender) : (s.setSnd x).schedule = s.schedule := rfl

/-! ### setRcv -/

@[simp] theorem State.setRcv_snd (s : State) (x : Receiver) : (s.setRcv x).snd = s.snd := rfl
@[simp] theorem State.setRcv_rcv (s : State) (x : Receiver) : (s.setRcv x).rcv = x := rfl
@[simp] theorem State.setRcv_toRcv (s : State) (x : Receiver) : (s.setRcv x).toRcv = s.toRcv := rfl
@[simp] theorem State.setRcv_toSnd (s : State) (x : Receiver) : (s.setRcv x).toSnd = s.toSnd := rfl
@[simp] theorem State.setRcv_sink (s : State) (x : Receiver) : (s.setRcv x).sink = s.sink := rfl
@[simp] theorem State.setRcv_now (s : State) (x : Receiver) : (s.setRcv x).now = s.now := rfl
@[simp] theorem State.setRcv_result (s : State) (x : Receiver) : (s.setRcv x).result = s.result := rfl
@[simp] theorem State.setRcv_anomalies (s : State) (x : Receiver) : (s.setRcv x).anomalies = s.anomalies := rfl
@[simp] theorem State.setRcv_schedule (s : State) (x : Receiver) : (s.setRcv x).schedule = s.schedule := rfl

/-! ### setPhaseS -/

@[simp] theorem State.setPhaseS_snd_cfg (s : State) (p : PhaseS) : (s.setPhaseS p).snd.cfg = s.snd.cfg := rfl
@[simp] theorem State.setPhaseS_snd_phase (s : State) (p : PhaseS) : (s.setPhaseS p).snd.phase = p := rfl
@[simp] theorem State.setPhaseS_snd_base (s : State) (p : PhaseS) : (s.setPhaseS p).snd.base = s.snd.base := rfl
@[simp] theorem State.setPhaseS_snd_nextSeq (s : State) (p : PhaseS) : (s.setPhaseS p).snd.nextSeq = s.snd.nextSeq := rfl
@[simp] theorem State.setPhaseS_snd_totalPackets (s : State) (p : PhaseS) : (s.setPhaseS p).snd.totalPackets = s.snd.totalPackets := rfl
@[simp] theorem State.setPhaseS_snd_buf (s : State) (p : PhaseS) : (s.setPhaseS p).snd.buf = s.snd.buf := rfl
@[simp] theorem State.setPhaseS_snd_timer (s : State) (p : PhaseS) : (s.setPhaseS p).snd.timer = s.snd.timer := rfl
@[simp] theorem State.setPhaseS_rcv (s : State) (p : PhaseS) : (s.setPhaseS p).rcv = s.rcv := rfl
@[simp] theorem State.setPhaseS_toRcv (s : State) (p : PhaseS) : (s.setPhaseS p).toRcv = s.toRcv := rfl
@[simp] theorem State.setPhaseS_toSnd (s : State) (p : PhaseS) : (s.setPhaseS p).toSnd = s.toSnd := rfl
@[simp] theorem State.setPhaseS_sink (s : State) (p : PhaseS) : (s.setPhaseS p).sink = s.sink := rfl
@[simp] theorem State.setPhaseS_now (s : State) (p : PhaseS) : (s.setPhaseS p).now = s.now := rfl
@[simp] theorem State.setPhaseS_result (s : State) (p : PhaseS) : (s.setPhaseS p).result = s.result := rfl
@[simp] theorem State.setPhaseS_anomalies (s : State) (p : PhaseS) : (s.setPhaseS p).anomalies = s.anomalies := rfl
@[simp] theorem State.setPhaseS_schedule (s : State) (p : PhaseS) : (s.setPhaseS p).schedule = s.schedule := rfl

/-! ### setBase -/

@[simp] theorem State.setBase_snd_cfg (s : State) (v : U32) : (s.setBase v).snd.cfg = s.snd.cfg := rfl
@[simp] theorem State.setBase_snd_phase (s : State) (v : U32) : (s.setBase v).snd.phase = s.snd.phase := rfl
@[simp] theorem State.setBase_snd_base (s : State) (v : U32) : (s.setBase v).snd.base = v := rfl
@[simp] theorem State.setBase_snd_nextSeq (s : State) (v : U32) : (s.setBase v).snd.nextSeq = s.snd.nextSeq := rfl
@[simp] theorem State.setBase_snd_totalPackets (s : State) (v : U32) : (s.setBase v).snd.totalPackets = s.snd.totalPackets := rfl
@[simp] theorem State.setBase_snd_buf (s : State) (v : U32) : (s.setBase v).snd.buf = s.snd.buf := rfl
@[simp] theorem State.setBase_snd_timer (s : State) (v : U32) : (s.setBase v).snd.timer = s.snd.timer := rfl
@[simp] theorem State.setBase_rcv (s : State) (v : U32) : (s.setBase v).rcv = s.rcv := rfl
@[simp] theorem State.setBase_toRcv (s : State) (v : U32) : (s.setBase v).toRcv = s.toRcv := rfl
@[simp] theorem State.setBase_toSnd (s : State) (v : U32) : (s.setBase v).toSnd = s.toSnd := rfl
@[simp] theorem State.setBase_sink (s : State) (v : U32) : (s.setBase v).sink = s.sink := rfl
@[simp] theorem State.setBase_now (s : State) (v : U32) : (s.setBase v).now = s.now := rfl
@[simp] theorem State.setBase_result (s : State) (v : U32) : (s.setBase v).result = s.result := rfl
@[simp] theorem State.setBase_anomalies (s : State) (v : U32) : (s.setBase v).anomalies = s.anomalies := rfl
@[simp] theorem State.setBase_schedule (s : State) (v : U32) : (s.setBase v).schedule = s.schedule := rfl

/-! ### setNextSeq -/

@[simp] theorem State.setNextSeq_snd_cfg (s : State) (v : U32) : (s.setNextSeq v).snd.cfg = s.snd.cfg := rfl
@[simp] theorem State.setNextSeq_snd_phase (s : State) (v : U32) : (s.setNextSeq v).snd.phase = s.snd.phase := rfl
@[simp] theorem State.setNextSeq_snd_base (s : State) (v : U32) : (s.setNextSeq v).snd.base = s.snd.base := rfl
@[simp] theorem State.setNextSeq_snd_nextSeq (s : State) (v : U32) : (s.setNextSeq v).snd.nextSeq = v := rfl
@[simp] theorem State.setNextSeq_snd_totalPackets (s : State) (v : U32) : (s.setNextSeq v).snd.totalPackets = s.snd.totalPackets := rfl
@[simp] theorem State.setNextSeq_snd_buf (s : State) (v : U32) : (s.setNextSeq v).snd.buf = s.snd.buf := rfl
@[simp] theorem State.setNextSeq_snd_timer (s : State) (v : U32) : (s.setNextSeq v).snd.timer = s.snd.timer := rfl
@[simp] theorem State.setNextSeq_rcv (s : State) (v : U32) : (s.setNextSeq v).rcv = s.rcv := rfl
@[simp] theorem State.setNextSeq_toRcv (s : State) (v : U32) : (s.setNextSeq v).toRcv = s.toRcv := rfl
@[simp] theorem State.setNextSeq_toSnd (s : State) (v : U32) : (s.setNextSeq v).toSnd = s.toSnd := rfl
@[simp] theorem State.setNextSeq_sink (s : State) (v : U32) : (s.setNextSeq v).sink = s.sink := rfl
@[simp] theorem State.setNextSeq_now (s : State) (v : U32) : (s.setNextSeq v).now = s.now := rfl
@[simp] theorem State.setNextSeq_result (s : State) (v : U32) : (s.setNextSeq v).result = s.result := rfl
@[simp] theorem State.setNextSeq_anomalies (s : State) (v : U32) : (s.setNextSeq v).anomalies = s.anomalies := rfl
@[simp] theorem State.setNextSeq_schedule (s : State) (v : U32) : (s.setNextSeq v).schedule = s.schedule := rfl

/-! ### setTimer -/

@[simp] theorem State.setTimer_snd_cfg (s : State) (t : Timer) : (s.setTimer t).snd.cfg = s.snd.cfg := rfl
@[simp] theorem State.setTimer_snd_phase (s : State) (t : Timer) : (s.setTimer t).snd.phase = s.snd.phase := rfl
@[simp] theorem State.setTimer_snd_base (s : State) (t : Timer) : (s.setTimer t).snd.base = s.snd.base := rfl
@[simp] theorem State.setTimer_snd_nextSeq (s : State) (t : Timer) : (s.setTimer t).snd.nextSeq = s.snd.nextSeq := rfl
@[simp] theorem State.setTimer_snd_totalPackets (s : State) (t : Timer) : (s.setTimer t).snd.totalPackets = s.snd.totalPackets := rfl
@[simp] theorem State.setTimer_snd_buf (s : State) (t : Timer) : (s.setTimer t).snd.buf = s.snd.buf := rfl
@[simp] theorem State.setTimer_snd_timer (s : State) (t : Timer) : (s.setTimer t).snd.timer = t := rfl
@[simp] theorem State.setTimer_rcv (s : State) (t : Timer) : (s.setTimer t).rcv = s.rcv := rfl
@[simp] theorem State.setTimer_toRcv (s : State) (t : Timer) : (s.setTimer t).toRcv = s.toRcv := rfl
@[simp] theorem State.setTimer_toSnd (s : State) (t : Timer) : (s.setTimer t).toSnd = s.toSnd := rfl
@[simp] theorem State.setTimer_sink (s : State) (t : Timer) : (s.setTimer t).sink = s.sink := rfl
@[simp] theorem State.setTimer_now (s : State) (t : Timer) : (s.setTimer t).now = s.now := rfl
@[simp] theorem State.setTimer_result (s : State) (t : Timer) : (s.setTimer t).result = s.result := rfl
@[simp] theorem State.setTimer_anomalies (s : State) (t : Timer) : (s.setTimer t).anomalies = s.anomalies := rfl
@[simp] theorem State.setTimer_schedule (s : State) (t : Timer) : (s.setTimer t).schedule = s.schedule := rfl

/-! ### setPhaseR -/

@[simp] theorem State.setPhaseR_snd (s : State) (p : PhaseR) : (s.setPhaseR p).snd = s.snd := rfl
@[simp] theorem State.setPhaseR_rcv_cfg (s : State) (p : PhaseR) : (s.setPhaseR p).rcv.cfg = s.rcv.cfg := rfl
@[simp] theorem State.setPhaseR_rcv_phase (s : State) (p : PhaseR) : (s.setPhaseR p).rcv.phase = p := rfl
@[simp] theorem State.setPhaseR_rcv_expectedSeq (s : State) (p : PhaseR) : (s.setPhaseR p).rcv.expectedSeq = s.rcv.expectedSeq := rfl
@[simp] theorem State.setPhaseR_toRcv (s : State) (p : PhaseR) : (s.setPhaseR p).toRcv = s.toRcv := rfl
@[simp] theorem State.setPhaseR_toSnd (s : State) (p : PhaseR) : (s.setPhaseR p).toSnd = s.toSnd := rfl
@[simp] theorem State.setPhaseR_sink (s : State) (p : PhaseR) : (s.setPhaseR p).sink = s.sink := rfl
@[simp] theorem State.setPhaseR_now (s : State) (p : PhaseR) : (s.setPhaseR p).now = s.now := rfl
@[simp] theorem State.setPhaseR_result (s : State) (p : PhaseR) : (s.setPhaseR p).result = s.result := rfl
@[simp] theorem State.setPhaseR_anomalies (s : State) (p : PhaseR) : (s.setPhaseR p).anomalies = s.anomalies := rfl
@[simp] theorem State.setPhaseR_schedule (s : State) (p : PhaseR) : (s.setPhaseR p).schedule = s.schedule := rfl

/-! ### setExpectedSeq -/

@[simp] theorem State.setExpectedSeq_snd (s : State) (v : U32) : (s.setExpectedSeq v).snd = s.snd := rfl
@[simp] theorem State.setExpectedSeq_rcv_cfg (s : State) (v : U32) : (s.setExpectedSeq v).rcv.cfg = s.rcv.cfg := rfl
@[simp] theorem State.setExpectedSeq_rcv_phase (s : State) (v : U32) : (s.setExpectedSeq v).rcv.phase = s.rcv.phase := rfl
@[simp] theorem State.setExpectedSeq_rcv_expectedSeq (s : State) (v : U32) : (s.setExpectedSeq v).rcv.expectedSeq = v := rfl
@[simp] theorem State.setExpectedSeq_toRcv (s : State) (v : U32) : (s.setExpectedSeq v).toRcv = s.toRcv := rfl
@[simp] theorem State.setExpectedSeq_toSnd (s : State) (v : U32) : (s.setExpectedSeq v).toSnd = s.toSnd := rfl
@[simp] theorem State.setExpectedSeq_sink (s : State) (v : U32) : (s.setExpectedSeq v).sink = s.sink := rfl
@[simp] theorem State.setExpectedSeq_now (s : State) (v : U32) : (s.setExpectedSeq v).now = s.now := rfl
@[simp] theorem State.setExpectedSeq_result (s : State) (v : U32) : (s.setExpectedSeq v).result = s.result := rfl
@[simp] theorem State.setExpectedSeq_anomalies (s : State) (v : U32) : (s.setExpectedSeq v).anomalies = s.anomalies := rfl
@[simp] theorem State.setExpectedSeq_schedule (s : State) (v : U32) : (s.setExpectedSeq v).schedule = s.schedule := rfl

/-! ### txS -/

@[simp] theorem State.txS_snd (s : State) (d : Datagram) : (s.txS d).snd = s.snd := rfl
@[simp] theorem State.txS_rcv (s : State) (d : Datagram) : (s.txS d).rcv = s.rcv := rfl
@[simp] theorem State.txS_toRcv (s : State) (d : Datagram) : (s.txS d).toRcv = s.toRcv.emit [d] := rfl
@[simp] theorem State.txS_toSnd (s : State) (d : Datagram) : (s.txS d).toSnd = s.toSnd := rfl
@[simp] theorem State.txS_sink (s : State) (d : Datagram) : (s.txS d).sink = s.sink := rfl
@[simp] theorem State.txS_now (s : State) (d : Datagram) : (s.txS d).now = s.now := rfl
@[simp] theorem State.txS_result (s : State) (d : Datagram) : (s.txS d).result = s.result := rfl
@[simp] theorem State.txS_anomalies (s : State) (d : Datagram) : (s.txS d).anomalies = s.anomalies := rfl
@[simp] theorem State.txS_schedule (s : State) (d : Datagram) : (s.txS d).schedule = s.schedule := rfl

/-! ### txR -/

@[simp] theorem State.txR_snd (s : State) (d : Datagram) : (s.txR d).snd = s.snd := rfl
@[simp] theorem State.txR_rcv (s : State) (d : Datagram) : (s.txR d).rcv = s.rcv := rfl
@[simp] theorem State.txR_toRcv (s : State) (d : Datagram) : (s.txR d).toRcv = s.toRcv := rfl
@[simp] theorem State.txR_toSnd (s : State) (d : Datagram) : (s.txR d).toSnd = s.toSnd.emit [d] := rfl
@[simp] theorem State.txR_sink (s : State) (d : Datagram) : (s.txR d).sink = s.sink := rfl
@[simp] theorem State.txR_now (s : State) (d : Datagram) : (s.txR d).now = s.now := rfl
@[simp] theorem State.txR_result (s : State) (d : Datagram) : (s.txR d).result = s.result := rfl
@[simp] theorem State.txR_anomalies (s : State) (d : Datagram) : (s.txR d).anomalies = s.anomalies := rfl
@[simp] theorem State.txR_schedule (s : State) (d : Datagram) : (s.txR d).schedule = s.schedule := rfl

/-! ### sinkAppend -/

@[simp] theorem State.sinkAppend_snd (s : State) (c : Chunk) : (s.sinkAppend c).snd = s.snd := rfl
@[simp] theorem State.sinkAppend_rcv (s : State) (c : Chunk) : (s.sinkAppend c).rcv = s.rcv := rfl
@[simp] theorem State.sinkAppend_toRcv (s : State) (c : Chunk) : (s.sinkAppend c).toRcv = s.toRcv := rfl
@[simp] theorem State.sinkAppend_toSnd (s : State) (c : Chunk) : (s.sinkAppend c).toSnd = s.toSnd := rfl
@[simp] theorem State.sinkAppend_sink (s : State) (c : Chunk) : (s.sinkAppend c).sink = s.sink ++ [c] := rfl
@[simp] theorem State.sinkAppend_now (s : State) (c : Chunk) : (s.sinkAppend c).now = s.now := rfl
@[simp] theorem State.sinkAppend_result (s : State) (c : Chunk) : (s.sinkAppend c).result = s.result := rfl
@[simp] theorem State.sinkAppend_anomalies (s : State) (c : Chunk) : (s.sinkAppend c).anomalies = s.anomalies := rfl
@[simp] theorem State.sinkAppend_schedule (s : State) (c : Chunk) : (s.sinkAppend c).schedule = s.schedule := rfl

/-! ### note -/

@[simp] theorem State.note_snd (s : State) (a : Anomaly) : (s.note a).snd = s.snd := rfl
@[simp] theorem State.note_rcv (s : State) (a : Anomaly) : (s.note a).rcv = s.rcv := rfl
@[simp] theorem State.note_toRcv (s : State) (a : Anomaly) : (s.note a).toRcv = s.toRcv := rfl
@[simp] theorem State.note_toSnd (s : State) (a : Anomaly) : (s.note a).toSnd = s.toSnd := rfl
@[simp] theorem State.note_sink (s : State) (a : Anomaly) : (s.note a).sink = s.sink := rfl
@[simp] theorem State.note_now (s : State) (a : Anomaly) : (s.note a).now = s.now := rfl
@[simp] theorem State.note_result (s : State) (a : Anomaly) : (s.note a).result = s.result := rfl
@[simp] theorem State.note_anomalies (s : State) (a : Anomaly) : (s.note a).anomalies = s.anomalies ++ [a] := rfl
@[simp] theorem State.note_schedule (s : State) (a : Anomaly) : (s.note a).schedule = s.schedule := rfl

/-! ### giveBack -/

@[simp] theorem State.giveBack_snd (s : State) (r : CodecResult) : (s.giveBack r).snd = s.snd := rfl
@[simp] theorem State.giveBack_rcv (s : State) (r : CodecResult) : (s.giveBack r).rcv = s.rcv := rfl
@[simp] theorem State.giveBack_toRcv (s : State) (r : CodecResult) : (s.giveBack r).toRcv = s.toRcv := rfl
@[simp] theorem State.giveBack_toSnd (s : State) (r : CodecResult) : (s.giveBack r).toSnd = s.toSnd := rfl
@[simp] theorem State.giveBack_sink (s : State) (r : CodecResult) : (s.giveBack r).sink = s.sink := rfl
@[simp] theorem State.giveBack_now (s : State) (r : CodecResult) : (s.giveBack r).now = s.now := rfl
@[simp] theorem State.giveBack_result (s : State) (r : CodecResult) : (s.giveBack r).result = some r := rfl
@[simp] theorem State.giveBack_anomalies (s : State) (r : CodecResult) : (s.giveBack r).anomalies = s.anomalies := rfl
@[simp] theorem State.giveBack_schedule (s : State) (r : CodecResult) : (s.giveBack r).schedule = s.schedule := rfl

/-! ### emit -/

@[simp] theorem Lane.emit_flying (l : Lane) (ds : List Datagram) : (l.emit ds).flying = l.flying ++ ds := rfl
@[simp] theorem Lane.emit_waiting (l : Lane) (ds : List Datagram) : (l.emit ds).waiting = l.waiting := rfl

@[simp] theorem Lane.emit_nil (l : Lane) : l.emit [] = l := by simp [Lane.emit]

@[simp] theorem Lane.emit_emit (l : Lane) (as bs : List Datagram) : (l.emit as).emit bs = l.emit (as ++ bs) := by
  simp [Lane.emit]

/-! ### The places of a lane -/

@[simp] theorem Lane.at_flying (l : Lane) (k : Nat) : l.at (.flying k) = l.flying[k]? := rfl
@[simp] theorem Lane.at_waiting (l : Lane) (k : Nat) : l.at (.waiting k) = l.waiting[k]? := rfl
@[simp] theorem Lane.remove_flying (l : Lane) (k : Nat) :
    l.remove (.flying k) = { l with flying := l.flying.eraseIdx k } := rfl
@[simp] theorem Lane.remove_waiting (l : Lane) (k : Nat) :
    l.remove (.waiting k) = { l with waiting := l.waiting.eraseIdx k } := rfl
@[simp] theorem Lane.alter_flying (l : Lane) (f : Datagram → Datagram) (k : Nat) :
    l.alter f (.flying k) = { l with flying := l.flying.modify k f } := rfl
@[simp] theorem Lane.alter_waiting (l : Lane) (f : Datagram → Datagram) (k : Nat) :
    l.alter f (.waiting k) = { l with waiting := l.waiting.modify k f } := rfl

/-! ### leaveInChannel -/

@[simp] theorem State.leaveInChannel_sender_snd (s : State) (d : Datagram) : (s.leaveInChannel .sender d).snd = s.snd := rfl
@[simp] theorem State.leaveInChannel_sender_rcv (s : State) (d : Datagram) : (s.leaveInChannel .sender d).rcv = s.rcv := rfl
@[simp] theorem State.leaveInChannel_sender_toRcv (s : State) (d : Datagram) : (s.leaveInChannel .sender d).toRcv = s.toRcv := rfl
@[simp] theorem State.leaveInChannel_sender_toSnd_flying (s : State) (d : Datagram) : (s.leaveInChannel .sender d).toSnd.flying = s.toSnd.flying := rfl
@[simp] theorem State.leaveInChannel_sender_toSnd_waiting (s : State) (d : Datagram) : (s.leaveInChannel .sender d).toSnd.waiting = s.toSnd.waiting ++ [d] := rfl
@[simp] theorem State.leaveInChannel_sender_sink (s : State) (d : Datagram) : (s.leaveInChannel .sender d).sink = s.sink := rfl
@[simp] theorem State.leaveInChannel_sender_now (s : State) (d : Datagram) : (s.leaveInChannel .sender d).now = s.now := rfl
@[simp] theorem State.leaveInChannel_sender_result (s : State) (d : Datagram) : (s.leaveInChannel .sender d).result = s.result := rfl
@[simp] theorem State.leaveInChannel_sender_anomalies (s : State) (d : Datagram) : (s.leaveInChannel .sender d).anomalies = s.anomalies := rfl
@[simp] theorem State.leaveInChannel_sender_schedule (s : State) (d : Datagram) : (s.leaveInChannel .sender d).schedule = s.schedule := rfl
@[simp] theorem State.leaveInChannel_receiver_snd (s : State) (d : Datagram) : (s.leaveInChannel .receiver d).snd = s.snd := rfl
@[simp] theorem State.leaveInChannel_receiver_rcv (s : State) (d : Datagram) : (s.leaveInChannel .receiver d).rcv = s.rcv := rfl
@[simp] theorem State.leaveInChannel_receiver_toRcv_flying (s : State) (d : Datagram) : (s.leaveInChannel .receiver d).toRcv.flying = s.toRcv.flying := rfl
@[simp] theorem State.leaveInChannel_receiver_toRcv_waiting (s : State) (d : Datagram) : (s.leaveInChannel .receiver d).toRcv.waiting = s.toRcv.waiting ++ [d] := rfl
@[simp] theorem State.leaveInChannel_receiver_toSnd (s : State) (d : Datagram) : (s.leaveInChannel .receiver d).toSnd = s.toSnd := rfl
@[simp] theorem State.leaveInChannel_receiver_sink (s : State) (d : Datagram) : (s.leaveInChannel .receiver d).sink = s.sink := rfl
@[simp] theorem State.leaveInChannel_receiver_now (s : State) (d : Datagram) : (s.leaveInChannel .receiver d).now = s.now := rfl
@[simp] theorem State.leaveInChannel_receiver_result (s : State) (d : Datagram) : (s.leaveInChannel .receiver d).result = s.result := rfl
@[simp] theorem State.leaveInChannel_receiver_anomalies (s : State) (d : Datagram) : (s.leaveInChannel .receiver d).anomalies = s.anomalies := rfl
@[simp] theorem State.leaveInChannel_receiver_schedule (s : State) (d : Datagram) : (s.leaveInChannel .receiver d).schedule = s.schedule := rfl

/-! ### channelTurn, and the configuration of a side -/

@[simp] theorem channelTurn_snd (dest : Side) (a : ChannelAct) (s : State) : (channelTurn dest a s).snd = s.snd := by
  cases dest <;> rfl

@[simp] theorem channelTurn_rcv (dest : Side) (a : ChannelAct) (s : State) : (channelTurn dest a s).rcv = s.rcv := by
  cases dest <;> rfl

@[simp] theorem channelTurn_sink (dest : Side) (a : ChannelAct) (s : State) : (channelTurn dest a s).sink = s.sink := by
  cases dest <;> rfl

@[simp] theorem cfgOf_sender (s : State) : cfgOf .sender s = s.snd.cfg := rfl

@[simp] theorem cfgOf_receiver (s : State) : cfgOf .receiver s = s.rcv.cfg := rfl

end Sys2Proof.Machine
end

