-- ==== Sys2Proof/Laws/Bytes.lean ====
section
/-!
SUPPORT. Byte order and the wire image: the two readings of a 16-bit and a 32-bit field are inverse, the length of an image, and
what is read back from its front.
-/

namespace Sys2Proof

theorem be16_bytes (v : U16) : be16 (v.extractLsb' 8 8) (v.extractLsb' 0 8) = v := by
  apply BitVec.eq_of_getLsbD_eq
  intro i hi
  simp only [be16, BitVec.getLsbD_append, BitVec.getLsbD_extractLsb']
  by_cases h : i < 8
  · simp [h]
  · simp [h, show i - 8 < 8 by omega, show 8 + (i - 8) = i by omega]

theorem bytesBe16_be16 (a b : Byte) : bytesBe16 (be16 a b) = [a, b] := by
  have h1 : (be16 a b).extractLsb' 8 8 = a := by
    apply BitVec.eq_of_getLsbD_eq
    intro i hi
    simp only [be16, BitVec.getLsbD_extractLsb', BitVec.getLsbD_append, hi]
    simp [show ¬ 8 + i < 8 by omega]
  have h2 : (be16 a b).extractLsb' 0 8 = b := by
    apply BitVec.eq_of_getLsbD_eq
    intro i hi
    simp only [be16, BitVec.getLsbD_extractLsb', BitVec.getLsbD_append, hi]
    simp [hi]
  simp [bytesBe16, h1, h2]

theorem halves (v : U32) : (v.extractLsb' 16 16 ++ v.extractLsb' 0 16 : U32) = v := by
  apply BitVec.eq_of_getLsbD_eq
  intro i hi
  simp only [BitVec.getLsbD_append, BitVec.getLsbD_extractLsb']
  by_cases h : i < 16
  · simp [h]
  · simp [h, show i - 16 < 16 by omega, show 16 + (i - 16) = i by omega]

theorem high_half (a b : U16) : (a ++ b : U32).extractLsb' 16 16 = a := by
  apply BitVec.eq_of_getLsbD_eq
  intro i hi
  simp only [BitVec.getLsbD_extractLsb', BitVec.getLsbD_append, hi]
  simp [show ¬ 16 + i < 16 by omega]

theorem low_half (a b : U16) : (a ++ b : U32).extractLsb' 0 16 = b := by
  apply BitVec.eq_of_getLsbD_eq
  intro i hi
  simp only [BitVec.getLsbD_extractLsb', BitVec.getLsbD_append, hi]
  simp [hi]

@[simp] theorem take16_cons (a b : Byte) (r : List Byte) : take16 (a :: b :: r) = some (be16 a b, r) := rfl

@[simp] theorem take32_cons (a b c d : Byte) (r : List Byte) :
    take32 (a :: b :: c :: d :: r) = some (be32 a b c d, r) := rfl

@[simp] theorem take16_bytes (v : U16) (r : List Byte) : take16 (bytesBe16 v ++ r) = some (v, r) := by
  simp [bytesBe16, be16_bytes]

@[simp] theorem take32_bytes (v : U32) (r : List Byte) : take32 (bytesBe32 v ++ r) = some (v, r) := by
  have h : take32 (bytesBe32 v ++ r) =
      some (be16 ((v.extractLsb' 16 16).extractLsb' 8 8) ((v.extractLsb' 16 16).extractLsb' 0 8) ++
        be16 ((v.extractLsb' 0 16).extractLsb' 8 8) ((v.extractLsb' 0 16).extractLsb' 0 8), r) := rfl
  rw [h, be16_bytes, be16_bytes, halves]

theorem bytesBe32_be32 (a b c d : Byte) : bytesBe32 (be32 a b c d) = [a, b, c, d] := by
  simp [bytesBe32, be32, high_half, low_half, bytesBe16_be16]

@[simp] theorem length_bytesBe16 (v : U16) : (bytesBe16 v).length = 2 := rfl

@[simp] theorem length_bytesBe32 (v : U32) : (bytesBe32 v).length = 4 := rfl

@[simp] theorem length_zeros (n : Nat) : (zeros n).length = n := by simp [zeros]

@[simp] theorem length_encodeRec (p : Packet) : (encodeRec p).length = headerLen + p.payload.length := by
  simp [encodeRec, headerLen]
  omega

/-- DECODE reads back what ENCODE wrote (R115). -/
theorem decodeRec_encodeRec (p : Packet) : decodeRec (encodeRec p) = some p := by
  simp [decodeRec, encodeRec]

/-- Twelve bytes and the rest. -/
theorem header_shape {d : Datagram} (h : headerLen ≤ d.length) :
    ∃ b0 b1 b2 b3 b4 b5 b6 b7 b8 b9 b10 b11 rest,
      d = b0 :: b1 :: b2 :: b3 :: b4 :: b5 :: b6 :: b7 :: b8 :: b9 :: b10 :: b11 :: rest := by
  match d, h with
  | _ :: _ :: _ :: _ :: _ :: _ :: _ :: _ :: _ :: _ :: _ :: _ :: _, _ =>
    exact ⟨_, _, _, _, _, _, _, _, _, _, _, _, _, rfl⟩

/-- DECODE of a datagram that has a header. -/
theorem decodeRec_of_header (b0 b1 b2 b3 b4 b5 b6 b7 b8 b9 b10 b11 : Byte) (rest : List Byte) :
    decodeRec (b0 :: b1 :: b2 :: b3 :: b4 :: b5 :: b6 :: b7 :: b8 :: b9 :: b10 :: b11 :: rest) = some
      { seq := be32 b0 b1 b2 b3, ack := be32 b4 b5 b6 b7, ck := be16 b8 b9, flags := be16 b10 b11, payload := rest } :=
  rfl

/-- A record read from a datagram has the datagram for its image (R115), and its payload is what follows the header. -/
theorem encodeRec_of_decodeRec {d : Datagram} {p : Packet} (hl : headerLen ≤ d.length) (h : decodeRec d = some p) :
    encodeRec p = d ∧ p.payload.length + headerLen = d.length := by
  obtain ⟨b0, b1, b2, b3, b4, b5, b6, b7, b8, b9, b10, b11, rest, rfl⟩ := header_shape hl
  rw [decodeRec_of_header, Option.some.injEq] at h
  subst h
  exact ⟨by simp [encodeRec, bytesBe32_be32, bytesBe16_be16], by simp [headerLen]⟩

end Sys2Proof
end

