-- ==== Sys2Proof/Laws/Memory.lean ====
section
/-!
SUPPORT. The packet buffer: read after write, writes leave other entries alone, and every operation keeps the canonical form.
-/

namespace Sys2Proof.Machine

@[simp] theorem Memory.read_nil (i : Nat) : Memory.read [] i = none := rfl

@[simp] theorem Memory.read_cons (k : Nat) (d : Datagram) (m : Memory) (i : Nat) :
    Memory.read ((k, d) :: m) i = if k = i then some d else Memory.read m i := rfl

/-- Below the first listed entry nothing is listed. -/
theorem Memory.read_below {m : Memory} (h : Memory.wf m = true) {i : Nat}
    (hi : ∀ e ∈ m.head?, i < e.1) : Memory.read m i = none := by
  induction m with
  | nil => rfl
  | cons e m ih =>
    obtain ⟨k, d⟩ := e
    have hk : i < k := by simpa using hi
    rw [Memory.read_cons, if_neg (by omega)]
    cases m with
    | nil => rfl
    | cons f m =>
      simp only [Memory.wf, Bool.and_eq_true, decide_eq_true_eq] at h
      exact ih h.2 (by intro e he; simp at he; subst he; omega)

theorem Memory.read_write_same (m : Memory) (i : Nat) (d : Datagram) :
    Memory.read (Memory.write m i d) i = some d := by
  induction m with
  | nil => simp [Memory.write]
  | cons e m ih =>
    obtain ⟨k, c⟩ := e
    simp only [Memory.write]
    split
    · simp
    · split
      · simp
      · rename_i h
        rw [Memory.read_cons, if_neg (by omega), ih]

theorem Memory.read_write_other (m : Memory) {i j : Nat} (d : Datagram) (h : j ≠ i) :
    Memory.read (Memory.write m i d) j = Memory.read m j := by
  induction m with
  | nil => simp [Memory.write, Ne.symm h]
  | cons e m ih =>
    obtain ⟨k, c⟩ := e
    simp only [Memory.write]
    split
    · simp [Ne.symm h]
    · split
      · rename_i hk
        subst hk
        simp [Ne.symm h]
      · simp [ih]

theorem Memory.wf_cons {k : Nat} {d : Datagram} {m : Memory} :
    Memory.wf ((k, d) :: m) = true ↔ (∀ e ∈ m.head?, k < e.1) ∧ Memory.wf m = true := by
  cases m <;> simp [Memory.wf]

/-- A write lists its own entry, and otherwise starts where the memory started. -/
theorem Memory.head_write {m : Memory} {i : Nat} {d : Datagram} {e : Nat × Datagram}
    (he : e ∈ (Memory.write m i d).head?) : e.1 = i ∨ ∃ f ∈ m.head?, e.1 = f.1 := by
  cases m with
  | nil => simp [Memory.write] at he; simp [← he]
  | cons f m =>
    obtain ⟨k, c⟩ := f
    simp only [Memory.write] at he
    split at he
    · simp at he; simp [← he]
    · split at he <;> simp at he <;> simp [← he]

theorem Memory.wf_write {m : Memory} (i : Nat) (d : Datagram) (h : Memory.wf m = true) :
    Memory.wf (Memory.write m i d) = true := by
  induction m with
  | nil => rfl
  | cons e m ih =>
    obtain ⟨k, c⟩ := e
    have hc := Memory.wf_cons.mp h
    simp only [Memory.write]
    split
    · rename_i hik
      exact Memory.wf_cons.mpr ⟨by simpa using hik, h⟩
    · split
      · rename_i hik
        subst hik
        exact Memory.wf_cons.mpr hc
      · refine Memory.wf_cons.mpr ⟨?_, ih hc.2⟩
        intro e he
        obtain h1 | ⟨f, hf, h1⟩ := Memory.head_write he
        · omega
        · have := hc.1 f hf; omega

theorem wf_writeFrames (c : Config) (i : Nat) (ks : List Chunk) {m : Memory} (h : Memory.wf m = true) :
    Memory.wf (writeFrames c i ks m) = true := by
  induction ks generalizing i m with
  | nil => exact h
  | cons k ks ih => exact ih _ (Memory.wf_write _ _ h)

theorem wf_reset : Memory.wf State.reset.snd.buf = true := rfl

/-- The frames of a list of chunks, written from entry `i` on: entries outside are as before, entry `i + j` is the frame
of chunk `j`. -/
theorem read_writeFrames (c : Config) (i : Nat) (ks : List Chunk) (m : Memory) (a : Nat) :
    Memory.read (writeFrames c i ks m) a =
      if a < i then Memory.read m a
      else match ks[a - i]? with
        | some k => some (dataPacket c a k)
        | none => Memory.read m a := by
  induction ks generalizing i m with
  | nil => simp [writeFrames]
  | cons k ks ih =>
    simp only [writeFrames, ih]
    by_cases h1 : a < i
    · rw [if_pos (by omega), if_pos h1, Memory.read_write_other _ _ (by omega)]
    · rw [if_neg h1]
      by_cases h2 : a = i
      · subst h2
        simp [Memory.read_write_same]
      · rw [if_neg (by omega), show a - i = (a - (i + 1)) + 1 by omega]
        simp only [List.getElem?_cons_succ]
        rw [Memory.read_write_other _ _ h2]

end Sys2Proof.Machine
end

