-- ==== Sys2Proof/Laws/Ops.lean ====
section
/-!
SUPPORT. One lemma per shared operation, saying once everything it can do. Later proofs cite these and do not unfold the operation.
-/

namespace Sys2Proof.Machine

/-! ### Sequencing and the wrapper -/

@[simp] theorem andThen_ok {α : Type} (a : α) (k : α → Out) : andThen (.ok a) k = k a := rfl

@[simp] theorem andThen_error {α : Type} (f : Fault) (k : α → Out) : andThen (.error f) k = .fault f := rfl

theorem andThen_next {α : Type} {r : Except Fault α} {k : α → Out} {t : State}
    (h : andThen r k = .next t) : ∃ a, r = .ok a ∧ k a = .next t := by
  cases r with
  | ok a => exact ⟨a, rfl, h⟩
  | error f => simp at h

theorem runIn_enabled {side : Side} {s : State} {e : Bool} (code : Byte) (k : Out)
    (hc : configLegal (cfgOf side s) = true) (he : e = true) : runIn side s e code k = k := by
  simp [runIn, hc, he]

theorem runIn_sender {s : State} {e : Bool} (code : Byte) (k : Out)
    (hc : configLegal s.snd.cfg = true) (he : e = true) : runIn .sender s e code k = k := runIn_enabled _ _ hc he

theorem runIn_receiver {s : State} {e : Bool} (code : Byte) (k : Out)
    (hc : configLegal s.rcv.cfg = true) (he : e = true) : runIn .receiver s e code k = k := runIn_enabled _ _ hc he

/-- An operation answers a next state only with a legal configuration and its precondition. -/
theorem runIn_next {side : Side} {s : State} {e : Bool} {code : Byte} {k : Out} {t : State}
    (h : runIn side s e code k = .next t) :
    configLegal (cfgOf side s) = true ∧ e = true ∧ k = .next t := by
  unfold runIn at h
  split at h
  · split at h
    · exact ⟨‹_›, ‹_›, h⟩
    · cases h
  · cases h

@[simp] theorem positive_iff (n : Nat) : positive n = true ↔ 1 ≤ n := by
  cases n <;> simp [positive]

theorem configLegal_iff (c : Config) : configLegal c = true ↔
    1 ≤ c.windowSize ∧ c.windowSize < 2 ^ 32 ∧ 1 ≤ c.payloadCapacity ∧ 1 ≤ c.timeoutMs ∧ 1 ≤ c.finRepeat := by
  simp [configLegal, and_assoc]

theorem configLegal_default : configLegal Config.default = true := by
  simp [configLegal_iff, Config.default]

/-! ### The timer -/

@[simp] theorem isArmed_disarmed : isArmed .disarmed = false := rfl

@[simp] theorem isArmed_armed (t : Nat) : isArmed (.armed t) = true := rfl

theorem reacting_iff (x : Sender) : reacting x = true ↔ x.phase = .wait ∨ x.phase = .fill := by
  simp [reacting]

theorem outstanding_iff (x : Sender) : outstanding x = true ↔ x.base.toNat < x.nextSeq.toNat := by
  simp [outstanding]

theorem restartTimer_ok {now : Nat} {t t' : Timer} (h : restartTimer now t = .ok t') :
    isArmed t = true ∧ t' = .armed now := by
  cases t with
  | disarmed => simp [restartTimer] at h
  | armed a => simp [restartTimer] at h; exact ⟨rfl, h.symm⟩

theorem armTimer_ok {now : Nat} {t t' : Timer} (h : armTimer now t = .ok t') :
    isArmed t = false ∧ t' = .armed now := by
  cases t with
  | armed a => simp [armTimer] at h
  | disarmed => simp [armTimer] at h; exact ⟨rfl, h.symm⟩

theorem restartTimer_armed {now : Nat} {t : Timer} (h : isArmed t = true) :
    restartTimer now t = .ok (.armed now) := by
  cases t with
  | disarmed => simp at h
  | armed a => rfl

/-! ### The buffer -/

theorem bufRead_ok {x : Sender} {i : Nat} {d : Datagram} :
    bufRead x i = .ok d ↔ i < x.totalPackets.toNat ∧ x.buf.read i = some d := by
  unfold bufRead
  split
  · rename_i h
    cases hr : Memory.read x.buf i <;> simp [h]
  · rename_i h
    simp [h]

/-! ### Loops that transmit -/

/-- What a transmitting loop has done when it has sent `ds`. -/
theorem txS_emit (s : State) (d : Datagram) : s.txS d = { s with toRcv := s.toRcv.emit [d] } := rfl

theorem emit_self (s : State) : { s with toRcv := s.toRcv.emit [] } = s := by simp

/-- FILL_WINDOW's loop: if it answers, it sent the buffered packets from `next_seq` on, in order, and moved
`next_seq` past them; each was inside the window; and it stopped because the fuel or the window ended. -/
theorem fillLoop_ok {fuel : Nat} {s t : State} (h : fillLoop fuel s = .ok t) :
    ∃ ds : List Datagram,
      t = { s with toRcv := s.toRcv.emit ds
                   snd := { s.snd with nextSeq := s.snd.nextSeq + BitVec.ofNat 32 ds.length } } ∧
      ds.length ≤ fuel ∧
      (∀ j, j < ds.length → s.snd.buf.read (s.snd.nextSeq.toNat + j) = ds[j]?) ∧
      (ds ≠ [] → s.snd.nextSeq.toNat + ds.length ≤ s.snd.base.toNat + s.snd.cfg.windowSize ∧
        s.snd.nextSeq.toNat + ds.length ≤ s.snd.totalPackets.toNat) ∧
      (ds.length < fuel → windowOpen t.snd = false) := by
  induction fuel generalizing s with
  | zero =>
    simp only [fillLoop, Except.ok.injEq] at h
    subst h
    exact ⟨[], by simp, by simp, by simp, by simp, by simp⟩
  | succ fuel ih =>
    simp only [fillLoop] at h
    split at h
    · rename_i hw
      split at h
      · rename_i d hd
        have hr := bufRead_ok.mp hd
        simp only [windowOpen, Bool.and_eq_true, decide_eq_true_eq] at hw
        have hlt := s.snd.totalPackets.isLt
        have hn : (s.snd.nextSeq + 1).toNat = s.snd.nextSeq.toNat + 1 := by
          rw [BitVec.toNat_add]
          simp
          omega
        obtain ⟨ds, ht, hlen, hread, hbound, hend⟩ := ih h
        simp only [State.setNextSeq_snd_nextSeq, State.setNextSeq_snd_buf, State.txS_snd, hn,
          State.setNextSeq_snd_base, State.setNextSeq_snd_cfg, State.setNextSeq_snd_totalPackets] at hread hbound
        refine ⟨d :: ds, ?_, ?_, ?_, ?_, ?_⟩
        · rw [ht]
          have e : s.snd.nextSeq + 1 + BitVec.ofNat 32 ds.length = s.snd.nextSeq + BitVec.ofNat 32 (ds.length + 1) := by
            rw [Nat.add_comm, BitVec.ofNat_add, BitVec.add_assoc]
            rfl
          simp only [State.setNextSeq, State.txS, e, Lane.emit_emit, List.singleton_append, List.length_cons]
        · simpa using hlen
        · intro j hj
          cases j with
          | zero => simpa using hr.2
          | succ j =>
            have := hread j (by simpa using hj)
            rw [show s.snd.nextSeq.toNat + (j + 1) = s.snd.nextSeq.toNat + 1 + j by omega, this]
            simp
        · intro _
          by_cases hds : ds = []
          · subst hds
            simp
            omega
          · have := hbound hds
            simp
            omega
        · intro hj
          exact hend (by simpa using hj)
      · cases h
    · rename_i hw
      simp only [Except.ok.injEq] at h
      subst h
      exact ⟨[], by simp, by simp, by simp, by simp, fun _ => by simpa using hw⟩

/-- FILL_WINDOW's loop answers whenever the packets it would send are in the buffer. -/
theorem fillLoop_total {fuel : Nat} {s : State}
    (h : ∀ i, s.snd.nextSeq.toNat ≤ i → i < s.snd.totalPackets.toNat →
      i < s.snd.base.toNat + s.snd.cfg.windowSize → ∃ d, s.snd.buf.read i = some d) :
    ∃ t, fillLoop fuel s = .ok t := by
  induction fuel generalizing s with
  | zero => exact ⟨s, rfl⟩
  | succ fuel ih =>
    simp only [fillLoop]
    split
    · rename_i hw
      simp only [windowOpen, Bool.and_eq_true, decide_eq_true_eq] at hw
      obtain ⟨d, hd⟩ := h _ (le_refl _) hw.2 hw.1
      rw [bufRead_ok.mpr ⟨hw.2, hd⟩]
      apply ih
      have hlt := s.snd.totalPackets.isLt
      have hn : (s.snd.nextSeq + 1).toNat = s.snd.nextSeq.toNat + 1 := by
        rw [BitVec.toNat_add]
        simp
        omega
      intro i hi
      simp only [State.setNextSeq_snd_nextSeq, hn] at hi
      simp only [State.setNextSeq_snd_totalPackets, State.txS_snd, State.setNextSeq_snd_base,
        State.setNextSeq_snd_cfg, State.setNextSeq_snd_buf]
      exact h i (by omega)
    · exact ⟨s, rfl⟩

/-- ON_TIMEOUT's loop: it answers exactly when every packet of the range can be read, and has then sent them in order. -/
theorem txRange_ok {n i : Nat} {s t : State} (h : txRange n i s = .ok t) :
    ∃ ds : List Datagram, ds.length = n ∧ t = { s with toRcv := s.toRcv.emit ds } ∧
      ∀ j, j < n → i + j < s.snd.totalPackets.toNat ∧ s.snd.buf.read (i + j) = ds[j]? := by
  induction n generalizing i s with
  | zero =>
    simp only [txRange, Except.ok.injEq] at h
    subst h
    exact ⟨[], by simp, by simp, by simp⟩
  | succ n ih =>
    simp only [txRange] at h
    split at h
    · rename_i d hd
      have hr := bufRead_ok.mp hd
      obtain ⟨ds, hlen, ht, hread⟩ := ih h
      refine ⟨d :: ds, by simp [hlen], ?_, ?_⟩
      · rw [ht]
        simp [State.txS]
      · intro j hj
        cases j with
        | zero => simpa using hr
        | succ j =>
          have := hread j (by omega)
          rw [show i + (j + 1) = i + 1 + j by omega]
          simpa using this
    · cases h

theorem txRange_total {n i : Nat} {s : State} {ds : List Datagram} (hlen : ds.length = n)
    (h : ∀ j, j < n → i + j < s.snd.totalPackets.toNat ∧ s.snd.buf.read (i + j) = ds[j]?) :
    txRange n i s = .ok { s with toRcv := s.toRcv.emit ds } := by
  induction n generalizing i s ds with
  | zero =>
    have : ds = [] := List.length_eq_zero_iff.mp hlen
    subst this
    simp [txRange]
  | succ n ih =>
    cases ds with
    | nil => simp at hlen
    | cons d ds =>
      have h0 := h 0 (by omega)
      simp only [Nat.add_zero, List.getElem?_cons_zero] at h0
      simp only [txRange, bufRead_ok.mpr h0]
      rw [ih (ds := ds) (by simpa using hlen)]
      · simp [State.txS]
      · intro j hj
        have := h (j + 1) (by omega)
        rw [show i + 1 + j = i + (j + 1) by omega]
        simpa using this

/-- FINISH's loop. -/
theorem txRepeat_eq (n : Nat) (f : Datagram) (s : State) :
    txRepeat n f s = { s with toRcv := s.toRcv.emit (List.replicate n f) } := by
  induction n generalizing s with
  | zero => simp [txRepeat]
  | succ n ih =>
    simp only [txRepeat, ih]
    simp [State.txS, List.replicate_succ]

/-- Arming after a fill. -/
theorem armIfNeeded_eq (s : State) :
    armIfNeeded s = .ok (if isArmed s.snd.timer = false ∧ outstanding s.snd = true
      then s.setTimer (.armed s.now) else s) := by
  unfold armIfNeeded
  split
  · rename_i h
    cases ht : s.snd.timer with
    | disarmed => rfl
    | armed a => simp [ht] at h
  · rfl

/-! ### The checks on an inbound datagram -/

/-- A datagram that passes both checks has `PKT_LEN` bytes, decodes, and its checksum is right. -/
theorem checkInbound_ok {c : Config} {d : Datagram} {p : Packet} (h : checkInbound c d = .ok p) :
    d.length = pktLen c ∧ decodeRec d = some p ∧ cksum c p = p.ck := by
  unfold checkInbound at h
  split at h
  · rename_i hl
    split at h
    · rename_i hv
      cases hd : decodeRec d with
      | none => simp [hd] at h
      | some q =>
        simp only [hd, Except.ok.injEq] at h
        subst h
        simp only [validate, hd, decide_eq_true_eq] at hv
        exact ⟨hl, rfl, hv⟩
    · cases h
  · cases h

theorem checkInbound_accepts {c : Config} {d : Datagram} {p : Packet} (hl : d.length = pktLen c)
    (hd : decodeRec d = some p) (hv : cksum c p = p.ck) : checkInbound c d = .ok p := by
  simp [checkInbound, hl, validate, hd, hv]

/-- A record whose checksum is its own is accepted whole. -/
theorem checkInbound_image {c : Config} {p : Packet} (hl : p.payload.length = c.payloadCapacity) :
    checkInbound c (encodeRec { p with ck := cksum c p }) = .ok { p with ck := cksum c p } :=
  checkInbound_accepts (by simp [pktLen, hl]) (decodeRec_encodeRec _) rfl

/-- The payload of an accepted record has `PAYLOAD_CAPACITY` bytes. -/
theorem checkInbound_payload {c : Config} {d : Datagram} {p : Packet} (h : checkInbound c d = .ok p) :
    p.payload.length = c.payloadCapacity := by
  obtain ⟨hl, hd, -⟩ := checkInbound_ok h
  have := (encodeRec_of_decodeRec (by simp [hl, pktLen]) hd).2
  rw [hl, pktLen] at this
  omega

theorem checkInbound_badLen {c : Config} {d : Datagram} (hl : d.length ≠ pktLen c) :
    checkInbound c d = .error .badLen := by
  simp [checkInbound, hl]

theorem checkInbound_badSum {c : Config} {d : Datagram} (hl : d.length = pktLen c) (hv : validate c d = false) :
    checkInbound c d = .error .badSum := by
  simp [checkInbound, hl, hv]

/-! ### The reactions -/

/-- ON_ACK: it moves `base` and the timer, or records that the acknowledgment did not qualify. -/
theorem ackAct_next {ack : U32} {s t : State} (h : ackAct ack s = .next t) :
    (qualifies s.snd ack = true ∧
      t = (s.setBase (ack + 1)).setTimer (if ack + 1 = s.snd.nextSeq then .disarmed else .armed s.now)) ∨
    (qualifies s.snd ack = false ∧ ∃ a, t = s.note a) := by
  unfold ackAct at h
  split at h
  · rename_i hq
    refine .inl ⟨hq, ?_⟩
    split at h
    · rename_i he
      simp only [Host.Outcome.next.injEq] at h
      rw [← h, if_pos (show ack + 1 = s.snd.nextSeq from he)]
      rfl
    · rename_i he
      obtain ⟨t', ht, hk⟩ := andThen_next h
      simp only [Host.Outcome.next.injEq] at hk
      rw [← hk, (restartTimer_ok ht).2, if_neg (show ¬ ack + 1 = s.snd.nextSeq from he)]
      rfl
  · rename_i hq
    refine .inr ⟨by simpa using hq, ?_⟩
    split at h <;> (simp only [Host.Outcome.next.injEq] at h; exact ⟨_, h.symm⟩)

/-- The sender's reception step: a change of phase and the label of a drop, or ON_ACK; outside S_WAIT nothing but the
datagram left in the channel. -/
theorem senderReceive_next {d : Datagram} {s t : State} (h : senderReceive d s = .next t) :
    configLegal s.snd.cfg = true ∧
    ((s.snd.phase ≠ .wait ∧ t = s.leaveInChannel .sender d) ∨
     (s.snd.phase = .wait ∧ ∃ a, t = (s.setPhaseS .fill).note a) ∨
     (s.snd.phase = .wait ∧ ∃ p, checkInbound s.snd.cfg d = .ok p ∧ p.flags = Kind.ack.flags ∧
        ackAct p.ack (s.setPhaseS .fill) = .next t)) := by
  unfold senderReceive at h
  split at h
  · rename_i hc
    refine ⟨hc, ?_⟩
    split at h
    · rename_i hp
      split at h
      · simp only [Host.Outcome.next.injEq] at h
        exact .inr (.inl ⟨hp, _, h.symm⟩)
      · rename_i p hi
        split at h
        · rename_i hf
          exact .inr (.inr ⟨hp, p, hi, hf, h⟩)
        · simp only [Host.Outcome.next.injEq] at h
          exact .inr (.inl ⟨hp, _, h.symm⟩)
    · rename_i hp
      simp only [Host.Outcome.next.injEq] at h
      exact .inl ⟨hp, h.symm⟩
  · cases h

/-- The receiver's reception step. -/
theorem receiverReceive_next {d : Datagram} {s t : State} (h : receiverReceive d s = .next t) :
    configLegal s.rcv.cfg = true ∧
    ((s.rcv.phase ≠ .wait ∧ t = s.leaveInChannel .receiver d) ∨
     (s.rcv.phase = .wait ∧ ∃ a, t = s.note a) ∨
     (s.rcv.phase = .wait ∧ ∃ p, checkInbound s.rcv.cfg d = .ok p ∧ p.flags = Kind.data.flags ∧
        t = packetAct p.seq p.payload s) ∨
     (s.rcv.phase = .wait ∧ ∃ p, checkInbound s.rcv.cfg d = .ok p ∧ p.flags = Kind.fin.flags ∧ t = finAct s)) := by
  unfold receiverReceive at h
  split at h
  · rename_i hc
    refine ⟨hc, ?_⟩
    split at h
    · rename_i hp
      split at h
      · simp only [Host.Outcome.next.injEq] at h
        exact .inr (.inl ⟨hp, _, h.symm⟩)
      · rename_i p hi
        split at h
        · rename_i hf
          simp only [Host.Outcome.next.injEq] at h
          exact .inr (.inr (.inl ⟨hp, p, hi, hf, h.symm⟩))
        · split at h
          · rename_i hf
            simp only [Host.Outcome.next.injEq] at h
            exact .inr (.inr (.inr ⟨hp, p, hi, hf, h.symm⟩))
          · simp only [Host.Outcome.next.injEq] at h
            exact .inr (.inl ⟨hp, _, h.symm⟩)
    · rename_i hp
      simp only [Host.Outcome.next.injEq] at h
      exact .inl ⟨hp, h.symm⟩
  · cases h

/-- ON_PACKET: in order, or a re-acknowledgment (or none) and a label. -/
theorem packetAct_cases (seq : U32) (payload : Chunk) (s : State) :
    (seq = s.rcv.expectedSeq ∧
      packetAct seq payload s =
        ((s.sinkAppend payload).setExpectedSeq (seq + 1)).txR (ackPacket s.rcv.cfg seq)) ∨
    (seq ≠ s.rcv.expectedSeq ∧ ∃ ds a,
      packetAct seq payload s = { s with toSnd := s.toSnd.emit ds, anomalies := s.anomalies ++ [a] } ∧
      (ds = [] ∨ (s.rcv.expectedSeq ≠ 0 ∧ ds = [ackPacket s.rcv.cfg (s.rcv.expectedSeq - 1)]) ∨
        (s.rcv.expectedSeq = 0 ∧ ds = [ackPacket s.rcv.cfg 0xFFFFFFFF]))) := by
  unfold packetAct
  split
  · rename_i h
    refine .inl ⟨h, ?_⟩
    subst h
    simp
  · rename_i h
    refine .inr ⟨h, ?_⟩
    unfold reack
    split
    · rename_i h0
      split
      · exact ⟨[], unexpectedLabel seq s.rcv.expectedSeq, by simp [State.note], .inl rfl⟩
      · exact ⟨_, _, rfl, .inr (.inr ⟨h0, rfl⟩)⟩
    · rename_i h0
      exact ⟨_, _, rfl, .inr (.inl ⟨h0, rfl⟩)⟩

/-! ### The codec operations -/

theorem withRecord_next {side : Side} {payload : Chunk} {s t : State} {k : Out}
    (h : withRecord side payload s k = .next t) :
    payload.length = (cfgOf side s).payloadCapacity ∧ k = .next t := by
  unfold withRecord at h
  split at h
  · exact ⟨‹_›, h⟩
  · cases h

theorem withDatagram_next {side : Side} {d : Datagram} {s t : State} {k : Packet → Out}
    (h : withDatagram side d s k = .next t) :
    d.length = pktLen (cfgOf side s) ∧ ∃ p, decodeRec d = some p ∧ k p = .next t := by
  unfold withDatagram at h
  split at h
  · rename_i hl
    split at h
    · rename_i p hp
      exact ⟨hl, p, hp, h⟩
    · cases h
  · cases h

end Sys2Proof.Machine
end

