-- ==== Sys2Proof/Laws/Exec.lean ====
section
/-!
SUPPORT. What each operation can do, once per operation: if it answers a next state, then that state is the one named here. The
invariants are derived from these and do not unfold a meaning.
-/

namespace Sys2Proof.Machine

/-! ### Codec -/

/-- A codec operation hands back a value and changes nothing else. -/
theorem exec_codec_next {i : Instr} {s t : State} (ho : ownerOf i = none) (h : exec i s = .next t) :
    ∃ r, t = s.giveBack r := by
  cases i <;> simp only [ownerOf, reduceCtorEq] at ho
  case encode side p =>
    obtain ⟨-, -, h⟩ := runIn_next (show execEncode side p s = .next t from h)
    obtain ⟨-, h⟩ := withRecord_next h
    cases h
    exact ⟨_, rfl⟩
  case decode side d =>
    obtain ⟨-, -, h⟩ := runIn_next (show execDecode side d s = .next t from h)
    obtain ⟨-, p, -, h⟩ := withDatagram_next h
    cases h
    exact ⟨_, rfl⟩
  case cksum side p =>
    obtain ⟨-, -, h⟩ := runIn_next (show execCksum side p s = .next t from h)
    obtain ⟨-, h⟩ := withRecord_next h
    cases h
    exact ⟨_, rfl⟩
  case validate side d =>
    obtain ⟨-, -, h⟩ := runIn_next (show execValidate side d s = .next t from h)
    obtain ⟨-, p, -, h⟩ := withDatagram_next h
    cases h
    exact ⟨_, rfl⟩
  case frame side seq ack kind payload =>
    obtain ⟨-, -, h⟩ := runIn_next (show execFrame side seq ack kind payload s = .next t from h)
    obtain ⟨-, h⟩ := withRecord_next h
    cases h
    exact ⟨_, rfl⟩

/-! ### Timer primitives -/

/-- A timer primitive writes the timer and nothing else, and only while a transfer waits or reacts; it leaves the timer armed exactly
when something is outstanding. -/
theorem exec_timer_next {i : Instr} {s t : State} (hi : isTimerPrimitive i = true) (h : exec i s = .next t) :
    (s.snd.phase = .wait ∨ s.snd.phase = .fill) ∧
    ((i = .arm ∧ s.snd.phase = .fill ∧ isArmed s.snd.timer = false ∧ outstanding s.snd = true ∧
        t = s.setTimer (.armed s.now)) ∨
     (i = .disarm ∧ s.snd.base = s.snd.nextSeq ∧ t = s.setTimer .disarmed) ∨
     (i = .restart ∧ isArmed s.snd.timer = true ∧ outstanding s.snd = true ∧ t = s.setTimer (.armed s.now))) := by
  cases i <;> simp only [isTimerPrimitive, reduceCtorEq] at hi
  case arm =>
    obtain ⟨-, hp, h⟩ := runIn_next (show execArm s = .next t from h)
    simp only [Bool.and_eq_true, decide_eq_true_eq] at hp
    obtain ⟨t', ht, h⟩ := andThen_next h
    cases h
    obtain ⟨ha, rfl⟩ := armTimer_ok ht
    exact ⟨.inr hp.1, .inl ⟨rfl, hp.1, ha, hp.2, rfl⟩⟩
  case disarm =>
    obtain ⟨-, hp, h⟩ := runIn_next (show execDisarm s = .next t from h)
    simp only [Bool.and_eq_true, decide_eq_true_eq] at hp
    cases h
    exact ⟨(reacting_iff _).mp hp.1, .inr (.inl ⟨rfl, hp.2, rfl⟩)⟩
  case restart =>
    obtain ⟨-, hp, h⟩ := runIn_next (show execRestart s = .next t from h)
    simp only [Bool.and_eq_true] at hp
    obtain ⟨t', ht, h⟩ := andThen_next h
    cases h
    obtain ⟨ha, rfl⟩ := restartTimer_ok ht
    exact ⟨(reacting_iff _).mp hp.1, .inr (.inr ⟨rfl, ha, hp.2, rfl⟩)⟩

/-! ### Sender -/

theorem execSStart_next {n : Nat} {chunks : List Chunk} {s t : State} (h : execSStart n chunks s = .next t) :
    configLegal s.snd.cfg = true ∧ s.snd.phase = .idle ∧ n < 2 ^ 32 ∧ chunks.length = n ∧
    (∀ k ∈ chunks, k.length = s.snd.cfg.payloadCapacity) ∧
    t = s.setSnd { s.snd with
      totalPackets := BitVec.ofNat 32 n, buf := writeFrames s.snd.cfg 0 chunks s.snd.buf
      base := 0, nextSeq := 0, timer := .disarmed, phase := .fill } := by
  obtain ⟨hc, hp, h⟩ := runIn_next h
  split at h
  · rename_i hn
    split at h
    · rename_i hf
      simp only [chunksFit, Bool.and_eq_true, decide_eq_true_eq, List.all_eq_true] at hf
      cases h
      exact ⟨hc, by simpa using hp, hn, hf.1, hf.2, rfl⟩
    · cases h
  · cases h

/-- FILL_WINDOW sends the buffered packets `ds` from `next_seq` on, moves `next_seq` past them, arms a disarmed timer when
something is then outstanding, and waits. -/
theorem execFillWindow_next {s t : State} (h : execFillWindow s = .next t) :
    configLegal s.snd.cfg = true ∧ s.snd.phase = .fill ∧ s.snd.base.toNat < s.snd.totalPackets.toNat ∧
    ∃ ds : List Datagram,
      (∀ j, j < ds.length → s.snd.buf.read (s.snd.nextSeq.toNat + j) = ds[j]?) ∧
      (ds ≠ [] → s.snd.nextSeq.toNat + ds.length ≤ s.snd.base.toNat + s.snd.cfg.windowSize ∧
        s.snd.nextSeq.toNat + ds.length ≤ s.snd.totalPackets.toNat) ∧
      ds.length = min (s.snd.base.toNat + s.snd.cfg.windowSize) s.snd.totalPackets.toNat - s.snd.nextSeq.toNat ∧
      t = { s with
        toRcv := s.toRcv.emit ds
        snd := { s.snd with
          nextSeq := s.snd.nextSeq + BitVec.ofNat 32 ds.length
          timer := if isArmed s.snd.timer = false ∧
              s.snd.base.toNat < (s.snd.nextSeq + BitVec.ofNat 32 ds.length).toNat then .armed s.now
            else s.snd.timer
          phase := .wait } } := by
  obtain ⟨hc, hp, h⟩ := runIn_next h
  simp only [Bool.and_eq_true, decide_eq_true_eq] at hp
  obtain ⟨u, hu, h⟩ := andThen_next h
  obtain ⟨ds, hue, hlen, hread, hbound, hend⟩ := fillLoop_ok hu
  rw [armIfNeeded_eq] at h
  simp only [andThen_ok, Host.Outcome.next.injEq] at h
  refine ⟨hc, hp.1, hp.2, ds, hread, hbound, ?_, ?_⟩
  · by_cases hds : ds = []
    · subst hds
      by_cases hz : s.snd.totalPackets.toNat - s.snd.nextSeq.toNat = 0
      · simp; omega
      · have hw := hend (by simp; omega)
        rw [hue] at hw
        simp [windowOpen] at hw
        simp
        omega
    · have hb := hbound hds
      have hlt := s.snd.totalPackets.isLt
      by_cases hz : ds.length < s.snd.totalPackets.toNat - s.snd.nextSeq.toNat
      · have hw := hend hz
        rw [hue] at hw
        have hn : (s.snd.nextSeq + BitVec.ofNat 32 ds.length).toNat = s.snd.nextSeq.toNat + ds.length := by
          rw [BitVec.toNat_add, BitVec.toNat_ofNat]
          omega
        simp [windowOpen, hn] at hw
        omega
      · omega
  · rw [← h, hue]
    by_cases hcond : isArmed s.snd.timer = false ∧
        s.snd.base.toNat < (s.snd.nextSeq + BitVec.ofNat 32 ds.length).toNat
    · rw [if_pos (by simpa [outstanding] using hcond), if_pos hcond]
      rfl
    · rw [if_neg (by simpa [outstanding] using hcond), if_neg hcond]
      rfl

theorem execOnAck_next {ack : U32} {s t : State} (h : execOnAck ack s = .next t) :
    (s.snd.phase = .wait ∨ s.snd.phase = .fill) ∧ ackAct ack s = .next t := by
  obtain ⟨-, hp, h⟩ := runIn_next h
  exact ⟨(reacting_iff _).mp hp, h⟩

/-- ON_TIMEOUT sends the buffered packets `ds` of `[base, next_seq)` again and restarts the timer. -/
theorem execOnTimeout_next {s t : State} (h : execOnTimeout s = .next t) :
    configLegal s.snd.cfg = true ∧ s.snd.phase = .wait ∧ expired s.snd s.now = true ∧
    ∃ ds : List Datagram,
      ds.length = s.snd.nextSeq.toNat - s.snd.base.toNat ∧
      (∀ j, j < ds.length → s.snd.base.toNat + j < s.snd.totalPackets.toNat ∧
        s.snd.buf.read (s.snd.base.toNat + j) = ds[j]?) ∧
      t = { s with
        toRcv := s.toRcv.emit ds
        snd := { s.snd with timer := .armed s.now, phase := .fill }
        anomalies := s.anomalies ++ [.loss] } := by
  obtain ⟨hc, hp, h⟩ := runIn_next h
  simp only [Bool.and_eq_true, decide_eq_true_eq] at hp
  obtain ⟨u, hu, h⟩ := andThen_next h
  obtain ⟨ds, hlen, rfl, hread⟩ := txRange_ok hu
  obtain ⟨t', ht, h⟩ := andThen_next h
  obtain ⟨-, rfl⟩ := restartTimer_ok ht
  cases h
  exact ⟨hc, hp.1, hp.2, ds, hlen, by rw [hlen]; exact hread, rfl⟩

theorem execFinish_next {s t : State} (h : execFinish s = .next t) :
    configLegal s.snd.cfg = true ∧ s.snd.phase = .fin ∧
    t = { s with
      toRcv := s.toRcv.emit (List.replicate s.snd.cfg.finRepeat (finPacket s.snd.cfg))
      snd := { s.snd with phase := .done } } := by
  obtain ⟨hc, hp, h⟩ := runIn_next h
  rw [txRepeat_eq] at h
  cases h
  exact ⟨hc, by simpa using hp, rfl⟩

/-! ### Receiver -/

theorem execRStart_next {s t : State} (h : execRStart s = .next t) :
    s.rcv.phase = .idle ∧ t = (s.setExpectedSeq 0).setPhaseR .wait := by
  obtain ⟨-, hp, h⟩ := runIn_next h
  cases h
  exact ⟨by simpa using hp, rfl⟩

theorem execOnPacket_next {seq : U32} {payload : Chunk} {s t : State}
    (h : execOnPacket seq payload s = .next t) :
    s.rcv.phase = .wait ∧ payload.length = s.rcv.cfg.payloadCapacity ∧ t = packetAct seq payload s := by
  obtain ⟨-, hp, h⟩ := runIn_next h
  split at h
  · cases h
    exact ⟨by simpa using hp, ‹_›, rfl⟩
  · cases h

theorem execOnFin_next {s t : State} (h : execOnFin s = .next t) :
    s.rcv.phase = .wait ∧ t = finAct s := by
  obtain ⟨-, hp, h⟩ := runIn_next h
  cases h
  exact ⟨by simpa using hp, rfl⟩

/-! ### Any operation -/

/-- Every operation that answers: a codec value, a timer primitive, one of the sender's or the receiver's operations, or
the reception of a datagram at a side. -/
theorem exec_next_cases {i : Instr} {s t : State} (h : exec i s = .next t) :
    (ownerOf i = none ∧ ∃ r, t = s.giveBack r) ∨ (isTimerPrimitive i = true ∧ exec i s = .next t) ∨
    (∃ n cs, i = .sStart n cs ∧ execSStart n cs s = .next t) ∨ (i = .fillWindow ∧ execFillWindow s = .next t) ∨
    (∃ a, i = .onAck a ∧ execOnAck a s = .next t) ∨ (i = .onTimeout ∧ execOnTimeout s = .next t) ∨
    (i = .finish ∧ execFinish s = .next t) ∨ (i = .rStart ∧ execRStart s = .next t) ∨
    (∃ q p, i = .onPacket q p ∧ execOnPacket q p s = .next t) ∨ (i = .onFin ∧ execOnFin s = .next t) ∨
    (∃ d, ownerOf i = some .sender ∧ senderReceive d s = .next t) ∨
    (∃ d, ownerOf i = some .receiver ∧ receiverReceive d s = .next t) := by
  cases i with
  | encode side p => exact .inl ⟨rfl, exec_codec_next (i := .encode side p) rfl h⟩
  | decode side d => exact .inl ⟨rfl, exec_codec_next (i := .decode side d) rfl h⟩
  | cksum side p => exact .inl ⟨rfl, exec_codec_next (i := .cksum side p) rfl h⟩
  | validate side d => exact .inl ⟨rfl, exec_codec_next (i := .validate side d) rfl h⟩
  | frame side a b c d => exact .inl ⟨rfl, exec_codec_next (i := .frame side a b c d) rfl h⟩
  | arm => exact .inr (.inl ⟨rfl, h⟩)
  | disarm => exact .inr (.inl ⟨rfl, h⟩)
  | restart => exact .inr (.inl ⟨rfl, h⟩)
  | sStart n cs => exact .inr (.inr (.inl ⟨n, cs, rfl, h⟩))
  | fillWindow => exact .inr (.inr (.inr (.inl ⟨rfl, h⟩)))
  | onAck a => exact .inr (.inr (.inr (.inr (.inl ⟨a, rfl, h⟩))))
  | onTimeout => exact .inr (.inr (.inr (.inr (.inr (.inl ⟨rfl, h⟩)))))
  | finish => exact .inr (.inr (.inr (.inr (.inr (.inr (.inl ⟨rfl, h⟩))))))
  | rStart => exact .inr (.inr (.inr (.inr (.inr (.inr (.inr (.inl ⟨rfl, h⟩)))))))
  | onPacket q p => exact .inr (.inr (.inr (.inr (.inr (.inr (.inr (.inr (.inl ⟨q, p, rfl, h⟩))))))))
  | onFin => exact .inr (.inr (.inr (.inr (.inr (.inr (.inr (.inr (.inr (.inl ⟨rfl, h⟩)))))))))
  | sRx d => exact .inr (.inr (.inr (.inr (.inr (.inr (.inr (.inr (.inr (.inr (.inl ⟨d, rfl, h⟩))))))))))
  | rRx d => exact .inr (.inr (.inr (.inr (.inr (.inr (.inr (.inr (.inr (.inr (.inr ⟨d, rfl, h⟩))))))))))
  | data side a b c d =>
    cases side
    · exact .inr (.inr (.inr (.inr (.inr (.inr (.inr (.inr (.inr (.inr (.inl ⟨_, rfl, h⟩))))))))))
    · exact .inr (.inr (.inr (.inr (.inr (.inr (.inr (.inr (.inr (.inr (.inr ⟨_, rfl, h⟩))))))))))
  | ack side a b c d =>
    cases side
    · exact .inr (.inr (.inr (.inr (.inr (.inr (.inr (.inr (.inr (.inr (.inl ⟨_, rfl, h⟩))))))))))
    · exact .inr (.inr (.inr (.inr (.inr (.inr (.inr (.inr (.inr (.inr (.inr ⟨_, rfl, h⟩))))))))))
  | fin side a b c d =>
    cases side
    · exact .inr (.inr (.inr (.inr (.inr (.inr (.inr (.inr (.inr (.inr (.inl ⟨_, rfl, h⟩))))))))))
    · exact .inr (.inr (.inr (.inr (.inr (.inr (.inr (.inr (.inr (.inr (.inr ⟨_, rfl, h⟩))))))))))
  | badflagDrop side a b c d e =>
    cases side
    · exact .inr (.inr (.inr (.inr (.inr (.inr (.inr (.inr (.inr (.inr (.inl ⟨_, rfl, h⟩))))))))))
    · exact .inr (.inr (.inr (.inr (.inr (.inr (.inr (.inr (.inr (.inr (.inr ⟨_, rfl, h⟩))))))))))

/-! ### Steps -/

/-- A step that answers either ran a decoded operation or was a move that is no operation. -/
theorem step_next_cases {s t : State} (h : step s = .next t) :
    (∃ f u i, select s = .run f u ∧ decode f = .ok i ∧ exec i u = .next t) ∨ select s = .move t := by
  unfold step at h
  split at h
  · rename_i f u hs
    split at h
    · rename_i i hd
      exact .inl ⟨f, u, i, hs, hd, h⟩
    · cases h
  · rename_i u hs
    cases h
    exact .inr hs
  · cases h

/-- A run of one step more answers exactly when the first step does and the run from there does. -/
theorem run_succ_next {M : Host.Core} {n : Nat} {s t : M.State} :
    M.run (n + 1) s = .next t ↔ ∃ u, M.step s = .next u ∧ M.run n u = .next t := by
  rw [Host.Core.run]
  cases M.step s <;> simp

end Sys2Proof.Machine
end

