-- ==== Sys2Proof/Laws/PerInstr.lean ====
section
/-!
SUPPORT. The family `RowCode`, for every operation: its presentation carries the number that spec/opcode_table.json gives its row, an
event code (R92) or the low 16 bits of the header (R84).
-/

namespace Sys2Proof.Laws.RowCode

open Sys2Proof.Machine

/-- The value of the row's fixed bits; of the illegal-flags row, the value of `flags` itself (R87). -/
def rowNumber : Instr → Nat
  | .data _ _ _ _ _ => 0x0000
  | .ack _ _ _ _ _ => 0x0001
  | .fin _ _ _ _ _ => 0x0002
  | .badflagDrop _ _ _ _ flags _ => flags.toNat
  | .encode _ _ => 0x00
  | .decode _ _ => 0x01
  | .cksum _ _ => 0x02
  | .validate _ _ => 0x03
  | .frame _ _ _ _ _ => 0x04
  | .sStart _ _ => 0x10
  | .fillWindow => 0x11
  | .sRx _ => 0x12
  | .onAck _ => 0x13
  | .onTimeout => 0x14
  | .finish => 0x15
  | .rStart => 0x20
  | .rRx _ => 0x21
  | .onPacket _ _ => 0x22
  | .onFin => 0x23
  | .arm => 0x30
  | .disarm => 0x31
  | .restart => 0x32

/-- The presentation of a well-formed operation carries its row's number. -/
def Statement (i : Instr) : Prop :=
  i.wf = true →
    match encode i with
    | .event code _ => code.toNat = rowNumber i
    | .packet _ d => headerNumber (d.take 12) % 2 ^ 16 = rowNumber i

/-- The low 16 bits of a header are its last two bytes (R84). -/
theorem low_bits (h : List Byte) (v : U16) : headerNumber (h ++ bytesBe16 v) % 2 ^ 16 = v.toNat := by
  have hv : v.toNat = (v.extractLsb' 8 8).toNat * 256 + (v.extractLsb' 0 8).toNat := by
    have := v.isLt
    simp only [BitVec.extractLsb'_toNat, Nat.shiftRight_eq_div_pow]
    omega
  have := v.isLt
  simp only [headerNumber, bytesBe16, List.foldl_append, List.foldl_cons, List.foldl_nil]
  omega

/-- The header of an image, as far as the flags field. -/
theorem take_image (p : Packet) : (encodeRec p).take 12 =
    (bytesBe32 p.seq ++ (bytesBe32 p.ack ++ bytesBe16 p.ck)) ++ bytesBe16 p.flags := rfl

theorem packet_row (p : Packet) : headerNumber ((encodeRec p).take 12) % 2 ^ 16 = p.flags.toNat := by
  rw [take_image, low_bits]

theorem data (side : Side) (seq ack : U32) (ck : U16) (payload : Chunk) :
    Statement (.data side seq ack ck payload) := fun _ => packet_row _
theorem ack (side : Side) (seq ack : U32) (ck : U16) (payload : Chunk) :
    Statement (.ack side seq ack ck payload) := fun _ => packet_row _
theorem fin (side : Side) (seq ack : U32) (ck : U16) (payload : Chunk) :
    Statement (.fin side seq ack ck payload) := fun _ => packet_row _
theorem badflagDrop (side : Side) (seq ack : U32) (ck flags : U16) (payload : Chunk) :
    Statement (.badflagDrop side seq ack ck flags payload) := fun _ => packet_row _
theorem encode (side : Side) (p : Packet) : Statement (.encode side p) := fun _ => rfl
theorem decode (side : Side) (d : Datagram) : Statement (.decode side d) := fun _ => rfl
theorem cksum (side : Side) (p : Packet) : Statement (.cksum side p) := fun _ => rfl
theorem validate (side : Side) (d : Datagram) : Statement (.validate side d) := fun _ => rfl
theorem frame (side : Side) (seq ack : U32) (kind : Kind) (payload : Chunk) :
    Statement (.frame side seq ack kind payload) := fun _ => rfl
theorem sStart (n : Nat) (chunks : List Chunk) : Statement (.sStart n chunks) := fun _ => rfl
theorem fillWindow : Statement .fillWindow := fun _ => rfl
theorem sRx (d : Datagram) : Statement (.sRx d) := fun _ => rfl
theorem onAck (ack : U32) : Statement (.onAck ack) := fun _ => rfl
theorem onTimeout : Statement .onTimeout := fun _ => rfl
theorem finish : Statement .finish := fun _ => rfl
theorem rStart : Statement .rStart := fun _ => rfl
theorem rRx (d : Datagram) : Statement (.rRx d) := fun _ => rfl
theorem onPacket (seq : U32) (payload : Chunk) : Statement (.onPacket seq payload) := fun _ => rfl
theorem onFin : Statement .onFin := fun _ => rfl
theorem arm : Statement .arm := fun _ => rfl
theorem disarm : Statement .disarm := fun _ => rfl
theorem restart : Statement .restart := fun _ => rfl

end Sys2Proof.Laws.RowCode
end

