-- ==== Sys2Proof/Laws/Select.lean ====
section
/-!
SUPPORT. What a turn can select and what it leaves of the state, said once: the invariants over steps cite these and do not unfold a
control loop.
-/

namespace Sys2Proof.Machine

theorem select_cons {s : State} {t : Turn} {ts : List Turn} (h : s.schedule = t :: ts) :
    select s = takeTurn t { s with schedule := ts } := by
  simp [select, h]

/-- An operation runs in a state whose registers, sink and time are those before the turn: taking a turn moves only the schedule and
the datagram it hands over. -/
theorem select_run {s u : State} {f : Fetched} (h : select s = .run f u) :
    u.snd = s.snd ∧ u.rcv = s.rcv ∧ u.sink = s.sink ∧ u.now = s.now := by
  unfold select at h
  split at h
  · cases h
  · rename_i t ts hs
    cases t <;>
      simp only [takeTurn, senderTurn, receiverTurn, resetSenderTurn, resetReceiverTurn, clockTurn] at h <;>
      (repeat' split at h) <;> try cases h
    all_goals exact ⟨rfl, rfl, rfl, rfl⟩

/-- A move leaves the sender as it was, takes it from S_FILL to S_FIN at the end of the window, or creates it anew; it leaves the
receiver and the sink as they were, or creates them anew. -/
theorem select_move {s u : State} (h : select s = .move u) :
    (u.snd = s.snd ∨
      (s.snd.phase = .fill ∧ allAcked s.snd = true ∧ u.snd = { s.snd with phase := .fin }) ∨
      (∃ cfg ts, s.schedule = .resetSender cfg :: ts ∧ configLegal cfg = true ∧ u.snd = Sender.created cfg)) ∧
    ((u.rcv = s.rcv ∧ u.sink = s.sink) ∨
      (∃ cfg ts, s.schedule = .resetReceiver cfg :: ts ∧ u.rcv = Receiver.created cfg ∧ u.sink = [])) := by
  unfold select at h
  split at h
  · cases h
    exact ⟨.inl rfl, .inl ⟨rfl, rfl⟩⟩
  · rename_i t ts hs
    cases t <;>
      simp only [takeTurn, senderTurn, receiverTurn, resetSenderTurn, resetReceiverTurn, clockTurn, channelTurn] at h <;>
      (repeat' split at h) <;> try cases h
    all_goals first
      | exact ⟨.inl rfl, .inl ⟨rfl, rfl⟩⟩
      | (rename_i h1 h2 h3; exact ⟨.inr (.inl ⟨h2, h3, rfl⟩), .inl ⟨rfl, rfl⟩⟩)
      | (rename_i h1; exact ⟨.inr (.inr ⟨_, ts, hs, h1, rfl⟩), .inl ⟨rfl, rfl⟩⟩)
      | (exact ⟨.inl rfl, .inr ⟨_, ts, hs, rfl, rfl⟩⟩)

/-- Whatever a turn selects, it has been taken from the schedule and nothing else has. -/
theorem select_run_schedule {s u : State} {f : Fetched} (h : select s = .run f u) : u.schedule = s.schedule.tail := by
  unfold select at h
  split at h
  · cases h
  · rename_i t ts hs
    rw [hs]
    cases t <;>
      simp only [takeTurn, senderTurn, receiverTurn, resetSenderTurn, resetReceiverTurn, clockTurn] at h <;>
      (repeat' split at h) <;> cases h <;> rfl

theorem select_move_schedule {s u : State} (h : select s = .move u) : u.schedule = s.schedule.tail := by
  unfold select at h
  split at h
  · rename_i hs
    cases h
    rw [hs]
    rfl
  · rename_i t ts hs
    rw [hs]
    cases t <;>
      simp only [takeTurn, senderTurn, receiverTurn, resetSenderTurn, resetReceiverTurn, clockTurn, channelTurn] at h <;>
      (repeat' split at h) <;> cases h <;> rfl

/-- The channel invents nothing: after one of R60's acts a lane holds only what it held. -/
theorem inLane_act {l : Lane} {dest : Side} {a : ChannelAct} {d : Datagram} (ha : honest (.channel dest a) = true)
    (h : inLane (l.act a) d) : inLane l d := by
  simp only [inLane] at *
  cases a with
  | arrive k =>
    simp only [Lane.act] at h
    split at h
    · rename_i e he
      rcases h with h | h
      · exact .inl (List.mem_of_mem_eraseIdx h)
      · rcases List.mem_append.mp h with h | h
        · exact .inr h
        · exact .inl (List.mem_singleton.mp h ▸ List.mem_of_getElem? he)
    · exact h
  | drop p =>
    cases p with
    | flying k => exact h.imp_left List.mem_of_mem_eraseIdx
    | waiting k => exact h.imp_right List.mem_of_mem_eraseIdx
  | dup p =>
    simp only [Lane.act] at h
    split at h
    · rename_i e he
      rcases h with h | h
      · rcases List.mem_append.mp h with h | h
        · exact .inl h
        · rw [List.mem_singleton.mp h]
          cases p with
          | flying k => exact .inl (List.mem_of_getElem? he)
          | waiting k => exact .inr (List.mem_of_getElem? he)
      · exact .inr h
    · exact h
  | delay p =>
    cases p with
    | flying k => exact h
    | waiting k =>
      simp only [Lane.act] at h
      split at h
      · rename_i e he
        rcases h with h | h
        · rcases List.mem_append.mp h with h | h
          · exact .inl h
          · exact .inr (List.mem_singleton.mp h ▸ List.mem_of_getElem? he)
        · exact .inr (List.mem_of_mem_eraseIdx h)
      · exact h
  | flip p i m => cases ha
  | inject e => cases ha

end Sys2Proof.Machine
end

