-- ==== Sys2Proof/Tests/Slice0.lean ====
section
/-!
SUPPORT. Checks of the model: ill-formed terms refused, words written out from the spec's encodings decoded, one step per operation against
the vectors of spec/95_test_vectors.md (named in each comment), and a witness for the hypotheses of every statement.
-/

namespace Sys2Proof.Tests

open Sys2Proof.Machine

/-! ## Helpers -/

/-- The configuration of the vectors: `WINDOW_SIZE = 3`, `PAYLOAD_CAPACITY = 4`, `TIMEOUT_MS = 100`, `FIN_REPEAT = 3`. -/
def cfg4 : Config :=
  { windowSize := 3, payloadCapacity := 4, timeoutMs := 100, finRepeat := 3, ckAlgo := .xor16be, reack0 := .suppress,
    arbitration := .packetFirst }

/-! Datagrams, byte for byte from the tables of 95_test_vectors.md. -/

def k3 : Datagram := [0, 0, 0, 0, 0, 0, 0, 0, 0x02, 0x06, 0, 0, 0x41, 0x42, 0x43, 0x44]
def k4 : Datagram := [0, 0, 0, 1, 0, 0, 0, 0, 0x02, 0x0F, 0, 0, 0x45, 0x46, 0x47, 0x48]
def k5 : Datagram := [0, 0, 0, 2, 0, 0, 0, 0, 0x02, 0x04, 0, 0, 0x49, 0x4A, 0x4B, 0x4C]
def k6 : Datagram := [0, 0, 0, 3, 0, 0, 0, 0, 0x02, 0x1D, 0, 0, 0x4D, 0x4E, 0x4F, 0x50]
def k7 : Datagram := [0, 0, 0, 0, 0, 0, 0, 0, 0, 0x01, 0, 0x01, 0, 0, 0, 0]
def k8 : Datagram := [0, 0, 0, 0, 0, 0, 0, 1, 0, 0x00, 0, 0x01, 0, 0, 0, 0]
def k9 : Datagram := [0, 0, 0, 0, 0, 0, 0, 2, 0, 0x03, 0, 0x01, 0, 0, 0, 0]
def k11 : Datagram := [0, 0, 0, 0, 0xFF, 0xFF, 0xFF, 0xFF, 0, 0x01, 0, 0x01, 0, 0, 0, 0]
def k14 : Datagram := [0, 0, 0, 0, 0, 0, 0, 0, 0, 0x02, 0, 0x02, 0, 0, 0, 0]
def k19 : Datagram := [0, 0, 0, 0, 0, 0, 0, 0, 0, 0x03, 0, 0x03, 0, 0, 0, 0]
def k1 : Datagram := [0, 0, 0, 1, 0, 0, 0, 0, 0x02, 0x0F, 0, 0, 0x45, 0x42, 0x47, 0x48]

def abcd : Chunk := [0x41, 0x42, 0x43, 0x44]
def efgh : Chunk := [0x45, 0x46, 0x47, 0x48]
def ijkl : Chunk := [0x49, 0x4A, 0x4B, 0x4C]
def mnop : Chunk := [0x4D, 0x4E, 0x4F, 0x50]

/-- The sender of the vectors S1 to S19: four packets. -/
def sndAt (phase : PhaseS) (base nextSeq : U32) (timer : Timer) : Sender :=
  { cfg := cfg4, phase, base, nextSeq, totalPackets := 4, buf := [(0, k3), (1, k4), (2, k5), (3, k6)], timer }

def rcvAt (phase : PhaseR) (expectedSeq : U32) : Receiver := { cfg := cfg4, phase, expectedSeq }

def emptyLane : Lane := { flying := [], waiting := [] }

/-- A state with an empty channel, an empty sink and nothing scheduled. -/
def stAt (snd : Sender) (rcv : Receiver) (now : Nat) : State :=
  { snd, rcv, toRcv := emptyLane, toSnd := emptyLane, sink := [], now, result := none, anomalies := [], schedule := [] }

/-- A state whose receiver is being looked at, and one whose sender is. -/
def rcvSt (phase : PhaseR) (e : U32) : State := stAt (Sender.created cfg4) (rcvAt phase e) 0
def sndSt (phase : PhaseS) (base nextSeq : U32) (timer : Timer) (now : Nat) : State :=
  stAt (sndAt phase base nextSeq timer) (Receiver.created cfg4) now

/-- `(1, 4, armed 5)` in S_WAIT, the state of S6 to S11. -/
def s14 (now : Nat) : State := sndSt .wait 1 4 (.armed 5) now

def nextOf : Out → Option State
  | .next s => some s
  | .fault _ => none
  | .refused _ => none

def faultOf : Out → Option Fault
  | .next _ => none
  | .fault f => some f
  | .refused _ => none

def refusalOf : Out → Option Refusal
  | .next _ => none
  | .fault _ => none
  | .refused r => some r

/-- What the receiver's vectors look at. -/
structure RcvView where
  phase       : PhaseR
  expectedSeq : U32
  sink        : List Chunk
  emitted     : List Datagram
  labels      : List Anomaly
  deriving DecidableEq, Repr

/-- What the sender's vectors look at. -/
structure SndView where
  phase   : PhaseS
  base    : U32
  nextSeq : U32
  timer   : Timer
  emitted : List Datagram
  labels  : List Anomaly
  deriving DecidableEq, Repr

def rcvView (o : Out) : Option RcvView :=
  (nextOf o).map fun s => ⟨s.rcv.phase, s.rcv.expectedSeq, s.sink, s.toSnd.flying, s.anomalies⟩

def sndView (o : Out) : Option SndView :=
  (nextOf o).map fun s => ⟨s.snd.phase, s.snd.base, s.snd.nextSeq, s.snd.timer, s.toRcv.flying, s.anomalies⟩

def resultOf (o : Out) : Option CodecResult := (nextOf o).bind (·.result)

theorem nextOf_some {o : Out} {t : State} (h : nextOf o = some t) : o = .next t := by
  cases o <;> simp_all [nextOf]

theorem nextOf_isSome {o : Out} (h : (nextOf o).isSome = true) : ∃ t, o = .next t := by
  cases o <;> simp_all [nextOf]

/-! ## Well-formedness: an ill-formed term for each check -/

theorem test_wf_legal_flags_in_illegal_row : (Instr.badflagDrop .receiver 0 0 0 2 []).wf = false := by decide
theorem test_wf_too_many_packets : (Instr.sStart (2 ^ 32) []).wf = false := by decide
theorem test_wf_wrong_number_of_chunks : (Instr.sStart 2 [abcd]).wf = false := by decide

/-! ## Decoding: every row's word written out (R81, R83, R92; K3, K9, K14, K19) -/

/-- 96 header bits: seq 1, ack 0, checksum 0x020F, flags 0; then the payload "EFGH". -/
theorem test_decode_data : decode (.packet .receiver k4) = .ok (.data .receiver 1 0 0x020F efgh) := by decide
theorem test_decode_ack : decode (.packet .sender k9) = .ok (.ack .sender 0 2 3 [0, 0, 0, 0]) := by decide
theorem test_decode_fin : decode (.packet .receiver k14) = .ok (.fin .receiver 0 0 2 [0, 0, 0, 0]) := by decide
theorem test_decode_badflag : decode (.packet .receiver k19) =
    .ok (.badflagDrop .receiver 0 0 3 3 [0, 0, 0, 0]) := by decide
/-- Bit by bit, most significant first (R81): 0x01020304, 0x05060708, 0x604A, 0xFFFF. -/
theorem test_decode_header_bits :
    decode (.packet .sender [0b00000001, 0b00000010, 0b00000011, 0b00000100, 0b00000101, 0b00000110, 0b00000111,
      0b00001000, 0b01100000, 0b01001010, 0b11111111, 0b11111111]) =
    .ok (.badflagDrop .sender 0x01020304 0x05060708 0x604A 0xFFFF []) := by decide
/-- R89: no complete header. -/
theorem test_decode_short : decode (.packet .receiver [0, 1, 2]) = .ok (.rRx [0, 1, 2]) := by decide

/-- Operands of which every operation reads its own. -/
def args : Args :=
  { side := .receiver, packet := { seq := 7, ack := 9, ck := 5, flags := 3, payload := abcd }, kind := .fin
    datagram := k4, count := 1, chunks := [efgh] }

theorem test_decode_codec :
    decode (.event 0b00000000 args) = .ok (.encode .receiver args.packet) ∧
    decode (.event 0b00000001 args) = .ok (.decode .receiver k4) ∧
    decode (.event 0b00000010 args) = .ok (.cksum .receiver args.packet) ∧
    decode (.event 0b00000011 args) = .ok (.validate .receiver k4) ∧
    decode (.event 0b00000100 args) = .ok (.frame .receiver 7 9 .fin abcd) := by decide
theorem test_decode_sender :
    decode (.event 0b00010000 args) = .ok (.sStart 1 [efgh]) ∧ decode (.event 0b00010001 args) = .ok .fillWindow ∧
    decode (.event 0b00010010 args) = .ok (.sRx k4) ∧ decode (.event 0b00010011 args) = .ok (.onAck 9) ∧
    decode (.event 0b00010100 args) = .ok .onTimeout ∧ decode (.event 0b00010101 args) = .ok .finish := by decide
theorem test_decode_receiver :
    decode (.event 0b00100000 args) = .ok .rStart ∧ decode (.event 0b00100001 args) = .ok (.rRx k4) ∧
    decode (.event 0b00100010 args) = .ok (.onPacket 7 abcd) ∧ decode (.event 0b00100011 args) = .ok .onFin := by decide
theorem test_decode_timer :
    decode (.event 0b00110000 args) = .ok .arm ∧ decode (.event 0b00110001 args) = .ok .disarm ∧
    decode (.event 0b00110010 args) = .ok .restart := by decide
theorem test_decode_unlisted :
    decode (.event 0x05 args) = .error (.unknownCode 0x05) ∧ decode (.event 0x16 args) = .error (.unknownCode 0x16) ∧
    decode (.event 0x33 args) = .error (.unknownCode 0x33) ∧ decode (.event 0xFF args) = .error (.unknownCode 0xFF) := by
  decide

/-- The opcode table's words, and where `withFetchWord` puts them: the next step runs what they decode to. -/
theorem test_table_words : decodeTableWord 8 0x11 = some .fillWindow ∧ decodeTableWord 8 0x31 = some .disarm ∧
    decodeTableWord 8 0x24 = none ∧ decodeTableWord 16 0 = none := by decide
theorem test_fetch_word_runs : step (State.withFetchWord (s14 7) 96 3) =
    exec (.badflagDrop .receiver 0 0 0 3 (zeros 4)) ((s14 7).setPhaseR .wait) := rfl
theorem test_fetch_word_timer : (nextOf (step (State.reset.withFetchWord 8 0x30))).isSome = true ∧
    (nextOf (step (State.reset.withFetchWord 8 0x31))).isSome = true ∧
    (nextOf (step (State.reset.withFetchWord 8 0x32))).isSome = true := ⟨rfl, rfl, rfl⟩
/-- ON_TIMEOUT at reset: `TIMEOUT_MS` is open there (log entry 6), so this is shown by proof. -/
theorem test_fetch_word_timeout : ∃ t, step (State.reset.withFetchWord 8 0x14) = .next t := by
  have h : State.reset.withFetchWord 8 0x14 = placeFetched (.event 0x14 (zeroArgs 1024)) State.reset := rfl
  have hr : step (placeFetched (.event 0x14 (zeroArgs 1024)) State.reset) =
      execOnTimeout { State.reset.setTimer (.armed 0) with
        snd := { Sender.created Config.default with phase := .wait, timer := .armed 0 }
        now := 0 + Config.default.timeoutMs } := rfl
  rw [h, hr, execOnTimeout, runIn_sender _ _ configLegal_default (by simp [expired, Sender.created])]
  exact ⟨_, rfl⟩

/-! ## One step per operation, against the vectors -/

-- V2, E7
theorem test_data_accepted : rcvView (exec (.data .receiver 0 0 0x0206 abcd) (rcvSt .wait 0)) =
    some ⟨.wait, 1, [abcd], [k7], []⟩ := by decide
theorem test_data_at_sender : sndView (exec (.data .sender 0 0 0x0206 abcd) (sndSt .wait 0 2 (.armed 0) 3)) =
    some ⟨.fill, 0, 2, .armed 0, [], [.badFlag]⟩ := by decide
-- S3, E4
theorem test_ack_restarts : sndView (exec (.ack .sender 0 0 1 (zeros 4)) (sndSt .wait 0 3 (.armed 0) 5)) =
    some ⟨.fill, 1, 3, .armed 5, [], []⟩ := by decide
theorem test_ack_at_receiver : rcvView (exec (.ack .receiver 0 0 1 (zeros 4)) (rcvSt .wait 0)) =
    some ⟨.wait, 0, [], [], [.badFlag]⟩ := by decide
-- V13, E8
theorem test_fin_ends : rcvView (exec (.fin .receiver 7 0 5 (zeros 4)) (rcvSt .wait 3)) =
    some ⟨.done, 3, [], [], []⟩ := by decide
theorem test_fin_at_sender : sndView (exec (.fin .sender 0 0 2 (zeros 4)) (sndSt .wait 0 2 (.armed 0) 3)) =
    some ⟨.fill, 0, 2, .armed 0, [], [.badFlag]⟩ := by decide
-- E5, E6
theorem test_badflag_dropped : rcvView (exec (.badflagDrop .receiver 0 0 3 3 (zeros 4)) (rcvSt .wait 0)) =
    some ⟨.wait, 0, [], [], [.badFlag]⟩ := by decide
theorem test_badflag_checksum_first : rcvView (exec (.badflagDrop .receiver 0 0 0 3 (zeros 4)) (rcvSt .wait 0)) =
    some ⟨.wait, 0, [], [], [.badSum]⟩ := by decide
-- K16, K42
theorem test_encode : resultOf (exec (.encode .sender
      { seq := 0x01020304, ack := 0x05060708, ck := 0x604A, flags := 0, payload := [0xDE, 0xAD, 0xBE, 0xEF] }) (s14 6)) =
    some (.datagram [1, 2, 3, 4, 5, 6, 7, 8, 0x60, 0x4A, 0, 0, 0xDE, 0xAD, 0xBE, 0xEF]) := by decide
theorem test_encode_computes_no_checksum : resultOf (exec (.encode .sender
      { seq := 1, ack := 0, ck := 0, flags := 0, payload := efgh }) (s14 6)) =
    some (.datagram [0, 0, 0, 1, 0, 0, 0, 0, 0, 0, 0, 0, 0x45, 0x46, 0x47, 0x48]) := by decide
-- K40, K41
theorem test_decode_fields : resultOf (exec (.decode .sender
      [1, 2, 3, 4, 5, 6, 7, 8, 0x60, 0x4A, 0, 0, 0xDE, 0xAD, 0xBE, 0xEF]) (s14 6)) =
    some (.packet { seq := 0x01020304, ack := 0x05060708, ck := 0x604A, flags := 0, payload := [0xDE, 0xAD, 0xBE, 0xEF] }) := by
  decide
theorem test_decode_illegal_flags : resultOf (exec (.decode .receiver
      [0, 0, 0, 0, 0, 0, 0, 0, 0xFF, 0xFF, 0xFF, 0xFF, 0, 0, 0, 0]) (s14 6)) =
    some (.packet { seq := 0, ack := 0, ck := 0xFFFF, flags := 0xFFFF, payload := [0, 0, 0, 0] }) := by decide
-- K33 (an odd capacity), and its XOR8
theorem test_cksum_odd : cksum { cfg4 with payloadCapacity := 3 }
    { seq := 7, ack := 0, ck := 0, flags := 0, payload := [0x11, 0x22, 0x33] } = 0x2225 := by decide
theorem test_cksum_xor8 : cksum { cfg4 with payloadCapacity := 3, ckAlgo := .xor8 }
    { seq := 7, ack := 0, ck := 0, flags := 0, payload := [0x11, 0x22, 0x33] } = 0x0007 := by decide
-- K4, K2
theorem test_validate_true : resultOf (exec (.validate .receiver k4) (s14 6)) = some (.verdict true) := by decide
theorem test_validate_checksum_bit : resultOf (exec (.validate .receiver (flipByte k4 8 0x80)) (s14 6)) =
    some (.verdict false) := by decide
-- K12, K17
theorem test_frame_ack : resultOf (exec (.frame .receiver 0 0x12345678 .ack (zeros 4)) (s14 6)) =
    some (.datagram [0, 0, 0, 0, 0x12, 0x34, 0x56, 0x78, 0x44, 0x4D, 0, 1, 0, 0, 0, 0]) := by decide
theorem test_frame_data : resultOf (exec (.frame .sender 0xFFFFFFFE 0 .data [0xFF, 0xFF, 0xFF, 0xFF]) (s14 6)) =
    some (.datagram [0xFF, 0xFF, 0xFF, 0xFE, 0, 0, 0, 0, 0, 1, 0, 0, 0xFF, 0xFF, 0xFF, 0xFF]) := by decide
-- S1, S15
theorem test_sStart : nextOf (exec (.sStart 4 [abcd, efgh, ijkl, mnop]) (stAt (Sender.created cfg4) (rcvAt .idle 0) 0)) =
    some (sndSt .fill 0 0 .disarmed 0) := by decide
theorem test_sStart_empty : sndView (exec (.sStart 0 []) (stAt (Sender.created cfg4) (rcvAt .idle 0) 0)) =
    some ⟨.fill, 0, 0, .disarmed, [], []⟩ := by decide
-- S2, S4
theorem test_fill_arms : sndView (exec .fillWindow (sndSt .fill 0 0 .disarmed 0)) =
    some ⟨.wait, 0, 3, .armed 0, [k3, k4, k5], []⟩ := by decide
theorem test_fill_keeps_timer : sndView (exec .fillWindow (sndSt .fill 1 3 (.armed 5) 6)) =
    some ⟨.wait, 1, 4, .armed 5, [k6], []⟩ := by decide
-- S19, S18
theorem test_sRx_ignores_seq : sndView (exec (.sRx [0, 0, 0, 9, 0, 0, 0, 2, 0x02, 0x0C, 0, 1, 1, 2, 3, 4])
      (sndSt .wait 0 3 (.armed 0) 5)) = some ⟨.fill, 3, 3, .disarmed, [], []⟩ := by decide
theorem test_sRx_corrupted : sndView (exec (.sRx (flipByte k7 7 0x01)) (sndSt .wait 0 3 (.armed 0) 5)) =
    some ⟨.fill, 0, 3, .armed 0, [], [.badSum]⟩ := by decide
-- S9, S10
theorem test_onAck_beyond : sndView (exec (.onAck 4) (s14 9)) = some ⟨.wait, 1, 4, .armed 5, [], [.beyondAck]⟩ := by decide
theorem test_onAck_all_ones : sndView (exec (.onAck 0xFFFFFFFF) (s14 9)) =
    some ⟨.wait, 1, 4, .armed 5, [], [.staleAck]⟩ := by decide
-- S11, T4
theorem test_onTimeout : sndView (exec .onTimeout (s14 105)) =
    some ⟨.fill, 1, 4, .armed 105, [k4, k5, k6], [.loss]⟩ := by decide
theorem test_onTimeout_too_early : faultOf (exec .onTimeout (s14 104)) = some (.noStep 0x14) := by decide
-- S13
theorem test_finish : sndView (exec .finish (sndSt .fin 4 4 .disarmed 20)) =
    some ⟨.done, 4, 4, .disarmed, [k14, k14, k14], []⟩ := by decide
-- R60 and R38 (c): a datagram on the port is dropped, and left for later so that the one behind it overtakes it
theorem test_channel_drop_waiting : Lane.act { flying := [k3], waiting := [k4, k5] } (.drop (.waiting 0)) =
    { flying := [k3], waiting := [k5] } := by decide
theorem test_channel_delay_waiting : Lane.act { flying := [k3], waiting := [k4, k5] } (.delay (.waiting 0)) =
    { flying := [k3, k4], waiting := [k5] } := by decide
-- V1
theorem test_rStart : rcvView (exec .rStart (rcvSt .idle 0)) = some ⟨.wait, 0, [], [], []⟩ := by decide
-- V5, V15
theorem test_rRx_duplicate : rcvView (exec (.rRx k3) (rcvSt .wait 2)) = some ⟨.wait, 2, [], [k8], [.dup]⟩ := by decide
theorem test_rRx_wraps : rcvView (exec (.rRx [0xFF, 0xFF, 0xFF, 0xFF, 0, 0, 0, 0, 0, 0, 0, 0, 0, 0, 0, 0])
      (rcvSt .wait 0xFFFFFFFF)) = some ⟨.wait, 0, [zeros 4], [k11], []⟩ := by decide
-- V6, V7
theorem test_onPacket_suppressed : rcvView (exec (.onPacket 1 efgh) (rcvSt .wait 0)) =
    some ⟨.wait, 0, [], [], [.ahead]⟩ := by decide
theorem test_onPacket_wrapped : rcvView (exec (.onPacket 1 efgh)
      (stAt (Sender.created cfg4) { rcvAt .wait 0 with cfg := { cfg4 with reack0 := .wrap } } 0)) =
    some ⟨.wait, 0, [], [k11], [.ahead]⟩ := by decide
-- V11
theorem test_onFin_incomplete : rcvView (exec .onFin (rcvSt .wait 1)) = some ⟨.done, 1, [], [], []⟩ := by decide
-- T1, T3, T2, with the window as FILL_WINDOW and ON_ACK have it when they invoke the primitive
theorem test_arm : nextOf (exec .arm (sndSt .fill 0 3 .disarmed 0)) = some (sndSt .fill 0 3 (.armed 0) 0) := by decide
-- R42: nothing is written after S_DONE
theorem test_arm_not_after_done : faultOf (exec .arm (sndSt .done 3 4 .disarmed 0)) = some (.noStep 0x30) := by decide
theorem test_disarm : nextOf (exec .disarm (sndSt .fill 4 4 (.armed 112) 113)) =
    some (sndSt .fill 4 4 .disarmed 113) := by decide
theorem test_restart : nextOf (exec .restart (s14 105)) = some (sndSt .wait 1 4 (.armed 105) 105) := by decide

/-! ## Witnesses: concrete states and operands that meet each statement's hypotheses, clause by clause, at boundary values -/

def turn (t : Turn) (s : State) : State := { s with schedule := [t] }
def offered (d : Datagram) (s : State) : State :=
  { s with toSnd := { s.toSnd with waiting := [d] }, toRcv := { s.toRcv with waiting := [d] } }
def rec4 (flags : U16) : Packet := { seq := 1, ack := 0xFFFFFFFF, ck := 0, flags, payload := efgh }
def withAlgo (a : CkAlgo) (s : State) : State := { s with snd := { s.snd with cfg := { s.snd.cfg with ckAlgo := a } } }

-- O1: the smallest illegal flags value; no chunks
theorem witness_DecodeEncodeAgree :
    (Instr.badflagDrop .sender 0 0 0 3 []).wf = true ∧ (Instr.sStart 0 []).wf = true := by decide
-- O3: the last listed code and the codes next to the listed ones
theorem witness_UnlistedCodesRefused :
    (0x32#8).toNat ∈ [0x00, 0x01, 0x02, 0x03, 0x04, 0x10, 0x11, 0x12, 0x13, 0x14, 0x15, 0x20, 0x21, 0x22, 0x23,
      0x30, 0x31, 0x32] ∧
    (0x05#8).toNat ∉ [0x00, 0x01, 0x02, 0x03, 0x04, 0x10, 0x11, 0x12, 0x13, 0x14, 0x15, 0x20, 0x21, 0x22, 0x23,
      0x30, 0x31, 0x32] ∧
    (turn (.invoke (.event 0x05 args)) (s14 6)).schedule = [.invoke (.event 0x05 args)] := by decide
-- O4: flags 0, 1, 2 and 3
theorem witness_KindSelectedByMaskAndMatch :
    (k4.take 12).length = 12 ∧ headerNumber (k4.take 12) &&& 0xFFFF = 0 ∧ headerNumber (k9.take 12) &&& 0xFFFF = 1 ∧
    headerNumber (k14.take 12) &&& 0xFFFF = 2 ∧ headerNumber (k19.take 12) &&& 0xFFFF = 3 := by decide
-- O5
theorem witness_StepRunsTheDecodedOperation :
    (turn (.invoke (.packet .sender k9)) (s14 6)).schedule = [.invoke (.packet .sender k9)] ∧
    decode (.packet .sender k9) = .ok (.ack .sender 0 2 3 [0, 0, 0, 0]) ∧
    (turn (.startSender 0 []) (s14 6)).schedule = [.startSender 0 []] ∧
    (turn .startReceiver (s14 6)).schedule = [.startReceiver] := by decide
/-- `s` with the sender's turn, or the receiver's, next. -/
def senderNext (s : State) : State := turn (.sender .datagram) s
def receiverNext (s : State) : State := turn .receiver s
/-- The state is one of the sender's turn, with a legal configuration. -/
def SenderHasTurn (s : State) : Prop := s.schedule = [.sender .datagram] ∧ configLegal s.snd.cfg = true
def ReceiverHasTurn (s : State) : Prop := s.schedule = [.receiver] ∧ configLegal s.rcv.cfg = true
theorem senderNext_hasTurn (phase : PhaseS) (b n : U32) (t : Timer) (now : Nat) :
    SenderHasTurn (senderNext (sndSt phase b n t now)) := ⟨rfl, rfl⟩
theorem receiverNext_hasTurn (phase : PhaseR) (e : U32) : ReceiverHasTurn (receiverNext (rcvSt phase e)) := ⟨rfl, rfl⟩
-- O6: every phase, each in a state of the sender's turn; `base` at and just below `total_packets`
theorem witness_SenderLoopFollowsItsTable :
    (∃ s, SenderHasTurn s ∧ s.snd.phase = .idle) ∧
    (∃ s, SenderHasTurn s ∧ s.snd.phase = .fill ∧ s.snd.base = s.snd.totalPackets) ∧
    (∃ s, SenderHasTurn s ∧ s.snd.phase = .fill ∧ s.snd.base.toNat < s.snd.totalPackets.toNat) ∧
    (∃ s, SenderHasTurn s ∧ s.snd.phase = .fin) ∧ (∃ s, SenderHasTurn s ∧ s.snd.phase = .done) :=
  ⟨⟨senderNext (sndSt .idle 0 0 .disarmed 0), senderNext_hasTurn _ _ _ _ _, rfl⟩,
    ⟨senderNext (sndSt .fill 4 4 .disarmed 0), senderNext_hasTurn _ _ _ _ _, rfl, rfl⟩,
    ⟨senderNext (sndSt .fill 3 4 (.armed 5) 6), senderNext_hasTurn _ _ _ _ _, rfl, by decide⟩,
    ⟨senderNext (sndSt .fin 4 4 .disarmed 0), senderNext_hasTurn _ _ _ _ _, rfl⟩,
    ⟨senderNext (sndSt .done 4 4 .disarmed 0), senderNext_hasTurn _ _ _ _ _, rfl⟩⟩
-- O7: T8, T5, T4, T7, each in a state of the sender's turn in S_WAIT
theorem witness_PacketFirstArbitration :
    (∃ s d, SenderHasTurn s ∧ s.snd.phase = .wait ∧ s.snd.cfg.arbitration = .packetFirst ∧ s.toSnd.waiting = [d] ∧
      expired s.snd s.now = true) ∧
    (∃ s, SenderHasTurn s ∧ s.snd.phase = .wait ∧ s.snd.cfg.arbitration = .packetFirst ∧ s.toSnd.waiting = [] ∧
      s.snd.timer = .armed 5 ∧ s.snd.cfg.timeoutMs + 5 ≤ s.now) ∧
    (∃ s, SenderHasTurn s ∧ s.snd.phase = .wait ∧ s.snd.cfg.arbitration = .packetFirst ∧ s.toSnd.waiting = [] ∧
      s.snd.timer = .armed 5 ∧ s.now < s.snd.cfg.timeoutMs + 5) ∧
    (∃ s, SenderHasTurn s ∧ s.snd.phase = .wait ∧ s.snd.cfg.arbitration = .packetFirst ∧ s.toSnd.waiting = [] ∧
      s.snd.timer = .disarmed) :=
  ⟨⟨offered k7 (senderNext (s14 105)), k7, ⟨rfl, rfl⟩, rfl, rfl, rfl, by decide⟩,
    ⟨senderNext (s14 105), ⟨rfl, rfl⟩, rfl, rfl, rfl, rfl, by decide⟩,
    ⟨senderNext (s14 104), ⟨rfl, rfl⟩, rfl, rfl, rfl, rfl, by decide⟩,
    ⟨senderNext (sndSt .wait 0 0 .disarmed 7), ⟨rfl, rfl⟩, rfl, rfl, rfl, rfl⟩⟩
-- O8: a datagram and an expiry; a datagram, one millisecond early or disarmed; no datagram, in the same three
def freePick (pick : Pick) (t : Timer) (now : Nat) : State :=
  turn (.sender pick)
    { s14 now with snd := { sndAt .wait 1 4 t with cfg := { cfg4 with arbitration := .free } } }
theorem witness_OpenArbitrationServesThePick (pick : Pick) (t : Timer) (now : Nat) :
    (freePick pick t now).schedule = [.sender pick] ∧ configLegal (freePick pick t now).snd.cfg = true ∧
    (freePick pick t now).snd.phase = .wait ∧ (freePick pick t now).snd.cfg.arbitration = .free ∧
    (offered k7 (freePick pick t now)).schedule = [.sender pick] ∧
    (offered k7 (freePick pick t now)).toSnd.waiting = [k7] ∧ (freePick pick t now).toSnd.waiting = [] ∧
    (freePick pick (.armed 5) 105).snd.cfg.timeoutMs + 5 ≤ (freePick pick (.armed 5) 105).now ∧
    (freePick pick (.armed 5) 104).now < (freePick pick (.armed 5) 104).snd.cfg.timeoutMs + 5 ∧
    (freePick pick .disarmed 105).snd.timer = .disarmed :=
  ⟨rfl, rfl, rfl, rfl, rfl, rfl, rfl, Nat.le_refl 105, Nat.lt_succ_self 104, rfl⟩
-- O9: every phase, each in a state of the receiver's turn
theorem witness_ReceiverLoopFollowsItsTable :
    (∃ s, ReceiverHasTurn s ∧ s.rcv.phase = .idle) ∧
    (∃ s, ReceiverHasTurn s ∧ s.rcv.phase = .wait ∧ s.toRcv.waiting = [k3]) ∧
    (∃ s, ReceiverHasTurn s ∧ s.rcv.phase = .wait ∧ s.toRcv.waiting = []) ∧ (∃ s, ReceiverHasTurn s ∧ s.rcv.phase = .done) :=
  ⟨⟨receiverNext (rcvSt .idle 0), receiverNext_hasTurn _ _, rfl⟩,
    ⟨offered k3 (receiverNext (rcvSt .wait 0)), receiverNext_hasTurn _ _, rfl, rfl⟩,
    ⟨receiverNext (rcvSt .wait 0), receiverNext_hasTurn _ _, rfl, rfl⟩,
    ⟨receiverNext (rcvSt .done 3), receiverNext_hasTurn _ _, rfl⟩⟩
-- O10: `now` again, and one less
theorem witness_ClockNeverGoesBack :
    (turn (.clock 6) (s14 6)).schedule = [.clock 6] ∧ (s14 6).now ≤ 6 ∧ 5 < (s14 6).now := by decide
-- O11: both lanes and the turn in one state, whatever the act: the last datagram in flight, the one on the port, and the places
-- past each; and, for an injection, a state whose lanes are empty
def laned (dest : Side) (act : ChannelAct) : State :=
  { turn (.channel dest act) (s14 6) with
    toRcv := { flying := [k3, k4], waiting := [k5] }, toSnd := { flying := [k7, k8], waiting := [k9] } }
theorem witness_ChannelMovesDatagrams (dest : Side) (act : ChannelAct) :
    (laned dest act).schedule = [.channel dest act] ∧ (laned dest act).toRcv.flying[1]? = some k4 ∧
    (laned dest act).toRcv.waiting[0]? = some k5 ∧ (laned dest act).toRcv.flying[2]? = none ∧
    (laned dest act).toRcv.waiting[1]? = none ∧ (laned dest act).toSnd.flying[1]? = some k8 ∧
    (laned dest act).toSnd.waiting[0]? = some k9 ∧ (laned dest act).toSnd.flying[2]? = none ∧
    (laned dest act).toSnd.waiting[1]? = none ∧
    (turn (.channel dest (.inject k1)) (s14 6)).schedule = [.channel dest (.inject k1)] ∧
    (turn (.channel dest (.inject k1)) (s14 6)).toRcv.flying = [] :=
  ⟨rfl, rfl, rfl, rfl, rfl, rfl, rfl, rfl, rfl, rfl, rfl⟩
-- O12
theorem witness_ResetGivesTheListedValues :
    configLegal cfg4 = true ∧ (turn (.resetSender cfg4) (s14 6)).schedule = [.resetSender cfg4] ∧
    (turn (.resetReceiver cfg4) (s14 6)).schedule = [.resetReceiver cfg4] := by decide
-- O13, O14
theorem witness_EncodeGivesTheWireImage :
    configLegal (cfgOf .receiver (s14 6)) = true ∧
    (rec4 0xFFFF).payload.length = (cfgOf .receiver (s14 6)).payloadCapacity := by decide
theorem witness_DecodeReadsTheFields :
    configLegal (cfgOf .sender (s14 6)) = true ∧ k4.length = 12 + (cfgOf .sender (s14 6)).payloadCapacity ∧
    (k4.take 15).length ≠ 12 + (cfgOf .sender (s14 6)).payloadCapacity ∧
    (rec4 3).payload.length = (cfgOf .sender (s14 6)).payloadCapacity := by decide
-- O15: two configurations and two records that agree in what matters and differ elsewhere
theorem witness_ChecksumKeepsItsContract :
    cfg4.ckAlgo = { cfg4 with windowSize := 1 }.ckAlgo ∧ (rec4 0).seq = { rec4 0 with ck := 9 }.seq ∧
    (rec4 0).ack = { rec4 0 with ck := 9 }.ack ∧ (rec4 0).flags = { rec4 0 with ck := 9 }.flags ∧
    (rec4 0).payload = { rec4 0 with ck := 9 }.payload := by decide
-- O16 to O18
theorem witness_Checksum :
    configLegal (cfgOf .sender (s14 6)) = true ∧ (cfgOf .sender (s14 6)).ckAlgo = .xor16be ∧
    (rec4 0).payload.length = (cfgOf .sender (s14 6)).payloadCapacity ∧
    configLegal (cfgOf .sender (withAlgo .xor8 (s14 6))) = true ∧
    (cfgOf .sender (withAlgo .xor8 (s14 6))).ckAlgo = .xor8 ∧
    configLegal (cfgOf .sender (withAlgo (.other 7) (s14 6))) = true ∧
    (cfgOf .sender (withAlgo (.other 7) (s14 6))).ckAlgo = .other 7 := by decide
-- O19, O20
theorem witness_FrameValidates :
    configLegal (cfgOf .sender (s14 6)) = true ∧ efgh.length = (cfgOf .sender (s14 6)).payloadCapacity := by decide
theorem witness_ValidateComparesChecksums :
    configLegal (cfgOf .sender (s14 6)) = true ∧ k1.length = 12 + (cfgOf .sender (s14 6)).payloadCapacity ∧
    decodeRec k1 = some { seq := 1, ack := 0, ck := 0x020F, flags := 0, payload := [0x45, 0x42, 0x47, 0x48] } ∧
    (cfgOf .sender (s14 6)).ckAlgo = .xor16be ∧ (k1 ++ [0]).length ≠ 12 + (cfgOf .sender (s14 6)).payloadCapacity := by
  decide
-- O21: the last bit of the last byte, under both algorithms; O22: K52, K53
theorem witness_SingleBitChangeDetected :
    cfg4.ckAlgo = .xor16be ∧ k4.length = pktLen cfg4 ∧ validate cfg4 k4 = true ∧ 15 < k4.length ∧ 7 < 8 ∧
    { cfg4 with ckAlgo := .xor8 }.ckAlgo = .xor8 ∧ k8.length = pktLen { cfg4 with ckAlgo := .xor8 } ∧
    validate { cfg4 with ckAlgo := .xor8 } k8 = true := by decide
theorem witness_ColumnPairsAndWordExchangesUndetected :
    cfg4.ckAlgo = .xor16be ∧ k4.length = pktLen cfg4 ∧ 12 < k4.length ∧ 14 < k4.length ∧ 12 ≠ 14 ∧ 12 % 2 = 14 % 2 ∧
    (k4.take 12).length % 2 = 0 ∧ ([] : List Byte).length % 2 = 0 ∧
    (k4.take 12 ++ [0x12, 0x34] ++ [] ++ [0x56, 0x78] ++ []).length = pktLen cfg4 := by decide
-- O23, O24
def fresh : State := stAt (Sender.created cfg4) (rcvAt .idle 0) 0
theorem witness_SStartCreatesTheWindow :
    configLegal fresh.snd.cfg = true ∧ fresh.snd.phase = .idle ∧ 2 < 2 ^ 32 ∧ [abcd, efgh].length = 2 ∧
    (∀ k ∈ [abcd, efgh], k.length = fresh.snd.cfg.payloadCapacity) ∧ [abcd, efgh][1]? = some efgh := by decide
theorem witness_SStartStopsOutsideItsContract :
    (s14 6).snd.phase ≠ .idle ∧ fresh.snd.phase = .idle ∧ 2 ^ 32 ≤ 4294967296 ∧ 4294967295 < 2 ^ 32 ∧
    [abcd].length ≠ 2 ∧ (∃ k ∈ [abcd, [0x45]], k.length ≠ fresh.snd.cfg.payloadCapacity) := by decide
-- O25: the window open (S2), and full (S5)
theorem witness_FillWindowSendsTheWindow :
    configLegal cfg4 = true ∧ (sndSt .fill 0 0 .disarmed 0).snd.phase = .fill ∧
    (sndSt .fill 0 0 .disarmed 0).snd.base.toNat < (sndSt .fill 0 0 .disarmed 0).snd.totalPackets.toNat ∧
    [k3, k4, k5].length = min (0 + 3) 4 - 0 ∧
    (∀ j < [k3, k4, k5].length, (sndSt .fill 0 0 .disarmed 0).snd.buf.read (0 + j) = [k3, k4, k5][j]?) ∧
    (sndSt .fill 1 4 (.armed 5) 7).snd.base.toNat < (sndSt .fill 1 4 (.armed 5) 7).snd.totalPackets.toNat ∧
    ([] : List Datagram).length = min (1 + 3) 4 - 4 := by decide
-- O26: one byte short; a wrong checksum; flags 0
theorem witness_SenderDropsByTheFirstFailingCheck :
    configLegal (s14 6).snd.cfg = true ∧ (s14 6).snd.phase = .wait ∧
    (k7.take 15).length ≠ 12 + (s14 6).snd.cfg.payloadCapacity ∧ k1.length = 12 + (s14 6).snd.cfg.payloadCapacity ∧
    (∃ p ∈ decodeRec k1, cksum (s14 6).snd.cfg p ≠ p.ck) ∧
    (∃ p ∈ decodeRec k3, cksum (s14 6).snd.cfg p = p.ck ∧ p.flags ≠ 1) :=
  ⟨by decide, by decide, by decide, by decide, ⟨_, rfl, by decide⟩, ⟨_, rfl, by decide, by decide⟩⟩
-- O27: `base + 1` and `next_seq`
theorem witness_QualifyingAckAdvancesBase :
    configLegal (s14 9).snd.cfg = true ∧ (s14 9).snd.phase = .wait ∧ TimerInv (s14 9).snd ∧
    (s14 9).snd.base.toNat < ((1#32).toNat + 1) % 2 ^ 32 ∧ ((3#32).toNat + 1) % 2 ^ 32 ≤ (s14 9).snd.nextSeq.toNat ∧
    (zeros 4).length = (s14 9).snd.cfg.payloadCapacity :=
  ⟨by decide, by decide, rfl, by decide, by decide, by decide⟩
-- O28: at `base`, at the wrap, and one past `next_seq`
theorem witness_StaleOrBeyondAckIgnored :
    ((0#32).toNat + 1) % 2 ^ 32 ≤ (s14 9).snd.base.toNat ∧
    ((0xFFFFFFFF#32).toNat + 1) % 2 ^ 32 ≤ (s14 9).snd.base.toNat ∧
    (s14 9).snd.base.toNat < ((4#32).toNat + 1) % 2 ^ 32 ∧ (s14 9).snd.nextSeq.toNat < ((4#32).toNat + 1) % 2 ^ 32 := by
  decide
-- O29
theorem witness_AllOnesAckIsAlwaysStale : ∃ t, exec (.onAck 0xFFFFFFFF) (s14 9) = .next t := nextOf_isSome (by decide)
-- O30: exactly `TIMEOUT_MS` later
theorem witness_TimeoutRetransmitsTheWindow :
    configLegal (s14 105).snd.cfg = true ∧ (s14 105).snd.phase = .wait ∧ (s14 105).snd.timer = .armed 5 ∧
    (s14 105).snd.cfg.timeoutMs + 5 ≤ (s14 105).now ∧
    (s14 105).snd.nextSeq.toNat ≤ (s14 105).snd.totalPackets.toNat ∧
    [k4, k5, k6].length = (s14 105).snd.nextSeq.toNat - (s14 105).snd.base.toNat ∧
    (∀ j < [k4, k5, k6].length, (s14 105).snd.buf.read (1 + j) = [k4, k5, k6][j]?) := by decide
-- O31, O32
theorem witness_FinishSendsTheFinCopies :
    configLegal (sndSt .fin 4 4 .disarmed 20).snd.cfg = true ∧ (sndSt .fin 4 4 .disarmed 20).snd.phase = .fin := by decide
theorem witness_RStartCreatesTheCounter :
    configLegal (rcvSt .idle 0).rcv.cfg = true ∧ (rcvSt .idle 0).rcv.phase = .idle := by decide
-- O33 (the register at its last value too), O34, O35, O36
theorem witness_InOrderPacketAccepted :
    configLegal (rcvSt .wait 0xFFFFFFFF).rcv.cfg = true ∧ (rcvSt .wait 0xFFFFFFFF).rcv.phase = .wait ∧
    abcd.length = (rcvSt .wait 0xFFFFFFFF).rcv.cfg.payloadCapacity ∧
    (0xFFFFFFFF : U32) = (rcvSt .wait 0xFFFFFFFF).rcv.expectedSeq := by decide
theorem witness_UnexpectedPacketReacknowledged :
    configLegal (rcvSt .wait 1).rcv.cfg = true ∧ (rcvSt .wait 1).rcv.phase = .wait ∧
    abcd.length = (rcvSt .wait 1).rcv.cfg.payloadCapacity ∧ (0 : U32) ≠ (rcvSt .wait 1).rcv.expectedSeq ∧
    (2 : U32) ≠ (rcvSt .wait 1).rcv.expectedSeq ∧ (rcvSt .wait 1).rcv.expectedSeq ≠ 0 := by decide
theorem witness_UnexpectedPacketAtZero :
    configLegal (rcvSt .wait 0).rcv.cfg = true ∧ (rcvSt .wait 0).rcv.phase = .wait ∧
    efgh.length = (rcvSt .wait 0).rcv.cfg.payloadCapacity ∧ (1 : U32) ≠ 0 ∧ (rcvSt .wait 0).rcv.expectedSeq = 0 := by decide
theorem witness_FinEndsTheReceiver :
    configLegal (rcvSt .wait 3).rcv.cfg = true ∧ (rcvSt .wait 3).rcv.phase = .wait ∧
    (zeros 4).length = (rcvSt .wait 3).rcv.cfg.payloadCapacity := by decide
-- O37: no bytes; a wrong checksum; flags 1
theorem witness_ReceiverDropsByTheFirstFailingCheck :
    configLegal (rcvSt .wait 1).rcv.cfg = true ∧ (rcvSt .wait 1).rcv.phase = .wait ∧
    ([] : Datagram).length ≠ 12 + (rcvSt .wait 1).rcv.cfg.payloadCapacity ∧
    k1.length = 12 + (rcvSt .wait 1).rcv.cfg.payloadCapacity ∧
    (∃ p ∈ decodeRec k1, cksum (rcvSt .wait 1).rcv.cfg p ≠ p.ck) ∧
    (∃ p ∈ decodeRec k7, cksum (rcvSt .wait 1).rcv.cfg p = p.ck ∧ p.flags ≠ 0 ∧ p.flags ≠ 2) :=
  ⟨by decide, by decide, by decide, by decide, ⟨_, rfl, by decide⟩, ⟨_, rfl, by decide, by decide, by decide⟩⟩
-- O38: the smallest and the largest illegal value
theorem witness_IllegalAndMisdirectedKindsDropped :
    configLegal (s14 6).snd.cfg = true ∧ (s14 6).snd.phase = .wait ∧
    efgh.length = (s14 6).snd.cfg.payloadCapacity ∧ 3 ≤ (3#16).toNat ∧ 3 ≤ (0xFFFF#16).toNat ∧
    configLegal (rcvSt .wait 0).rcv.cfg = true ∧ (rcvSt .wait 0).rcv.phase = .wait ∧
    efgh.length = (rcvSt .wait 0).rcv.cfg.payloadCapacity := by decide
-- O39: S14, V14
theorem witness_DatagramStaysInTheChannel :
    configLegal (sndSt .done 4 4 .disarmed 0).snd.cfg = true ∧ (sndSt .done 4 4 .disarmed 0).snd.phase ≠ .wait ∧
    configLegal (rcvSt .done 3).rcv.cfg = true ∧ (rcvSt .done 3).rcv.phase ≠ .wait := by decide
-- O40, O41
theorem witness_AllZeroDatagramAccepted :
    configLegal (rcvSt .wait 0).rcv.cfg = true ∧ (rcvSt .wait 0).rcv.cfg.ckAlgo = .xor16be ∧
    (rcvSt .wait 0).rcv.phase = .wait ∧ (rcvSt .wait 0).rcv.expectedSeq = 0 := by decide
def mismatched : State := { s14 6 with rcv := { rcvAt .wait 0 with cfg := { cfg4 with payloadCapacity := 3 } } }
theorem witness_MismatchedCapacityDropsEverything :
    configLegal mismatched.snd.cfg = true ∧ configLegal mismatched.rcv.cfg = true ∧
    mismatched.snd.cfg.payloadCapacity ≠ mismatched.rcv.cfg.payloadCapacity ∧ mismatched.rcv.phase = .wait ∧
    abcd.length = mismatched.snd.cfg.payloadCapacity ∧ mismatched.snd.phase = .wait ∧
    (zeros 3).length = mismatched.rcv.cfg.payloadCapacity := by decide
-- the same capacity and two algorithms: K3 has the sums 0x0206 and 0x0004
def twoSums : State := { s14 6 with rcv := { rcvAt .wait 0 with cfg := { cfg4 with ckAlgo := .xor8 } } }
theorem witness_MismatchedAlgorithms :
    configLegal twoSums.snd.cfg = true ∧ configLegal twoSums.rcv.cfg = true ∧
    twoSums.snd.cfg.payloadCapacity = twoSums.rcv.cfg.payloadCapacity ∧ twoSums.rcv.phase = .wait ∧
    twoSums.snd.phase = .wait ∧ abcd.length = twoSums.snd.cfg.payloadCapacity ∧
    cksum twoSums.snd.cfg { seq := 0, ack := 0, ck := 0, flags := 0, payload := abcd } = 0x0206 ∧
    cksum twoSums.rcv.cfg { seq := 0, ack := 0, ck := 0, flags := 0, payload := abcd } = 0x0004 := by decide
-- O42: ARM, RESTART and DISARM, each in one state
theorem witness_TimerPrimitives :
    (∃ s : State, configLegal s.snd.cfg = true ∧ s.snd.phase = .fill ∧ s.snd.base.toNat < s.snd.nextSeq.toNat ∧
      s.snd.timer = .disarmed) ∧
    (∃ s : State, configLegal s.snd.cfg = true ∧ s.snd.phase = .wait ∧ s.snd.base.toNat < s.snd.nextSeq.toNat ∧
      s.snd.timer = .armed 5) ∧
    (∃ s : State, configLegal s.snd.cfg = true ∧ s.snd.phase = .fill ∧ s.snd.base = s.snd.nextSeq) :=
  ⟨⟨sndSt .fill 3 4 .disarmed 0, rfl, rfl, by decide, rfl⟩, ⟨s14 105, rfl, rfl, by decide, rfl⟩,
    ⟨sndSt .fill 4 4 (.armed 112) 113, rfl, rfl, rfl⟩⟩
-- O43: each precondition failing; `base` at `total_packets`; one millisecond early
theorem witness_NoStepWithoutThePrecondition :
    configLegal (s14 104).snd.cfg = true ∧ (s14 104).snd.phase ≠ .fill ∧
    (sndSt .fill 4 4 .disarmed 0).snd.totalPackets.toNat ≤ (sndSt .fill 4 4 .disarmed 0).snd.base.toNat ∧
    expired (s14 104).snd (s14 104).now = false ∧ (s14 104).snd.phase ≠ .fin ∧
    fresh.snd.phase ≠ .wait ∧ fresh.snd.phase ≠ .fill ∧ configLegal (rcvSt .wait 0).rcv.cfg = true ∧
    (rcvSt .wait 0).rcv.phase ≠ .idle ∧ (rcvSt .idle 0).rcv.phase ≠ .wait ∧ isArmed (s14 104).snd.timer = true ∧
    isArmed fresh.snd.timer = false ∧ (s14 104).snd.base ≠ (s14 104).snd.nextSeq ∧
    (sndSt .fill 4 4 .disarmed 0).snd.nextSeq.toNat ≤ (sndSt .fill 4 4 .disarmed 0).snd.base.toNat := by decide
-- O44: X1's window of zero, and one past the largest
theorem witness_IllegalConfigurationRefused :
    configLegal (cfgOf (sideOf .onFin) { fresh with rcv := Receiver.created { cfg4 with windowSize := 0 } }) = false ∧
    configLegal { cfg4 with windowSize := 4294967296 } = false ∧ configLegal { cfg4 with windowSize := 4294967295 } = true := by
  decide
-- O45 to O51: an operation of each owner that answers
theorem witness_operations_answer :
    (∃ t, exec (.cksum .sender (rec4 0)) (s14 6) = .next t) ∧ (∃ t, exec .fillWindow (sndSt .fill 0 0 .disarmed 0) = .next t) ∧
    (∃ t, exec (.rRx k3) (rcvSt .wait 0) = .next t) ∧ ownerOf (.cksum .sender (rec4 0)) = none ∧
    ownerOf .fillWindow = some .sender ∧ ownerOf (.rRx k3) = some .receiver ∧ isSStart .fillWindow = false ∧
    Instr.rRx k3 ≠ .rStart ∧ (rcvSt .wait 0).rcv.expectedSeq ≠ 0xFFFFFFFF :=
  ⟨nextOf_isSome (by decide), nextOf_isSome (by decide), nextOf_isSome (by decide), rfl, rfl, rfl, rfl, by decide,
    by decide⟩
-- O47: an operation that answers in each final phase
theorem witness_FinalPhasesAreFrozen :
    (∃ t, exec (.sRx k7) (sndSt .done 4 4 .disarmed 0) = .next t) ∧ (sndSt .done 4 4 .disarmed 0).snd.phase = .done ∧
    (∃ t, exec (.rRx k14) (rcvSt .done 3) = .next t) ∧ (rcvSt .done 3).rcv.phase = .done :=
  ⟨nextOf_isSome (by decide), rfl, nextOf_isSome (by decide), rfl⟩
-- O49: an operation for each line of the table
theorem witness_TimerChangesOnlyAsListed :
    (∃ t, exec (.sStart 0 []) fresh = .next t) ∧ (∃ t, exec .fillWindow (sndSt .fill 0 0 .disarmed 0) = .next t) ∧
    (∃ t, exec (.onAck 3) (s14 9) = .next t) ∧ (∃ t, exec (.onAck 2) (s14 9) = .next t) ∧
    (∃ t, exec .onTimeout (s14 105) = .next t) ∧ (∃ t, exec .arm (sndSt .fill 3 4 .disarmed 0) = .next t) ∧
    (∃ t, exec .disarm (sndSt .fill 4 4 (.armed 112) 113) = .next t) ∧ (∃ t, exec .restart (s14 105) = .next t) :=
  ⟨nextOf_isSome (by decide), nextOf_isSome (by decide), nextOf_isSome (by decide), nextOf_isSome (by decide),
    nextOf_isSome (by decide), nextOf_isSome (by decide), nextOf_isSome (by decide), nextOf_isSome (by decide)⟩

/-! Invariants -/

theorem frames : k3 = dataPacket cfg4 0 abcd ∧ k4 = dataPacket cfg4 1 efgh ∧ k5 = dataPacket cfg4 2 ijkl ∧
    k6 = dataPacket cfg4 3 mnop := by decide

theorem buffer_inv (phase : PhaseS) (b n : U32) (tm : Timer) : BufInv (sndAt phase b n tm) := by
  intro _ i hi
  change i < 4 at hi
  match i, hi with
  | 0, _ => exact ⟨abcd, rfl, congrArg some frames.1⟩
  | 1, _ => exact ⟨efgh, rfl, congrArg some frames.2.1⟩
  | 2, _ => exact ⟨ijkl, rfl, congrArg some frames.2.2.1⟩
  | 3, _ => exact ⟨mnop, rfl, congrArg some frames.2.2.2⟩

/-- In the middle of a transfer: packet 0 accepted, its acknowledgment and packets 1 and 2 on the way. -/
def mid : State :=
  { snd := sndAt .wait 0 3 (.armed 5), rcv := rcvAt .wait 1, toRcv := { flying := [k4], waiting := [k5] }
    toSnd := { flying := [k7], waiting := [k11] }, sink := [abcd], now := 105, result := none, anomalies := []
    schedule := [.sender .datagram] }

/-- At the end of a transfer: a copy of the FIN on the port and one in flight, and the receiver's turn. -/
def closing : State :=
  { snd := sndAt .done 4 4 .disarmed, rcv := rcvAt .wait 4, toRcv := { flying := [k14], waiting := [k14] }
    toSnd := emptyLane, sink := [abcd, efgh, ijkl, mnop], now := 105, result := none, anomalies := []
    schedule := [.receiver] }

theorem mid_sender : SenderInv mid.snd :=
  ⟨by decide, ⟨by decide, by decide, by decide⟩, fun h => absurd h (by decide), rfl, buffer_inv _ _ _ _⟩

-- O50, O51
theorem witness_ReceptionNeverStops :
    configLegal mid.rcv.cfg = true ∧ configLegal mid.snd.cfg = true ∧ TimerInv mid.snd := ⟨by decide, by decide, rfl⟩
theorem witness_EverythingEmittedValidates :
    (∃ t, exec .onTimeout mid = .next t) ∧ BufInv mid.snd := ⟨nextOf_isSome (by decide), buffer_inv _ _ _ _⟩
-- O52 to O55: each invariant, in a state whose next step answers
theorem witness_invariants_step :
    (∃ t, step mid = .next t) ∧ Memory.wf mid.snd.buf = true ∧ WindowInv mid.snd ∧ EndInv mid.snd ∧
    SenderInv mid.snd ∧ SinkInv mid :=
  ⟨nextOf_isSome (by decide), by decide, mid_sender.window, mid_sender.ended, mid_sender,
    ⟨by decide, by decide, by decide⟩⟩
-- O57
theorem witness_DeliveryInvariantKept :
    DeliveryInv mid ∧ (∀ u, nextTurn mid = some u → honest u = true) ∧ ∃ t, step mid = .next t := by
  refine ⟨⟨mid_sender, by decide, ?_, ?_, by decide, by decide, by decide, by decide, ?_, by decide⟩,
    fun u h => by cases h; rfl, nextOf_isSome (by decide)⟩
  · rintro d (h | h)
    · cases List.mem_singleton.mp h
      exact .inl ⟨1, by decide, rfl⟩
    · cases List.mem_singleton.mp h
      exact .inl ⟨2, by decide, rfl⟩
  · rintro d (h | h)
    · cases List.mem_singleton.mp h
      exact ⟨0, by decide, by decide⟩
    · cases List.mem_singleton.mp h
      exact ⟨0xFFFFFFFF, by decide, by decide⟩
  · intro i hi
    have h0 : i = 0 := by change i < 1 at hi; omega
    subst h0
    exact ⟨abcd, rfl, by decide⟩
-- O58: one step from `closing` ends the receiver
theorem closing_ends : (nextOf (step closing)).map (·.rcv.phase) = some .done := by decide
theorem witness_EndedReceiverHoldsEveryChunk :
    DeliveryInv closing ∧ (∀ u ∈ closing.schedule, honest u = true) ∧ closing.snd.phase ≠ .idle ∧
    ∃ t : State, Host.Core.run Sys2Proof.core 1 closing = .next t ∧ t.rcv.phase = .done := by
  refine ⟨⟨⟨by decide, ⟨by decide, by decide, by decide⟩, fun _ => rfl, rfl, buffer_inv _ _ _ _⟩, by decide, ?_, ?_,
    by decide, by decide, by decide, by decide, ?_, by decide⟩, by decide, by decide, ?_⟩
  rotate_right
  · obtain ⟨t, ht, hp⟩ := Option.map_eq_some_iff.mp closing_ends
    exact ⟨t, run_succ_next.mpr ⟨t, nextOf_some ht, rfl⟩, hp⟩
  · rintro d (h | h) <;> (cases List.mem_singleton.mp h; exact .inr ⟨rfl, by decide⟩)
  · rintro d (h | h) <;> cases h
  · intro i hi
    change i < 4 at hi
    match i, hi with
    | 0, _ => exact ⟨abcd, rfl, by decide⟩
    | 1, _ => exact ⟨efgh, rfl, by decide⟩
    | 2, _ => exact ⟨ijkl, rfl, by decide⟩
    | 3, _ => exact ⟨mnop, rfl, by decide⟩
-- O59; O60: entry 1 missing, read by FILL_WINDOW and by ON_TIMEOUT; entry 1 past `total_packets`; a payload one byte short
theorem witness_SenderTurnAlwaysAnswers : SenderInv mid.snd ∧ mid.schedule = [.sender .datagram] := ⟨mid_sender, rfl⟩

def holed (phase : PhaseS) (nextSeq total : U32) : State :=
  { s14 105 with snd := { sndAt phase 0 nextSeq (.armed 5) with totalPackets := total, buf := [(0, k3), (2, k5)] } }
theorem witness_UnreadableEntriesAndBadRecordsStop :
    (configLegal (holed .fill 0 4).snd.cfg = true ∧ (holed .fill 0 4).snd.phase = .fill ∧
      (holed .fill 0 4).snd.buf.read 0 = some k3 ∧ (holed .fill 0 4).snd.buf.read 1 = none ∧ 1 < min (0 + 3) 4) ∧
    ((holed .wait 3 4).snd.phase = .wait ∧ expired (holed .wait 3 4).snd (holed .wait 3 4).now = true ∧
      (holed .wait 3 4).snd.buf.read 0 = some k3 ∧ (holed .wait 3 4).snd.buf.read 1 = none ∧
      1 < (holed .wait 3 4).snd.nextSeq.toNat) ∧
    ((holed .wait 3 1).snd.totalPackets.toNat ≤ 1 ∧ 0 < (holed .wait 3 1).snd.totalPackets.toNat) ∧
    (configLegal (rcvSt .wait 0).rcv.cfg = true ∧ (rcvSt .wait 0).rcv.phase = .wait ∧
      [0x45, 0x46, 0x47].length ≠ (rcvSt .wait 0).rcv.cfg.payloadCapacity) := by decide

end Sys2Proof.Tests
end

section
namespace Sys2Proof.Machine

/-- R113 (d): of the configuration only `CK_ALGO` matters. -/
theorem cksum_congr_ckAlgo {c c' : Config} (h : c.ckAlgo = c'.ckAlgo) (p : Packet) : cksum c p = cksum c' p := by
  simp only [cksum, h]

/-- R112 to R114: the checksum field of the record is not read, whatever the algorithm. -/
@[simp] theorem cksum_set_ck (c : Config) (p : Packet) (ck : U16) : cksum c { p with ck := ck } = cksum c p := by
  unfold cksum
  cases c.ckAlgo with
  | xor16be => rfl
  | xor8 => rfl
  | other k => rfl

/-- Records equal in the four fields a checksum may depend on differ at most in the checksum field. -/
theorem packet_eq_set_ck {p q : Packet} (hseq : p.seq = q.seq) (hack : p.ack = q.ack) (hflags : p.flags = q.flags)
    (hpayload : p.payload = q.payload) : q = { p with ck := q.ck } := by
  cases q
  simp [hseq, hack, hflags, hpayload]

/-- Settles O15: the second record is the first with another checksum field, which CKSUM does not read. -/
theorem checksumKeepsItsContract : Obligations.ChecksumKeepsItsContract := by
  intro c c' p q halgo hseq hack hflags hpayload
  calc cksum c p = cksum c' p := cksum_congr_ckAlgo halgo p
    _ = cksum c' { p with ck := q.ck } := (cksum_set_ck c' p q.ck).symm
    _ = cksum c' q := by rw [← packet_eq_set_ck hseq hack hflags hpayload]

end Sys2Proof.Machine
end

section
namespace Sys2Proof.Machine

theorem chunksFit_iff (c : Config) (n : Nat) (chunks : List Chunk) : chunksFit c n chunks = true ↔
    chunks.length = n ∧ ∀ k ∈ chunks, k.length = c.payloadCapacity := by
  simp [chunksFit]

/-- R131: the state S_START answers under its contract (the converse of `execSStart_next`). -/
theorem exec_sStart_of_chunksFit {n : Nat} {chunks : List Chunk} {s : State} (hcfg : configLegal s.snd.cfg = true)
    (hphase : s.snd.phase = .idle) (hn : n < 2 ^ 32) (hfit : chunksFit s.snd.cfg n chunks = true) :
    exec (.sStart n chunks) s = .next (s.setSnd { s.snd with
      totalPackets := BitVec.ofNat 32 n, buf := writeFrames s.snd.cfg 0 chunks s.snd.buf
      base := 0, nextSeq := 0, timer := .disarmed, phase := .fill }) := by
  change execSStart n chunks s = _
  rw [execSStart, runIn_sender _ _ hcfg (decide_eq_true hphase), if_pos hn, if_pos hfit]

/-- The frames written from entry 0 on: entry `i` is the DATA packet of chunk `i`. -/
theorem read_writeFrames_zero_of_getElem? (c : Config) {ks : List Chunk} (m : Memory) {i : Nat} {k : Chunk}
    (hk : ks[i]? = some k) : (writeFrames c 0 ks m).read i = some (dataPacket c i k) := by
  simp [read_writeFrames, hk]

/-- The frames written from entry 0 on leave every entry past the last chunk alone. -/
theorem read_writeFrames_zero_of_length_le (c : Config) {ks : List Chunk} (m : Memory) {i : Nat}
    (hi : ks.length ≤ i) : (writeFrames c 0 ks m).read i = m.read i := by
  simp [read_writeFrames, List.getElem?_eq_none hi]

theorem byteAt_congr_read {m m' : Memory} {i : Nat} (h : m.read i = m'.read i) (j : Nat) :
    m.byteAt i j = m'.byteAt i j := by
  rw [Memory.byteAt, Memory.byteAt, h]

/-- Settles O23: the state that `exec_sStart_of_chunksFit` names, its buffer read entry by entry. -/
theorem sStartCreatesTheWindow : Obligations.SStartCreatesTheWindow := by
  intro n chunks s hcfg hphase hn hlen hcap
  refine ⟨_, exec_sStart_of_chunksFit hcfg hphase hn ((chunksFit_iff ..).mpr ⟨hlen, hcap⟩), rfl, ?_, ?_⟩
  · intro i k hk
    exact read_writeFrames_zero_of_getElem? s.snd.cfg s.snd.buf hk
  · intro i j hi
    exact byteAt_congr_read (read_writeFrames_zero_of_length_le s.snd.cfg s.snd.buf (hlen.trans_le hi)) j

end Sys2Proof.Machine
end

section
namespace Sys2Proof.Machine

/-! ### A datagram that passes both checks, at a waiting receiver (R163) -/

theorem receiverReceive_of_data {d : Datagram} {p : Packet} {s : State} (hcfg : configLegal s.rcv.cfg = true)
    (hphase : s.rcv.phase = .wait) (hin : checkInbound s.rcv.cfg d = .ok p) (hflags : p.flags = Kind.data.flags) :
    receiverReceive d s = .next (packetAct p.seq p.payload s) := by
  simp only [receiverReceive, hcfg, hphase, hin, hflags, if_true]

theorem receiverReceive_of_fin {d : Datagram} {p : Packet} {s : State} (hcfg : configLegal s.rcv.cfg = true)
    (hphase : s.rcv.phase = .wait) (hin : checkInbound s.rcv.cfg d = .ok p) (hflags : p.flags = Kind.fin.flags) :
    receiverReceive d s = .next (finAct s) := by
  have hne : Kind.fin.flags ≠ Kind.data.flags := by decide
  simp only [receiverReceive, hcfg, hphase, hin, hflags, hne, if_true, if_false]

/-! ### The operations where their rules give them a step -/

/-- R161: the state R_START answers in R_IDLE (the converse of `execRStart_next`). -/
theorem exec_rStart_of_idle {s : State} (hcfg : configLegal s.rcv.cfg = true) (hphase : s.rcv.phase = .idle) :
    exec .rStart s = .next ((s.setExpectedSeq 0).setPhaseR .wait) :=
  runIn_receiver _ _ hcfg (decide_eq_true hphase)

theorem exec_onPacket_of_wait {s : State} {seq : U32} {payload : Chunk} (hcfg : configLegal s.rcv.cfg = true)
    (hphase : s.rcv.phase = .wait) (hlen : payload.length = s.rcv.cfg.payloadCapacity) :
    exec (.onPacket seq payload) s = .next (packetAct seq payload s) := by
  change execOnPacket seq payload s = _
  rw [execOnPacket, runIn_receiver _ _ hcfg (decide_eq_true hphase), if_pos hlen]

theorem exec_onFin_of_wait {s : State} (hcfg : configLegal s.rcv.cfg = true) (hphase : s.rcv.phase = .wait) :
    exec .onFin s = .next (finAct s) :=
  runIn_receiver _ _ hcfg (decide_eq_true hphase)

/-- R164, R166, R167: invoked directly, framed in a datagram, or as a DATA packet on the receiver's port, a packet gets the one
reaction `packetAct`; its `ack` field plays no part. -/
theorem packetAct_by_every_way_in {s : State} {payload : Chunk} (seq ack : U32) (hcfg : configLegal s.rcv.cfg = true)
    (hphase : s.rcv.phase = .wait) (hlen : payload.length = s.rcv.cfg.payloadCapacity) :
    let p : Packet := { seq, ack, ck := 0, flags := 0, payload }
    let ck := cksum s.rcv.cfg p
    exec (.onPacket seq payload) s = .next (packetAct seq payload s) ∧
      exec (.rRx (encodeRec { p with ck := ck })) s = .next (packetAct seq payload s) ∧
      exec (.data .receiver seq ack ck payload) s = .next (packetAct seq payload s) := by
  intro p ck
  have hrecv : receiverReceive (encodeRec { p with ck := ck }) s = .next (packetAct seq payload s) :=
    receiverReceive_of_data hcfg hphase (checkInbound_image hlen) rfl
  exact ⟨exec_onPacket_of_wait hcfg hphase hlen, hrecv, hrecv⟩

/-- R164: the reaction to the packet whose number is `expected_seq`; incrementing and decrementing the counter gives back the
packet's number, modulo 2^32 too. -/
theorem packetAct_inOrder {s : State} {seq : U32} (payload : Chunk) (hseq : seq = s.rcv.expectedSeq) :
    packetAct seq payload s =
      ((s.sinkAppend payload).setExpectedSeq (seq + 1)).txR (ackPacket s.rcv.cfg seq) := by
  obtain ⟨-, hact⟩ | ⟨hne, -⟩ := packetAct_cases seq payload s
  · exact hact
  · exact absurd hseq hne

/-- Settles O33: by every way in the packet gets the one reaction, which appends, counts and acknowledges. -/
theorem inOrderPacketAccepted : Obligations.InOrderPacketAccepted := by
  intro s seq ack payload hcfg hphase hlen hseq
  have hways := packetAct_by_every_way_in seq ack hcfg hphase hlen
  rw [packetAct_inOrder payload hseq] at hways
  exact hways

/-- Settles O36: the framed FIN passes both checks whatever its other fields, and each way in runs the body of ON_FIN. -/
theorem finEndsTheReceiver : Obligations.FinEndsTheReceiver := by
  intro s seq ack payload hcfg hphase hlen p ck after
  have hrecv : receiverReceive (encodeRec { p with ck := ck }) s = after :=
    receiverReceive_of_fin hcfg hphase (checkInbound_image hlen) rfl
  exact ⟨exec_onFin_of_wait hcfg hphase, hrecv, hrecv⟩

/-- Settles O32: the state that `exec_rStart_of_idle` names. -/
theorem rStartCreatesTheCounter : Obligations.RStartCreatesTheCounter :=
  fun _ hcfg hphase => exec_rStart_of_idle hcfg hphase

end Sys2Proof.Machine
end

section
namespace Sys2Proof.Machine

/-! ### The decoder on a packet (R84, R87) and on an event code (R92) -/

/-- A `flags` value of 3 or more is that of no kind (R83). -/
theorem illegal_flags {flags : U16} (h : 3 ≤ flags.toNat) (kind : Kind) : flags ≠ kind.flags := by
  rintro rfl
  cases kind <;> exact absurd h (by decide)

section
variable {d : Datagram} {p : Packet} (side : Side) (hp : decodeRec d = some p)
include hp

theorem decode_packet_data (hf : p.flags = Kind.data.flags) :
    decode (.packet side d) = .ok (.data side p.seq p.ack p.ck p.payload) := by
  simp only [decode, decodePacket, hp, if_pos hf]

theorem decode_packet_ack (hf : p.flags = Kind.ack.flags) :
    decode (.packet side d) = .ok (.ack side p.seq p.ack p.ck p.payload) := by
  have hne : Kind.ack.flags ≠ Kind.data.flags := by decide
  simp only [decode, decodePacket, hp, hf, hne, if_false, if_true]

theorem decode_packet_fin (hf : p.flags = Kind.fin.flags) :
    decode (.packet side d) = .ok (.fin side p.seq p.ack p.ck p.payload) := by
  have hne : Kind.fin.flags ≠ Kind.data.flags ∧ Kind.fin.flags ≠ Kind.ack.flags := by decide
  simp only [decode, decodePacket, hp, hf, hne, if_false, if_true]

theorem decode_packet_illegal (hf : 3 ≤ p.flags.toNat) :
    decode (.packet side d) = .ok (.badflagDrop side p.seq p.ack p.ck p.flags p.payload) := by
  simp only [decode, decodePacket, hp, illegal_flags hf, if_false]

end

/-- Settles O1: a wire kind is read back from its image by its flags, any other operation from its code. -/
theorem decodeEncodeAgree : Obligations.DecodeEncodeAgree := by
  intro i hwf
  cases i with
  | data side seq ack ck payload => exact decode_packet_data side (decodeRec_encodeRec _) rfl
  | ack side seq ack ck payload => exact decode_packet_ack side (decodeRec_encodeRec _) rfl
  | fin side seq ack ck payload => exact decode_packet_fin side (decodeRec_encodeRec _) rfl
  | badflagDrop side seq ack ck flags payload =>
    exact decode_packet_illegal side (decodeRec_encodeRec _) (of_decide_eq_true hwf)
  | _ => rfl

/-- Settles O2: each word is evaluated. -/
theorem writtenWordsDecode : Obligations.WrittenWordsDecode := by
  unfold Obligations.WrittenWordsDecode
  decide

/-- R92: a code either names an operation and is listed, or is refused. -/
theorem decodeEvent_cases (code : Byte) (a : Args) :
    (code.toNat ∈ [0x00, 0x01, 0x02, 0x03, 0x04, 0x10, 0x11, 0x12, 0x13, 0x14, 0x15, 0x20, 0x21, 0x22, 0x23,
        0x30, 0x31, 0x32] ∧ ∃ i, decodeEvent code a = .ok i) ∨
    (code.toNat ∉ [0x00, 0x01, 0x02, 0x03, 0x04, 0x10, 0x11, 0x12, 0x13, 0x14, 0x15, 0x20, 0x21, 0x22, 0x23,
        0x30, 0x31, 0x32] ∧ decodeEvent code a = .error (.unknownCode code)) := by
  unfold decodeEvent
  split
  case h_19 => exact .inr ⟨by simp_all, rfl⟩
  all_goals
    rename_i hcode
    exact .inl ⟨by rw [hcode]; decide, _, rfl⟩

theorem step_invoke {s : State} {f : Fetched} {ts : List Turn} (hs : s.schedule = .invoke f :: ts) :
    step s = match decode f with
      | .ok i => exec i { s with schedule := ts }
      | .error e => .refused (.undecodable e) := by
  rw [step, select_cons hs]
  rfl

/-- Settles O3: by the two cases of `decodeEvent_cases`; a refused code stops the step that presents it. -/
theorem unlistedCodesRefused : Obligations.UnlistedCodesRefused := by
  intro code a
  obtain ⟨hin, hok⟩ | ⟨hout, herr⟩ := decodeEvent_cases code a
  · exact ⟨fun _ => hok, fun hnot => absurd hin hnot⟩
  · refine ⟨fun hin => absurd hin hout, fun _ => ⟨herr, fun s ts hs => ?_⟩⟩
    have hdec : decode (.event code a) = .error (.unknownCode code) := herr
    rw [step_invoke hs, hdec]

/-! ### The number that bytes stand for (R11, R81) -/

theorem headerNumber_append (a b : List Byte) :
    headerNumber (a ++ b) = headerNumber a * 256 ^ b.length + headerNumber b := by
  induction b using List.reverseRecOn with
  | nil => simp [headerNumber]
  | append_singleton b x ih =>
    simp only [headerNumber, List.foldl_append, List.foldl_cons, List.foldl_nil, List.length_append,
      List.length_singleton, pow_succ] at ih ⊢
    rw [ih]
    ring

theorem headerNumber_lt (a : List Byte) : headerNumber a < 256 ^ a.length := by
  induction a using List.reverseRecOn with
  | nil => simp [headerNumber]
  | append_singleton a x ih =>
    have hx := x.isLt
    rw [headerNumber_append, List.length_append, List.length_singleton, pow_succ]
    simp only [headerNumber, List.foldl_cons, List.foldl_nil] at ih ⊢
    omega

theorem toNat_be16 (a b : Byte) : (be16 a b).toNat = headerNumber [a, b] := by
  have hb := b.isLt
  simp only [be16, BitVec.toNat_append, headerNumber, List.foldl_cons, List.foldl_nil]
  rw [← Nat.shiftLeft_add_eq_or_of_lt hb, Nat.shiftLeft_eq]
  omega

theorem toNat_be32 (a b c d : Byte) : (be32 a b c d).toNat = headerNumber [a, b, c, d] := by
  have hlt := (be16 c d).isLt
  simp only [be32, BitVec.toNat_append]
  rw [← Nat.shiftLeft_add_eq_or_of_lt hlt, Nat.shiftLeft_eq, toNat_be16, toNat_be16]
  simpa using (headerNumber_append [a, b] [c, d]).symm

/-- R81: the fields of twelve header bytes are the bits 95:64, 63:32, 31:16 and 15:0 of their number. -/
theorem decodeRec_header_bits {h : List Byte} (payload : Chunk) (hlen : h.length = 12) :
    decodeRec (h ++ payload) = some
      { seq := BitVec.ofNat 32 (headerNumber h / 2 ^ 64), ack := BitVec.ofNat 32 (headerNumber h / 2 ^ 32)
        ck := BitVec.ofNat 16 (headerNumber h / 2 ^ 16), flags := BitVec.ofNat 16 (headerNumber h)
        payload := payload } := by
  obtain ⟨b0, b1, b2, b3, b4, b5, b6, b7, b8, b9, b10, b11, rest, rfl⟩ := header_shape (d := h) hlen.ge
  obtain rfl : rest = [] := List.length_eq_zero_iff.mp (by simpa using hlen)
  have hw : headerNumber [b0, b1, b2, b3, b4, b5, b6, b7, b8, b9, b10, b11] =
      ((headerNumber [b0, b1, b2, b3] * 2 ^ 32 + headerNumber [b4, b5, b6, b7]) * 2 ^ 16 +
        headerNumber [b8, b9]) * 2 ^ 16 + headerNumber [b10, b11] := by
    simp only [headerNumber, List.foldl_cons, List.foldl_nil]
    ring
  have h0 := headerNumber_lt [b0, b1, b2, b3]
  have h4 := headerNumber_lt [b4, b5, b6, b7]
  have h8 := headerNumber_lt [b8, b9]
  have h10 := headerNumber_lt [b10, b11]
  simp only [List.length_cons, List.length_nil] at h0 h4 h8 h10
  simp only [List.cons_append, List.nil_append, decodeRec_of_header, Option.some.injEq, Packet.mk.injEq, and_true,
    ← BitVec.toNat_inj, BitVec.toNat_ofNat, toNat_be32, toNat_be16, hw]
  omega

/-- Settles O4: the header's fields are the bits of its number, and its flags select the row. -/
theorem kindSelectedByMaskAndMatch : Obligations.KindSelectedByMaskAndMatch := by
  intro side h payload hlen w seq ack ck
  have hdec := decodeRec_header_bits payload hlen
  have hmask : w &&& 0xFFFF = (BitVec.ofNat 16 w).toNat :=
    (Nat.and_two_pow_sub_one_eq_mod w 16).trans (BitVec.toNat_ofNat w 16).symm
  rw [hmask]
  exact ⟨fun h0 => decode_packet_data side hdec (BitVec.eq_of_toNat_eq h0),
    fun h1 => decode_packet_ack side hdec (BitVec.eq_of_toNat_eq h1),
    fun h2 => decode_packet_fin side hdec (BitVec.eq_of_toNat_eq h2), decode_packet_illegal side hdec⟩

end Sys2Proof.Machine
end

section
namespace Sys2Proof.Machine

/-! ### What an operation can do to each machine

Said once for every operation: the rules that quantify over all operations, and the invariants over all steps, are read off the
constructors. -/

/-- What operation `i` can make of the sender's registers `x` at time `now`, and the datagrams it emits for the sender. -/
inductive SenderEffect (now : Nat) (x : Sender) : Instr → Sender → List Datagram → Prop
  | none (i : Instr) : SenderEffect now x i x []
  | arm (hphase : x.phase = .fill) (htimer : x.timer = .disarmed) (hout : x.base.toNat < x.nextSeq.toNat) :
      SenderEffect now x .arm { x with timer := .armed now } []
  | disarm (hphase : x.phase = .wait ∨ x.phase = .fill) (hend : x.base = x.nextSeq) :
      SenderEffect now x .disarm { x with timer := .disarmed } []
  | restart (hphase : x.phase = .wait ∨ x.phase = .fill) (htimer : isArmed x.timer = true)
      (hout : x.base.toNat < x.nextSeq.toNat) : SenderEffect now x .restart { x with timer := .armed now } []
  | start (n : Nat) (chunks : List Chunk) (hphase : x.phase = .idle) (hn : n < 2 ^ 32)
      (hfit : chunksFit x.cfg n chunks = true) :
      SenderEffect now x (.sStart n chunks)
        { x with
          totalPackets := BitVec.ofNat 32 n, buf := writeFrames x.cfg 0 chunks x.buf
          base := 0, nextSeq := 0, timer := .disarmed, phase := .fill } []
  | fill (next : U32) (ds : List Datagram) (hphase : x.phase = .fill) (hbase : x.base.toNat < x.totalPackets.toNat)
      (hnext : next.toNat = x.nextSeq.toNat + ds.length)
      (hread : ∀ j, j < ds.length → x.buf.read (x.nextSeq.toNat + j) = ds[j]?)
      (hbound : ds ≠ [] → next.toNat ≤ x.base.toNat + x.cfg.windowSize ∧ next.toNat ≤ x.totalPackets.toNat) :
      SenderEffect now x .fillWindow
        { x with
          nextSeq := next
          timer := if isArmed x.timer = false ∧ x.base.toNat < next.toNat then .armed now else x.timer
          phase := .wait } ds
  | timeout (ds : List Datagram) (hphase : x.phase = .wait) (hexp : expired x now = true)
      (hlen : ds.length = x.nextSeq.toNat - x.base.toNat)
      (hread : ∀ j, j < ds.length → x.base.toNat + j < x.totalPackets.toNat ∧ x.buf.read (x.base.toNat + j) = ds[j]?) :
      SenderEffect now x .onTimeout { x with timer := .armed now, phase := .fill } ds
  | finish (hphase : x.phase = .fin) :
      SenderEffect now x .finish { x with phase := .done } (List.replicate x.cfg.finRepeat (finPacket x.cfg))
  | drop (i : Instr) (howner : ownerOf i = some .sender) (hphase : x.phase = .wait) :
      SenderEffect now x i { x with phase := .fill } []
  | ack (i : Instr) (a : U32) (phase : PhaseS) (howner : ownerOf i = some .sender)
      (hphase : x.phase = .wait ∨ x.phase = .fill) (hafter : phase = .wait ∨ phase = .fill)
      (hqual : qualifies x a = true) :
      SenderEffect now x i
        { x with
          phase := phase, base := a + 1
          timer := if a + 1 = x.nextSeq then .disarmed else .armed now } []

/-- What operation `i` can make of the receiver's registers `r`, the chunks it appends to the sink and the datagrams it emits
for the receiver. -/
inductive ReceiverEffect (r : Receiver) : Instr → Receiver → List Chunk → List Datagram → Prop
  | none (i : Instr) : ReceiverEffect r i r [] []
  | start (hphase : r.phase = .idle) :
      ReceiverEffect r .rStart { r with expectedSeq := 0, phase := .wait } [] []
  | accept (i : Instr) (c : Chunk) (howner : ownerOf i = some .receiver) (hphase : r.phase = .wait)
      (hcap : c.length = r.cfg.payloadCapacity) :
      ReceiverEffect r i { r with expectedSeq := r.expectedSeq + 1 } [c] [ackPacket r.cfg r.expectedSeq]
  | reack (i : Instr) (a : U32) (howner : ownerOf i = some .receiver) (hphase : r.phase = .wait)
      (hack : r.expectedSeq ≠ 0 ∧ a = r.expectedSeq - 1 ∨ r.expectedSeq = 0 ∧ a = 0xFFFFFFFF) :
      ReceiverEffect r i r [] [ackPacket r.cfg a]
  | finish (i : Instr) (howner : ownerOf i = some .receiver) (hphase : r.phase = .wait) :
      ReceiverEffect r i { r with phase := .done } [] []

/-- The sender's side of a step from `s` to `t` is an effect of operation `i`. -/
def SenderDoes (i : Instr) (s t : State) : Prop :=
  ∃ ds, SenderEffect s.now s.snd i t.snd ds ∧ t.toRcv.flying = s.toRcv.flying ++ ds

/-- The receiver's side of a step from `s` to `t` is an effect of operation `i`. -/
def ReceiverDoes (i : Instr) (s t : State) : Prop :=
  ∃ cs ds, ReceiverEffect s.rcv i t.rcv cs ds ∧ t.sink = s.sink ++ cs ∧ t.toSnd.flying = s.toSnd.flying ++ ds

theorem senderDoes_none (i : Instr) {s t : State} (hsnd : t.snd = s.snd)
    (hfly : t.toRcv.flying = s.toRcv.flying) : SenderDoes i s t :=
  ⟨[], hsnd ▸ .none i, by simpa using hfly⟩

theorem receiverDoes_none (i : Instr) {s t : State} (hrcv : t.rcv = s.rcv) (hsink : t.sink = s.sink)
    (hfly : t.toSnd.flying = s.toSnd.flying) : ReceiverDoes i s t :=
  ⟨[], [], hrcv ▸ .none i, by simpa using hsink, by simpa using hfly⟩

/-! ### The operations, each with its effect -/

theorem qualifies_iff (x : Sender) (a : U32) : qualifies x a = true ↔
    x.base.toNat < (a + 1).toNat ∧ (a + 1).toNat ≤ x.nextSeq.toNat := by
  simp [qualifies, ackNext]

theorem eq_disarmed_of_isArmed {tm : Timer} (h : isArmed tm = false) : tm = .disarmed := by
  cases tm with
  | disarmed => rfl
  | armed a => cases h

theorem senderDoes_timerPrimitive {i : Instr} {s t : State} (hi : isTimerPrimitive i = true)
    (h : exec i s = .next t) : SenderDoes i s t := by
  obtain ⟨hphase, ⟨rfl, hfill, htimer, hout, rfl⟩ | ⟨rfl, hend, rfl⟩ | ⟨rfl, htimer, hout, rfl⟩⟩ :=
    exec_timer_next hi h
  · exact ⟨[], .arm hfill (eq_disarmed_of_isArmed htimer) ((outstanding_iff _).mp hout), by simp⟩
  · exact ⟨[], .disarm hphase hend, by simp⟩
  · exact ⟨[], .restart hphase htimer ((outstanding_iff _).mp hout), by simp⟩

theorem senderDoes_fillWindow {s t : State} (h : execFillWindow s = .next t) : SenderDoes .fillWindow s t := by
  obtain ⟨-, hphase, hbase, ds, hread, hbound, -, rfl⟩ := execFillWindow_next h
  have hnext : (s.snd.nextSeq + BitVec.ofNat 32 ds.length).toNat = s.snd.nextSeq.toNat + ds.length := by
    have htotal := s.snd.totalPackets.isLt
    have hlt := s.snd.nextSeq.isLt
    rw [BitVec.toNat_add, BitVec.toNat_ofNat]
    by_cases hds : ds = []
    · have hnil : ds.length = 0 := by simp [hds]
      omega
    · have hle := (hbound hds).2
      omega
  exact ⟨ds, .fill _ ds hphase hbase hnext hread (hnext ▸ hbound), rfl⟩

/-- ON_ACK's body, run in `phase` on a sender that waited or reacted. -/
theorem senderDoes_ackAct {i : Instr} {a : U32} {phase : PhaseS} {s t : State} (howner : ownerOf i = some .sender)
    (hphase : s.snd.phase = .wait ∨ s.snd.phase = .fill) (hafter : phase = .wait ∨ phase = .fill)
    (hsame : phase = s.snd.phase ∨ s.snd.phase = .wait ∧ phase = .fill)
    (h : ackAct a (s.setPhaseS phase) = .next t) : SenderDoes i s t := by
  obtain ⟨hqual, rfl⟩ | ⟨-, _, rfl⟩ := ackAct_next h
  · exact ⟨[], .ack i a phase howner hphase hafter hqual, by simp⟩
  · obtain rfl | ⟨hwait, rfl⟩ := hsame
    · exact senderDoes_none i rfl rfl
    · exact ⟨[], .drop i howner hwait, by simp⟩

theorem senderDoes_senderReceive {i : Instr} {d : Datagram} {s t : State} (howner : ownerOf i = some .sender)
    (h : senderReceive d s = .next t) : SenderDoes i s t := by
  obtain ⟨-, ⟨-, rfl⟩ | ⟨hphase, _, rfl⟩ | ⟨hphase, p, -, -, hack⟩⟩ := senderReceive_next h
  · exact senderDoes_none i rfl rfl
  · exact ⟨[], .drop i howner hphase, by simp⟩
  · exact senderDoes_ackAct howner (.inl hphase) (.inr rfl) (.inr ⟨hphase, rfl⟩) hack

theorem receiverDoes_packetAct {i : Instr} {q : U32} {c : Chunk} {s : State} (howner : ownerOf i = some .receiver)
    (hphase : s.rcv.phase = .wait) (hcap : c.length = s.rcv.cfg.payloadCapacity) :
    ReceiverDoes i s (packetAct q c s) := by
  obtain ⟨rfl, hact⟩ | ⟨-, ds, _, hact, hds⟩ := packetAct_cases q c s
  · rw [hact]
    exact ⟨[c], _, .accept i c howner hphase hcap, rfl, rfl⟩
  · rw [hact]
    obtain rfl | ⟨hne, rfl⟩ | ⟨hzero, rfl⟩ := hds
    · exact receiverDoes_none i rfl rfl (by simp)
    · exact ⟨[], _, .reack i _ howner hphase (.inl ⟨hne, rfl⟩), by simp, rfl⟩
    · exact ⟨[], _, .reack i _ howner hphase (.inr ⟨hzero, rfl⟩), by simp, rfl⟩

theorem receiverDoes_receiverReceive {i : Instr} {d : Datagram} {s t : State}
    (howner : ownerOf i = some .receiver) (h : receiverReceive d s = .next t) : ReceiverDoes i s t := by
  obtain ⟨-, ⟨-, rfl⟩ | ⟨-, _, rfl⟩ | ⟨hphase, p, hin, -, rfl⟩ | ⟨hphase, p, -, -, rfl⟩⟩ := receiverReceive_next h
  · exact receiverDoes_none i rfl rfl rfl
  · exact receiverDoes_none i rfl rfl rfl
  · exact receiverDoes_packetAct howner hphase (checkInbound_payload hin)
  · exact ⟨[], [], .finish i howner hphase, by simp [finAct], by simp [finAct]⟩

/-- ON_PACKET's body leaves the sender and what it emitted alone, whatever it does. -/
theorem packetAct_leaves_sender (q : U32) (c : Chunk) (s : State) :
    (packetAct q c s).snd = s.snd ∧ (packetAct q c s).toRcv = s.toRcv := by
  obtain ⟨-, hact⟩ | ⟨-, ds, _, hact, -⟩ := packetAct_cases q c s <;> exact ⟨by simp [hact], by simp [hact]⟩

theorem receiverReceive_leaves_sender {d : Datagram} {s t : State} (h : receiverReceive d s = .next t) :
    t.snd = s.snd ∧ t.toRcv.flying = s.toRcv.flying := by
  obtain ⟨-, ⟨-, rfl⟩ | ⟨-, _, rfl⟩ | ⟨-, p, -, -, rfl⟩ | ⟨-, p, -, -, rfl⟩⟩ := receiverReceive_next h
  · exact ⟨rfl, rfl⟩
  · exact ⟨rfl, rfl⟩
  · exact (packetAct_leaves_sender ..).imp_right (congrArg Lane.flying)
  · exact ⟨rfl, rfl⟩

theorem ackAct_leaves_receiver {a : U32} {s t : State} (h : ackAct a s = .next t) :
    t.rcv = s.rcv ∧ t.sink = s.sink ∧ t.toSnd = s.toSnd := by
  obtain ⟨-, rfl⟩ | ⟨-, _, rfl⟩ := ackAct_next h <;> exact ⟨rfl, rfl, rfl⟩

theorem senderReceive_leaves_receiver {d : Datagram} {s t : State} (h : senderReceive d s = .next t) :
    t.rcv = s.rcv ∧ t.sink = s.sink ∧ t.toSnd.flying = s.toSnd.flying := by
  obtain ⟨-, ⟨-, rfl⟩ | ⟨-, _, rfl⟩ | ⟨-, p, -, -, hack⟩⟩ := senderReceive_next h
  · exact ⟨rfl, rfl, rfl⟩
  · exact ⟨rfl, rfl, rfl⟩
  · obtain ⟨hrcv, hsink, hlane⟩ := ackAct_leaves_receiver hack
    exact ⟨hrcv, hsink, congrArg Lane.flying hlane⟩

/-- Every operation that answers has one of the listed effects on each machine. -/
theorem exec_effects {i : Instr} {s t : State} (h : exec i s = .next t) : SenderDoes i s t ∧ ReceiverDoes i s t := by
  obtain ⟨-, _, rfl⟩ | ⟨hi, h⟩ | ⟨n, cs, rfl, h⟩ | ⟨rfl, h⟩ | ⟨a, rfl, h⟩ | ⟨rfl, h⟩ | ⟨rfl, h⟩ | ⟨rfl, h⟩ |
    ⟨q, c, rfl, h⟩ | ⟨rfl, h⟩ | ⟨d, howner, h⟩ | ⟨d, howner, h⟩ := exec_next_cases h
  · -- a codec operation
    exact ⟨senderDoes_none i rfl rfl, receiverDoes_none i rfl rfl rfl⟩
  · -- a timer primitive
    refine ⟨senderDoes_timerPrimitive hi h, ?_⟩
    obtain ⟨-, ⟨-, -, -, -, rfl⟩ | ⟨-, -, rfl⟩ | ⟨-, -, -, rfl⟩⟩ := exec_timer_next hi h <;>
      exact receiverDoes_none i rfl rfl rfl
  · -- S_START
    obtain ⟨-, hphase, hn, hlen, hcap, rfl⟩ := execSStart_next h
    exact ⟨⟨[], .start n cs hphase hn ((chunksFit_iff ..).mpr ⟨hlen, hcap⟩), by simp⟩,
      receiverDoes_none _ rfl rfl rfl⟩
  · -- FILL_WINDOW
    refine ⟨senderDoes_fillWindow h, ?_⟩
    obtain ⟨-, -, -, ds, -, -, -, rfl⟩ := execFillWindow_next h
    exact receiverDoes_none _ rfl rfl rfl
  · -- ON_ACK
    obtain ⟨hphase, hack⟩ := execOnAck_next h
    obtain ⟨hrcv, hsink, hlane⟩ := ackAct_leaves_receiver hack
    exact ⟨senderDoes_ackAct rfl hphase hphase (.inl rfl) hack,
      receiverDoes_none _ hrcv hsink (congrArg Lane.flying hlane)⟩
  · -- ON_TIMEOUT
    obtain ⟨-, hphase, hexp, ds, hlen, hread, rfl⟩ := execOnTimeout_next h
    exact ⟨⟨ds, .timeout ds hphase hexp hlen hread, rfl⟩, receiverDoes_none _ rfl rfl rfl⟩
  · -- FINISH
    obtain ⟨-, hphase, rfl⟩ := execFinish_next h
    exact ⟨⟨_, .finish hphase, rfl⟩, receiverDoes_none _ rfl rfl rfl⟩
  · -- R_START
    obtain ⟨hphase, rfl⟩ := execRStart_next h
    exact ⟨senderDoes_none _ rfl rfl, [], [], .start hphase, by simp, by simp⟩
  · -- ON_PACKET
    obtain ⟨hphase, hcap, rfl⟩ := execOnPacket_next h
    obtain ⟨hsnd, hlane⟩ := packetAct_leaves_sender q c s
    exact ⟨senderDoes_none _ hsnd (congrArg Lane.flying hlane), receiverDoes_packetAct rfl hphase hcap⟩
  · -- ON_FIN
    obtain ⟨hphase, rfl⟩ := execOnFin_next h
    exact ⟨senderDoes_none _ rfl rfl, [], [], .finish _ rfl hphase, by simp [finAct], by simp [finAct]⟩
  · -- a reception at the sender
    obtain ⟨hrcv, hsink, hfly⟩ := senderReceive_leaves_receiver h
    exact ⟨senderDoes_senderReceive howner h, receiverDoes_none i hrcv hsink hfly⟩
  · -- a reception at the receiver
    obtain ⟨hsnd, hfly⟩ := receiverReceive_leaves_sender h
    exact ⟨senderDoes_none i hsnd hfly, receiverDoes_receiverReceive howner h⟩

end Sys2Proof.Machine
end

section
namespace Sys2Proof.Machine

/-! ### What no effect changes, and what changes only as the rules say -/

section
variable {now : Nat} {x x' : Sender} {i : Instr} {ds : List Datagram}

theorem SenderEffect.eq_of_not_owner (h : SenderEffect now x i x' ds) (howner : ownerOf i ≠ some .sender) :
    x' = x ∧ ds = [] := by
  cases h with
  | none => exact ⟨rfl, rfl⟩
  | drop _ hs => exact absurd hs howner
  | ack _ _ _ hs => exact absurd hs howner
  | _ => exact absurd rfl howner

theorem SenderEffect.cfg_eq (h : SenderEffect now x i x' ds) : x'.cfg = x.cfg := by
  cases h <;> rfl

/-- An effect is a start from S_IDLE, or it keeps the transfer and moves the window upwards. -/
theorem SenderEffect.start_or_kept (h : SenderEffect now x i x' ds) :
    (isSStart i = true ∧ x.phase = .idle) ∨
    (x'.totalPackets = x.totalPackets ∧ x'.buf = x.buf ∧
      x.base.toNat ≤ x'.base.toNat ∧ x.nextSeq.toNat ≤ x'.nextSeq.toNat) := by
  cases h with
  | start _ _ hphase => exact .inl ⟨rfl, hphase⟩
  | fill _ _ _ _ hnext => exact .inr ⟨rfl, rfl, le_refl _, hnext ▸ Nat.le_add_right ..⟩
  | ack _ _ _ _ _ _ hqual => exact .inr ⟨rfl, rfl, ((qualifies_iff ..).mp hqual).1.le, le_refl _⟩
  | _ => exact .inr ⟨rfl, rfl, le_refl _, le_refl _⟩

theorem SenderEffect.kept (h : SenderEffect now x i x' ds) (hi : isSStart i = false) :
    x'.totalPackets = x.totalPackets ∧ x'.buf = x.buf ∧
      x.base.toNat ≤ x'.base.toNat ∧ x.nextSeq.toNat ≤ x'.nextSeq.toNat :=
  h.start_or_kept.resolve_left fun hstart => absurd (hi.symm.trans hstart.1) Bool.false_ne_true

/-- R42, R144: no effect is possible in S_DONE. -/
theorem SenderEffect.eq_of_done (h : SenderEffect now x i x' ds) (hdone : x.phase = .done) : x' = x ∧ ds = [] := by
  cases h with
  | none => exact ⟨rfl, rfl⟩
  | disarm hphase => simp [hdone] at hphase
  | restart hphase => simp [hdone] at hphase
  | ack _ _ _ _ hphase => simp [hdone] at hphase
  | arm hphase => cases hdone.symm.trans hphase
  | start _ _ hphase => cases hdone.symm.trans hphase
  | fill _ _ hphase => cases hdone.symm.trans hphase
  | timeout _ hphase => cases hdone.symm.trans hphase
  | finish hphase => cases hdone.symm.trans hphase
  | drop _ _ hphase => cases hdone.symm.trans hphase

end

section
variable {r r' : Receiver} {i : Instr} {cs : List Chunk} {ds : List Datagram}

theorem ReceiverEffect.eq_of_not_owner (h : ReceiverEffect r i r' cs ds) (howner : ownerOf i ≠ some .receiver) :
    r' = r ∧ cs = [] ∧ ds = [] := by
  cases h with
  | none => exact ⟨rfl, rfl, rfl⟩
  | start => exact absurd rfl howner
  | accept _ _ hr => exact absurd hr howner
  | reack _ _ hr => exact absurd hr howner
  | finish _ hr => exact absurd hr howner

theorem ReceiverEffect.cfg_eq (h : ReceiverEffect r i r' cs ds) : r'.cfg = r.cfg := by
  cases h <;> rfl

/-- R42, R170: no effect is possible in R_DONE. -/
theorem ReceiverEffect.eq_of_done (h : ReceiverEffect r i r' cs ds) (hdone : r.phase = .done) :
    r' = r ∧ cs = [] ∧ ds = [] := by
  cases h with
  | none => exact ⟨rfl, rfl, rfl⟩
  | start hphase => cases hdone.symm.trans hphase
  | accept _ _ _ hphase => cases hdone.symm.trans hphase
  | reack _ _ _ hphase => cases hdone.symm.trans hphase
  | finish _ _ hphase => cases hdone.symm.trans hphase

theorem toNat_add_one {v : U32} (h : v ≠ 0xFFFFFFFF) : (v + 1).toNat = v.toNat + 1 := by
  have hlt := v.isLt
  have hne : v.toNat ≠ 0xFFFFFFFF := fun heq => h (BitVec.eq_of_toNat_eq heq)
  rw [BitVec.toNat_add]
  simp
  omega

theorem ReceiverEffect.expectedSeq_le (h : ReceiverEffect r i r' cs ds) (hi : i ≠ .rStart)
    (hmax : r.expectedSeq ≠ 0xFFFFFFFF) :
    r.expectedSeq.toNat ≤ r'.expectedSeq.toNat ∧ r'.expectedSeq.toNat ≤ r.expectedSeq.toNat + 1 := by
  cases h with
  | start => exact absurd rfl hi
  | accept =>
    have hadd := toNat_add_one hmax
    exact ⟨hadd ▸ Nat.le_succ _, hadd.le⟩
  | _ => exact ⟨le_refl _, Nat.le_succ _⟩

end

/-! ### The rules over every operation -/

section
variable {i : Instr} {s t : State}

theorem SenderDoes.of_eq (h : SenderDoes i s t)
    (heq : ∀ {x ds}, SenderEffect s.now s.snd i x ds → x = s.snd ∧ ds = []) :
    t.snd = s.snd ∧ t.toRcv.flying = s.toRcv.flying := by
  obtain ⟨ds, heff, hfly⟩ := h
  obtain ⟨hsnd, rfl⟩ := heq heff
  exact ⟨hsnd, by simpa using hfly⟩

theorem ReceiverDoes.of_eq (h : ReceiverDoes i s t)
    (heq : ∀ {r cs ds}, ReceiverEffect s.rcv i r cs ds → r = s.rcv ∧ cs = [] ∧ ds = []) :
    t.rcv = s.rcv ∧ t.sink = s.sink ∧ t.toSnd.flying = s.toSnd.flying := by
  obtain ⟨cs, ds, heff, hsink, hfly⟩ := h
  obtain ⟨hrcv, rfl, rfl⟩ := heq heff
  exact ⟨hrcv, by simpa using hsink, by simpa using hfly⟩

/-- The time, the schedule and the field `result` are as before. -/
def SameOutside (s t : State) : Prop := t.now = s.now ∧ t.schedule = s.schedule ∧ t.result = s.result

theorem sameOutside_packetAct (q : U32) (c : Chunk) (s : State) : SameOutside s (packetAct q c s) := by
  obtain ⟨-, hact⟩ | ⟨-, _, _, hact, -⟩ := packetAct_cases q c s <;> rw [hact] <;> exact ⟨rfl, rfl, rfl⟩

theorem sameOutside_ackAct {a : U32} (h : ackAct a s = .next t) : SameOutside s t := by
  obtain ⟨-, rfl⟩ | ⟨-, _, rfl⟩ := ackAct_next h <;> exact ⟨rfl, rfl, rfl⟩

/-- Nothing but a codec operation's value is written outside the two machines and the channel. -/
theorem exec_sameOutside (h : exec i s = .next t) :
    SameOutside s t ∨ ownerOf i = none ∧ ∃ r, t = s.giveBack r := by
  obtain hcodec | ⟨hi, h⟩ | ⟨n, cs, -, h⟩ | ⟨-, h⟩ | ⟨a, -, h⟩ | ⟨-, h⟩ | ⟨-, h⟩ | ⟨-, h⟩ |
    ⟨q, c, -, h⟩ | ⟨-, h⟩ | ⟨d, -, h⟩ | ⟨d, -, h⟩ := exec_next_cases h
  · exact .inr hcodec
  · obtain ⟨-, ⟨-, -, -, -, rfl⟩ | ⟨-, -, rfl⟩ | ⟨-, -, -, rfl⟩⟩ := exec_timer_next hi h <;>
      exact .inl ⟨rfl, rfl, rfl⟩
  · obtain ⟨-, -, -, -, -, rfl⟩ := execSStart_next h
    exact .inl ⟨rfl, rfl, rfl⟩
  · obtain ⟨-, -, -, ds, -, -, -, rfl⟩ := execFillWindow_next h
    exact .inl ⟨rfl, rfl, rfl⟩
  · exact .inl (sameOutside_ackAct (execOnAck_next h).2)
  · obtain ⟨-, -, -, ds, -, -, rfl⟩ := execOnTimeout_next h
    exact .inl ⟨rfl, rfl, rfl⟩
  · obtain ⟨-, -, rfl⟩ := execFinish_next h
    exact .inl ⟨rfl, rfl, rfl⟩
  · obtain ⟨-, rfl⟩ := execRStart_next h
    exact .inl ⟨rfl, rfl, rfl⟩
  · obtain ⟨-, -, rfl⟩ := execOnPacket_next h
    exact .inl (sameOutside_packetAct q c s)
  · obtain ⟨-, rfl⟩ := execOnFin_next h
    exact .inl ⟨rfl, rfl, rfl⟩
  · obtain ⟨-, ⟨-, rfl⟩ | ⟨-, _, rfl⟩ | ⟨-, _, -, -, hack⟩⟩ := senderReceive_next h
    · exact .inl ⟨rfl, rfl, rfl⟩
    · exact .inl ⟨rfl, rfl, rfl⟩
    · exact .inl (show SameOutside (s.setPhaseS .fill) t from sameOutside_ackAct hack)
  · obtain ⟨-, ⟨-, rfl⟩ | ⟨-, _, rfl⟩ | ⟨-, p, -, -, rfl⟩ | ⟨-, _, -, -, rfl⟩⟩ := receiverReceive_next h
    · exact .inl ⟨rfl, rfl, rfl⟩
    · exact .inl ⟨rfl, rfl, rfl⟩
    · exact .inl (sameOutside_packetAct p.seq p.payload s)
    · exact .inl ⟨rfl, rfl, rfl⟩

theorem exec_now (h : exec i s = .next t) : t.now = s.now := by
  obtain ⟨hnow, -, -⟩ | ⟨-, _, rfl⟩ := exec_sameOutside h
  · exact hnow
  · rfl

theorem exec_schedule (h : exec i s = .next t) : t.schedule = s.schedule := by
  obtain ⟨-, hsched, -⟩ | ⟨-, _, rfl⟩ := exec_sameOutside h
  · exact hsched
  · rfl

end

/-- Settles O45: an operation of another owner has no effect on a machine, and none writes the time or the schedule. -/
theorem onlyTheOwnerWritesItsRegisters : Obligations.OnlyTheOwnerWritesItsRegisters := by
  intro i s t h
  obtain ⟨hsnd, hrcv⟩ := exec_effects h
  refine ⟨fun ho => hrcv.of_eq fun heff => heff.eq_of_not_owner ho,
    fun ho => hsnd.of_eq fun heff => heff.eq_of_not_owner ho, fun ho => ?_, exec_now h, exec_schedule h⟩
  obtain ⟨-, -, hresult⟩ | ⟨hnone, -⟩ := exec_sameOutside h
  · exact hresult
  · exact absurd hnone ho

/-- Settles O46: no effect writes a configuration, and none but S_START's writes `total_packets` or the buffer. -/
theorem bufferAndConfigurationImmutable : Obligations.BufferAndConfigurationImmutable := by
  intro i s t h
  obtain ⟨⟨_, hsnd, -⟩, ⟨_, _, hrcv, -, -⟩⟩ := exec_effects h
  refine ⟨hsnd.cfg_eq, hrcv.cfg_eq, fun hi => ?_⟩
  obtain ⟨htotal, hbuf, -, -⟩ := hsnd.kept hi
  exact ⟨htotal, fun a j => by rw [hbuf]⟩

/-- Settles O47: in S_DONE and in R_DONE no effect is possible. -/
theorem finalPhasesAreFrozen : Obligations.FinalPhasesAreFrozen := by
  intro i s t h
  obtain ⟨hsnd, hrcv⟩ := exec_effects h
  exact ⟨fun hdone => hsnd.of_eq fun heff => heff.eq_of_done hdone,
    fun hdone => hrcv.of_eq fun heff => heff.eq_of_done hdone⟩

/-- Settles O48: each effect but a start moves the sequence registers upwards. -/
theorem sequenceRegistersNeverDecrease : Obligations.SequenceRegistersNeverDecrease := by
  intro i s t h
  obtain ⟨⟨_, hsnd, -⟩, ⟨_, _, hrcv, -, -⟩⟩ := exec_effects h
  refine ⟨fun hi => ?_, hrcv.expectedSeq_le⟩
  obtain ⟨-, -, hbase, hnext⟩ := hsnd.kept hi
  exact ⟨hbase, hnext⟩

/-- R186, in the terms of one effect. -/
theorem SenderEffect.timer_listed {now : Nat} {x x' : Sender} {i : Instr} {ds : List Datagram}
    (h : SenderEffect now x i x' ds) :
    x'.timer = x.timer ∨
    (i = .arm ∧ x.timer = .disarmed ∧ x'.base.toNat < x'.nextSeq.toNat ∧ x'.timer = .armed now) ∨
    (i = .disarm ∧ x'.base = x'.nextSeq ∧ x'.timer = .disarmed) ∨
    (i = .restart ∧ isArmed x.timer = true ∧ x'.base.toNat < x'.nextSeq.toNat ∧ x'.timer = .armed now) ∨
    (isSStart i = true ∧ x'.timer = .disarmed) ∨
    (i = .fillWindow ∧ x.timer = .disarmed ∧ x'.timer = .armed now ∧
      x.nextSeq.toNat ≤ x'.nextSeq.toNat ∧ x'.base.toNat < x'.nextSeq.toNat) ∨
    (x.base.toNat < x'.base.toNat ∧
      ((x'.base = x'.nextSeq ∧ x'.timer = .disarmed) ∨
       (x'.base.toNat < x'.nextSeq.toNat ∧ x'.timer = .armed now))) ∨
    (i = .onTimeout ∧ expired x now = true ∧ x'.timer = .armed now) := by
  cases h with
  | none => exact .inl rfl
  | drop => exact .inl rfl
  | finish => exact .inl rfl
  | arm _ htimer hout => exact .inr (.inl ⟨rfl, htimer, hout, rfl⟩)
  | disarm _ hend => exact .inr (.inr (.inl ⟨rfl, hend, rfl⟩))
  | restart _ htimer hout => exact .inr (.inr (.inr (.inl ⟨rfl, htimer, hout, rfl⟩)))
  | start => exact .inr (.inr (.inr (.inr (.inl ⟨rfl, rfl⟩))))
  | timeout _ _ hexp => exact .inr (.inr (.inr (.inr (.inr (.inr (.inr ⟨rfl, hexp, rfl⟩))))))
  | fill next ds _ _ hnext =>
    by_cases harm : isArmed x.timer = false ∧ x.base.toNat < next.toNat
    · exact .inr (.inr (.inr (.inr (.inr (.inl ⟨rfl, eq_disarmed_of_isArmed harm.1, if_pos harm,
        hnext ▸ Nat.le_add_right .., harm.2⟩)))))
    · exact .inl (if_neg harm)
  | ack _ a _ _ _ _ hqual =>
    obtain ⟨hlo, hhi⟩ := (qualifies_iff ..).mp hqual
    refine .inr (.inr (.inr (.inr (.inr (.inr (.inl ⟨hlo, ?_⟩))))))
    by_cases hend : a + 1 = x.nextSeq
    · exact .inl ⟨hend, if_pos hend⟩
    · exact .inr ⟨lt_of_le_of_ne hhi fun heq => hend (BitVec.eq_of_toNat_eq heq), if_neg hend⟩

/-- Settles O49: the list is that of the effects. -/
theorem timerChangesOnlyAsListed : Obligations.TimerChangesOnlyAsListed := by
  intro i s t h
  obtain ⟨⟨_, heff, -⟩, -⟩ := exec_effects h
  exact heff.timer_listed

/-! ### What is emitted (R118, R235) -/

/-- R116: a frame has `PKT_LEN` bytes and validates, whatever the algorithm. -/
theorem frame_validates {c : Config} (seq ack : U32) (flags : U16) {payload : Chunk}
    (hcap : payload.length = c.payloadCapacity) :
    (frame c seq ack flags payload).length = pktLen c ∧ validate c (frame c seq ack flags payload) = true := by
  constructor
  · simp [frame, pktLen, hcap]
  · simp only [frame, validate, decodeRec_encodeRec]
    exact decide_eq_true (cksum_set_ck c { seq, ack, ck := 0, flags, payload } _)

theorem SenderEffect.emits_valid {now : Nat} {x x' : Sender} {i : Instr} {ds : List Datagram}
    (h : SenderEffect now x i x' ds) (hbuf : BufInv x) :
    ∀ d ∈ ds, d.length = pktLen x.cfg ∧ validate x.cfg d = true := by
  have hread {a : Nat} {d : Datagram} (hphase : x.phase ≠ .idle) (ha : a < x.totalPackets.toNat)
      (hd : x.buf.read a = some d) : d.length = pktLen x.cfg ∧ validate x.cfg d = true := by
    obtain ⟨k, hcap, hk⟩ := hbuf hphase a ha
    cases hd.symm.trans hk
    exact frame_validates _ _ _ hcap
  intro d hd
  obtain ⟨j, hj, rfl⟩ := List.getElem_of_mem hd
  cases h with
  | fill next ds hphase _ hnext hbuffered hbound =>
    have hne : ds ≠ [] := List.ne_nil_of_length_pos (by omega)
    have htotal := (hbound hne).2
    exact hread (by simp [hphase]) (by omega) ((hbuffered j hj).trans (List.getElem?_eq_getElem hj))
  | timeout ds hphase _ _ hbuffered =>
    obtain ⟨hlt, hat⟩ := hbuffered j hj
    exact hread (by simp [hphase]) hlt (hat.trans (List.getElem?_eq_getElem hj))
  | finish =>
    rw [List.getElem_replicate]
    exact frame_validates _ _ _ (length_zeros _)
  | _ => exact absurd hj (Nat.not_lt_zero j)

theorem ReceiverEffect.emits_valid {r r' : Receiver} {i : Instr} {cs : List Chunk} {ds : List Datagram}
    (h : ReceiverEffect r i r' cs ds) : ∀ d ∈ ds, d.length = pktLen r.cfg ∧ validate r.cfg d = true := by
  intro d hd
  cases h with
  | accept =>
    cases List.mem_singleton.mp hd
    exact frame_validates _ _ _ (length_zeros _)
  | reack =>
    cases List.mem_singleton.mp hd
    exact frame_validates _ _ _ (length_zeros _)
  | _ => cases hd

/-- Settles O51: what an effect emits are buffered packets, FIN packets and acknowledgments, each a frame. -/
theorem everythingEmittedValidates : Obligations.EverythingEmittedValidates := by
  intro i s t h hbuf
  obtain ⟨⟨ds, hsnd, hout⟩, ⟨_, es, hrcv, -, hback⟩⟩ := exec_effects h
  exact ⟨⟨ds, hout, hsnd.emits_valid hbuf⟩, ⟨es, hback, hrcv.emits_valid⟩⟩

end Sys2Proof.Machine
end

section
namespace Sys2Proof.Machine

/-! ### Invariants of one machine: kept by every effect, hence by every step -/

/-- What holds of a created sender and is kept by every effect and by the end test of S_FILL is kept by every step. -/
theorem step_keeps_sender {P : Sender → Prop} {s t : State} (hs : P s.snd) (h : step s = .next t)
    (hcreated : ∀ cfg, configLegal cfg = true → P (Sender.created cfg))
    (hend : ∀ x, P x → x.phase = .fill → x.base = x.totalPackets → P { x with phase := .fin })
    (heffect : ∀ now x i x' ds, P x → SenderEffect now x i x' ds → P x') : P t.snd := by
  obtain ⟨f, u, i, hsel, -, hexec⟩ | hmove := step_next_cases h
  · obtain ⟨⟨_, heff, -⟩, -⟩ := exec_effects hexec
    exact heffect _ _ _ _ _ ((select_run hsel).1 ▸ hs) heff
  · obtain ⟨hsame | ⟨hphase, hacked, hfin⟩ | ⟨cfg, _, -, hlegal, hnew⟩, -⟩ := select_move hmove
    · exact hsame ▸ hs
    · exact hfin ▸ hend _ hs hphase (of_decide_eq_true hacked)
    · exact hnew ▸ hcreated cfg hlegal

/-- What holds of a created receiver with an empty sink and is kept by every effect is kept by every step. -/
theorem step_keeps_receiver {P : Receiver → List Chunk → Prop} {s t : State} (hs : P s.rcv s.sink)
    (h : step s = .next t) (hcreated : ∀ cfg, P (Receiver.created cfg) [])
    (heffect : ∀ r sink i r' cs ds, P r sink → ReceiverEffect r i r' cs ds → P r' (sink ++ cs)) :
    P t.rcv t.sink := by
  obtain ⟨f, u, i, hsel, -, hexec⟩ | hmove := step_next_cases h
  · obtain ⟨-, ⟨cs, ds, heff, hsink, -⟩⟩ := exec_effects hexec
    obtain ⟨-, hrcv, hsame, -⟩ := select_run hsel
    exact hsink ▸ heffect _ _ _ _ _ _ (hrcv ▸ hsame ▸ hs) heff
  · obtain ⟨-, ⟨hrcv, hsink⟩ | ⟨cfg, _, -, hrcv, hsink⟩⟩ := select_move hmove
    · exact hrcv ▸ hsink ▸ hs
    · exact hrcv ▸ hsink ▸ hcreated cfg

/-- Settles O52: only a start writes the buffer, and it writes frames. -/
theorem bufferStaysCanonical : Obligations.BufferStaysCanonical := by
  intro s t hwf h
  refine step_keeps_sender (P := fun x => Memory.wf x.buf = true) hwf h (fun _ _ => rfl) (fun _ hx _ _ => hx) ?_
  intro now x i x' ds hx heff
  cases heff with
  | start n chunks => exact wf_writeFrames _ _ _ hx
  | _ => exact hx

/-! ### The window (R26, R143) -/

section
variable {now : Nat} {x x' : Sender} {i : Instr} {ds : List Datagram}

theorem SenderEffect.keeps_windowInv (h : SenderEffect now x i x' ds) (hw : WindowInv x) : WindowInv x' := by
  obtain ⟨hbase, htotal, hsize⟩ := hw
  cases h with
  | start => exact ⟨le_refl _, Nat.zero_le _, Nat.zero_le _⟩
  | fill next ds _ _ hnext _ hbound =>
    by_cases hds : ds = []
    · subst hds
      obtain rfl : next = x.nextSeq := BitVec.eq_of_toNat_eq hnext
      exact ⟨hbase, htotal, hsize⟩
    · obtain ⟨hwin, hend⟩ := hbound hds
      exact ⟨hnext ▸ hbase.trans (Nat.le_add_right ..), hend, hwin⟩
  | ack _ a _ _ _ _ hqual =>
    obtain ⟨hlo, hhi⟩ := (qualifies_iff ..).mp hqual
    exact ⟨hhi, htotal, hsize.trans (Nat.add_le_add_right hlo.le _)⟩
  | _ => exact ⟨hbase, htotal, hsize⟩

/-- S_FIN and S_DONE are entered only by the end test and by FINISH. -/
theorem SenderEffect.keeps_endInv (h : SenderEffect now x i x' ds) (he : EndInv x) : EndInv x' := by
  cases h with
  | finish hphase => exact fun _ => he (.inl hphase)
  | ack _ _ _ _ _ hafter =>
    obtain rfl | rfl := hafter <;> rintro (hfin | hdone) <;> contradiction
  | start => rintro (hfin | hdone) <;> contradiction
  | fill => rintro (hfin | hdone) <;> contradiction
  | timeout => rintro (hfin | hdone) <;> contradiction
  | drop => rintro (hfin | hdone) <;> contradiction
  | _ => exact he

/-- Settles O53: every effect keeps both invariants, and the end test enters S_FIN at the end. -/
theorem windowInvariantKept : Obligations.WindowInvariantKept := by
  intro s t hs h
  refine step_keeps_sender (P := fun x => WindowInv x ∧ EndInv x) hs h (fun _ _ => ?_) (fun x hx _ hend => ?_) ?_
  · exact ⟨⟨le_refl _, le_refl _, Nat.zero_le _⟩, fun _ => rfl⟩
  · exact ⟨hx.1, fun _ => hend⟩
  · rintro now x i x' ds ⟨hw, he⟩ heff
    exact ⟨heff.keeps_windowInv hw, heff.keeps_endInv he⟩

/-! ### The timer and the buffer (R29, R24) -/

theorem timerInv_armed {tm : Nat} (h : x.timer = .armed tm) (hout : x.base.toNat < x.nextSeq.toNat) : TimerInv x := by
  rw [TimerInv, h, (outstanding_iff x).mpr hout]
  rfl

theorem timerInv_disarmed (h : x.timer = .disarmed) (hend : x.base = x.nextSeq) : TimerInv x := by
  simp [TimerInv, h, outstanding, hend]

theorem isArmed_of_expired (h : expired x now = true) : isArmed x.timer = true := by
  rw [expired] at h
  cases htimer : x.timer with
  | disarmed => simp [htimer] at h
  | armed a => rfl

theorem SenderEffect.keeps_timerInv (h : SenderEffect now x i x' ds) (ht : TimerInv x) : TimerInv x' := by
  cases h with
  | none => exact ht
  | drop => exact ht
  | finish => exact ht
  | arm _ _ hout => exact timerInv_armed rfl hout
  | restart _ _ hout => exact timerInv_armed rfl hout
  | disarm _ hend => exact timerInv_disarmed rfl hend
  | start => exact timerInv_disarmed rfl rfl
  | timeout _ _ hexp =>
    exact timerInv_armed rfl ((outstanding_iff x).mp (ht.symm.trans (isArmed_of_expired hexp)))
  | fill next ds _ _ hnext =>
    by_cases hout : x.base.toNat < next.toNat
    · cases htimer : x.timer with
      | disarmed => exact timerInv_armed (tm := now) (by simp [hout]) hout
      | armed tm => exact timerInv_armed (tm := tm) (by simp) hout
    · have hidle : ¬ x.base.toNat < x.nextSeq.toNat := fun hlt => hout (hnext ▸ Nat.lt_add_right _ hlt)
      simpa [TimerInv, outstanding, hout, hidle] using ht
  | ack _ a _ _ _ _ hqual =>
    by_cases hend : a + 1 = x.nextSeq
    · exact timerInv_disarmed (if_pos hend) hend
    · have hle := ((qualifies_iff ..).mp hqual).2
      exact timerInv_armed (if_neg hend) (lt_of_le_of_ne hle fun heq => hend (BitVec.eq_of_toNat_eq heq))

theorem ne_idle_of_reacting {p : PhaseS} (h : p = .wait ∨ p = .fill) : p ≠ .idle := by
  rintro rfl
  simp at h

/-- S_IDLE is left only by a start, and never entered. -/
theorem SenderEffect.idle_cases (h : SenderEffect now x i x' ds) :
    x' = x ∨ (isSStart i = true ∧ x'.phase ≠ .idle) ∨ (x.phase ≠ .idle ∧ x'.phase ≠ .idle) := by
  cases h with
  | none => exact .inl rfl
  | start => exact .inr (.inl ⟨rfl, by simp⟩)
  | arm hphase => exact .inr (.inr ⟨by simp [hphase], by simp [hphase]⟩)
  | disarm hphase => exact .inr (.inr ⟨ne_idle_of_reacting hphase, ne_idle_of_reacting hphase⟩)
  | restart hphase => exact .inr (.inr ⟨ne_idle_of_reacting hphase, ne_idle_of_reacting hphase⟩)
  | ack _ _ _ _ hphase hafter => exact .inr (.inr ⟨ne_idle_of_reacting hphase, ne_idle_of_reacting hafter⟩)
  | fill _ _ hphase => exact .inr (.inr ⟨by simp [hphase], by simp⟩)
  | timeout _ hphase => exact .inr (.inr ⟨by simp [hphase], by simp⟩)
  | finish hphase => exact .inr (.inr ⟨by simp [hphase], by simp⟩)
  | drop _ _ hphase => exact .inr (.inr ⟨by simp [hphase], by simp⟩)

/-- R131: S_START fills the entries below the packet count with the frames of its chunks. -/
theorem bufInv_writeFrames {n : Nat} {chunks : List Chunk} {m : Memory} (hn : n < 2 ^ 32)
    (hfit : chunksFit x.cfg n chunks = true) (htotal : x.totalPackets = BitVec.ofNat 32 n)
    (hbuf : x.buf = writeFrames x.cfg 0 chunks m) : BufInv x := by
  obtain ⟨hlen, hcap⟩ := (chunksFit_iff ..).mp hfit
  intro _ a ha
  have hlt : a < chunks.length := by
    rw [htotal, BitVec.toNat_ofNat, Nat.mod_eq_of_lt hn] at ha
    exact hlen ▸ ha
  refine ⟨chunks[a], hcap _ (List.getElem_mem hlt), ?_⟩
  rw [hbuf]
  exact read_writeFrames_zero_of_getElem? x.cfg m (List.getElem?_eq_getElem hlt)

theorem SenderEffect.keeps_bufInv (h : SenderEffect now x i x' ds) (hb : BufInv x) : BufInv x' := by
  have hkept (hstarted : x.phase ≠ .idle) : BufInv x' := by
    obtain ⟨-, hidle⟩ | ⟨htotal, hbuf, -, -⟩ := h.start_or_kept
    · exact absurd hidle hstarted
    · intro _
      rw [htotal, hbuf, h.cfg_eq]
      exact hb hstarted
  obtain rfl | ⟨hi, -⟩ | ⟨hstarted, -⟩ := h.idle_cases
  · exact hb
  · cases h with
    | start n chunks _ hn hfit => exact bufInv_writeFrames hn hfit rfl rfl
    | none => exact hb
    | drop _ _ hphase => exact hkept (by simp [hphase])
    | ack _ _ _ _ hphase => exact hkept (ne_idle_of_reacting hphase)
    | _ => cases hi
  · exact hkept hstarted

theorem SenderEffect.keeps_senderInv (h : SenderEffect now x i x' ds) (hx : SenderInv x) : SenderInv x' where
  legal := h.cfg_eq ▸ hx.legal
  window := h.keeps_windowInv hx.window
  ended := h.keeps_endInv hx.ended
  timer := h.keeps_timerInv hx.timer
  buffer := h.keeps_bufInv hx.buffer

end

theorem senderInv_created {cfg : Config} (hlegal : configLegal cfg = true) : SenderInv (Sender.created cfg) where
  legal := hlegal
  window := ⟨le_refl _, le_refl _, Nat.zero_le _⟩
  ended := fun _ => rfl
  timer := timerInv_disarmed rfl rfl
  buffer := fun hidle => absurd rfl hidle

/-- R132: the end test keeps everything a sender keeps. -/
theorem senderInv_endTest {x : Sender} (hx : SenderInv x) (hphase : x.phase = .fill) (hend : x.base = x.totalPackets) :
    SenderInv { x with phase := .fin } where
  legal := hx.legal
  window := hx.window
  ended := fun _ => hend
  timer := hx.timer
  buffer := fun _ => hx.buffer (by simp [hphase])

/-- Settles O54: creation establishes everything a sender keeps, and every effect and the end test keep it. -/
theorem senderInvariantKept : Obligations.SenderInvariantKept := by
  intro s t hs h
  exact step_keeps_sender hs h (fun _ => senderInv_created) (fun _ => senderInv_endTest)
    (fun _ _ _ _ _ hx heff => heff.keeps_senderInv hx)

/-! ### The sink (R31, R171) -/

/-- `SinkInv` speaks of the receiver and the sink alone. -/
def SinkAgrees (r : Receiver) (sink : List Chunk) : Prop :=
  (r.phase = .idle → sink = []) ∧ sink.length % 2 ^ 32 = r.expectedSeq.toNat ∧
    ∀ c ∈ sink, c.length = r.cfg.payloadCapacity

theorem sinkInv_iff (s : State) : SinkInv s ↔ SinkAgrees s.rcv s.sink := Iff.rfl

theorem ReceiverEffect.keeps_sinkAgrees {r r' : Receiver} {sink cs : List Chunk} {i : Instr} {ds : List Datagram}
    (h : ReceiverEffect r i r' cs ds) (hs : SinkAgrees r sink) : SinkAgrees r' (sink ++ cs) := by
  obtain ⟨hidle, hcount, hcap⟩ := hs
  cases h with
  | none => exact ⟨by simpa using hidle, by simpa using hcount, by simpa using hcap⟩
  | reack => exact ⟨by simpa using hidle, by simpa using hcount, by simpa using hcap⟩
  | start hphase =>
    obtain rfl := hidle hphase
    exact ⟨fun _ => rfl, rfl, hcap⟩
  | finish => exact ⟨fun hphase => (nomatch hphase), by simpa using hcount, by simpa using hcap⟩
  | accept _ c _ hphase hlen =>
    refine ⟨fun hr => absurd (hphase.symm.trans hr) (by decide), ?_, ?_⟩
    · rw [List.length_append, List.length_singleton, BitVec.toNat_add, ← hcount, Nat.mod_add_mod]
      rfl
    · simpa [or_imp, forall_and, hlen] using hcap

/-- Settles O55: every effect on the receiver keeps the sink in agreement, and a created receiver has an empty one. -/
theorem sinkCountsAcceptedPackets : Obligations.SinkCountsAcceptedPackets := by
  intro s t hs h
  rw [sinkInv_iff] at hs ⊢
  refine step_keeps_receiver hs h (fun cfg => ?_) fun _ _ _ _ _ _ hr heff => heff.keeps_sinkAgrees hr
  exact ⟨fun _ => rfl, rfl, fun _ hc => (nomatch hc)⟩

end Sys2Proof.Machine
end

section
namespace Sys2Proof.Machine

/-! ### A step, by what its turn selects -/

section
variable {s u : State} {turn : Turn} {ts : List Turn}

theorem step_of_run {f : Fetched} {i : Instr} (hs : s.schedule = turn :: ts)
    (hturn : takeTurn turn { s with schedule := ts } = .run f u) (hdec : decode f = .ok i) :
    step s = exec i u := by
  rw [step, select_cons hs, hturn]
  simp only [hdec]

theorem step_of_move (hs : s.schedule = turn :: ts) (hturn : takeTurn turn { s with schedule := ts } = .move u) :
    step s = .next u := by
  rw [step, select_cons hs, hturn]

theorem step_of_refuse {r : Refusal} (hs : s.schedule = turn :: ts)
    (hturn : takeTurn turn { s with schedule := ts } = .refuse r) : step s = .refused r := by
  rw [step, select_cons hs, hturn]

end

/-- Settles O5: the presentation selected is decoded and executed. -/
theorem stepRunsTheDecodedOperation : Obligations.StepRunsTheDecodedOperation :=
  fun _ _ => ⟨fun _ _ hs hdec => step_of_run hs rfl hdec, fun _ _ hs => step_of_run hs rfl rfl,
    fun hs => step_of_run hs rfl rfl⟩

/-! ### The sender's turn (R132, R185) -/

theorem expired_iff (x : Sender) (now : Nat) : expired x now = true ↔
    ∃ tArm, x.timer = .armed tArm ∧ x.cfg.timeoutMs + tArm ≤ now := by
  rw [expired]
  cases x.timer <;> simp [Nat.add_comm]

section
variable {s : State} {pick : Pick} {ts : List Turn} (hs : s.schedule = .sender pick :: ts)
  (hcfg : configLegal s.snd.cfg = true)
include hs hcfg

theorem step_sender_idle (hphase : s.snd.phase = .idle) : step s = .next { s with schedule := ts } :=
  step_of_move hs (by simp only [takeTurn, senderTurn, hcfg, hphase, if_true])

theorem step_sender_done (hphase : s.snd.phase = .done) : step s = .next { s with schedule := ts } :=
  step_of_move hs (by simp only [takeTurn, senderTurn, hcfg, hphase, if_true])

theorem step_sender_endTest (hphase : s.snd.phase = .fill) (hend : s.snd.base = s.snd.totalPackets) :
    step s = .next (endTest { s with schedule := ts }) :=
  step_of_move hs (by
    simp only [takeTurn, senderTurn, hcfg, hphase, allAcked, decide_eq_true hend, if_true])

theorem step_sender_fill (hphase : s.snd.phase = .fill) (hmore : s.snd.base ≠ s.snd.totalPackets) :
    step s = exec .fillWindow { s with schedule := ts } :=
  step_of_run hs (by
    simp only [takeTurn, senderTurn, hcfg, hphase, allAcked, decide_eq_false hmore, if_true]
    rfl) rfl

theorem step_sender_fin (hphase : s.snd.phase = .fin) : step s = exec .finish { s with schedule := ts } :=
  step_of_run (f := .event 0x15 {}) hs (by simp only [takeTurn, senderTurn, hcfg, hphase, if_true]) rfl

section
variable (hphase : s.snd.phase = .wait)
include hphase

theorem step_sender_timeout (hexp : expired s.snd s.now = true)
    (hport : s.toSnd.waiting = [] ∨ timeoutWins s.snd pick = true) :
    step s = exec .onTimeout { s with schedule := ts } := by
  refine step_of_run (f := .event 0x14 {}) hs ?_ rfl
  cases hw : s.toSnd.waiting with
  | nil => simp only [takeTurn, senderTurn, hcfg, hphase, hw, hexp, if_true]
  | cons d ds =>
    have hwins : timeoutWins s.snd pick = true := hport.resolve_left (by simp [hw])
    simp only [takeTurn, senderTurn, hcfg, hphase, hw, hexp, hwins, Bool.and_self, if_true]

theorem step_sender_receive {d : Datagram} {ds : List Datagram} (hport : s.toSnd.waiting = d :: ds)
    (hpick : expired s.snd s.now = false ∨ timeoutWins s.snd pick = false) :
    step s = exec (.sRx d) { s with schedule := ts, toSnd := { s.toSnd with waiting := ds } } := by
  refine step_of_run (f := .event 0x12 { datagram := d }) hs ?_ rfl
  have hlose : (expired s.snd s.now && timeoutWins s.snd pick) = false := by simpa [or_iff_not_imp_left] using hpick
  simp only [takeTurn, senderTurn, hcfg, hphase, hport, hlose, if_true]
  rfl

theorem step_sender_noEvent (hport : s.toSnd.waiting = []) (hexp : expired s.snd s.now = false) :
    step s = .next { s with schedule := ts } :=
  step_of_move hs (by
    simp only [takeTurn, senderTurn, hcfg, hphase, hport, hexp, if_true]
    rfl)

end
end

/-- Settles O6: the rows of R132 outside S_WAIT. -/
theorem senderLoopFollowsItsTable : Obligations.SenderLoopFollowsItsTable :=
  fun _ _ _ hs hcfg => ⟨step_sender_idle hs hcfg, step_sender_endTest hs hcfg,
    fun hphase hmore => step_sender_fill hs hcfg hphase fun heq => absurd (heq ▸ hmore) (lt_irrefl _),
    step_sender_fin hs hcfg, step_sender_done hs hcfg⟩

/-- Settles O7: with packet first the timeout never wins against a datagram. -/
theorem packetFirstArbitration : Obligations.PacketFirstArbitration := by
  intro s pick ts hs hcfg hphase harb u
  have hlose : timeoutWins s.snd pick = false := by simp [timeoutWins, harb]
  refine ⟨fun d ds hport => step_sender_receive hs hcfg hphase hport (.inr hlose),
    fun tArm hport harm hexp => ?_, fun tArm hport harm hearly => ?_, fun hport harm => ?_⟩
  · exact step_sender_timeout hs hcfg hphase ((expired_iff ..).mpr ⟨tArm, harm, hexp⟩) (.inl hport)
  · exact step_sender_noEvent hs hcfg hphase hport (by simp [expired, harm]; omega)
  · exact step_sender_noEvent hs hcfg hphase hport (by simp [expired, harm])

/-- Settles O8: with the pick left open the timeout wins exactly when the turn picks it. -/
theorem openArbitrationServesThePick : Obligations.OpenArbitrationServesThePick := by
  intro s pick ts hs hcfg hphase harb u expiry
  have hexp : expiry ↔ expired s.snd s.now = true := (expired_iff ..).symm
  have hearly (hno : ¬ expiry) : expired s.snd s.now = false := by simpa [hexp] using hno
  refine ⟨fun d ds hport => ⟨fun he hpick => ?_, fun he hpick => ?_, fun hno => ?_⟩,
    fun hport => ⟨fun he => ?_, fun hno => ?_⟩⟩
  · exact step_sender_timeout hs hcfg hphase (hexp.mp he) (.inr (by simp [timeoutWins, harb, hpick]))
  · exact step_sender_receive hs hcfg hphase hport (.inr (by simp [timeoutWins, hpick]))
  · exact step_sender_receive hs hcfg hphase hport (.inl (hearly hno))
  · exact step_sender_timeout hs hcfg hphase (hexp.mp he) (.inl hport)
  · exact step_sender_noEvent hs hcfg hphase hport (hearly hno)

/-! ### The receiver's turn (R162) -/

section
variable {s : State} {ts : List Turn} (hs : s.schedule = .receiver :: ts) (hcfg : configLegal s.rcv.cfg = true)
include hs hcfg

theorem step_receiver_quiet (hquiet : s.rcv.phase ≠ .wait ∨ s.toRcv.waiting = []) :
    step s = .next { s with schedule := ts } := by
  refine step_of_move hs ?_
  cases hphase : s.rcv.phase with
  | idle => simp only [takeTurn, receiverTurn, hcfg, hphase, if_true]
  | done => simp only [takeTurn, receiverTurn, hcfg, hphase, if_true]
  | wait =>
    have hport : s.toRcv.waiting = [] := hquiet.resolve_left (absurd hphase)
    simp only [takeTurn, receiverTurn, hcfg, hphase, hport, if_true]

theorem step_receiver_receive {d : Datagram} {ds : List Datagram} (hphase : s.rcv.phase = .wait)
    (hport : s.toRcv.waiting = d :: ds) :
    step s = exec (.rRx d) { s with schedule := ts, toRcv := { s.toRcv with waiting := ds } } :=
  step_of_run (f := .event 0x21 { datagram := d }) hs
    (by simp only [takeTurn, receiverTurn, hcfg, hphase, hport, if_true]) rfl

end

/-- Settles O9: the rows of R162. -/
theorem receiverLoopFollowsItsTable : Obligations.ReceiverLoopFollowsItsTable :=
  fun _ _ hs hcfg => ⟨fun hphase => step_receiver_quiet hs hcfg (.inl (by simp [hphase])),
    fun _ _ hphase hport => step_receiver_receive hs hcfg hphase hport,
    fun _ hport => step_receiver_quiet hs hcfg (.inr hport),
    fun hphase => step_receiver_quiet hs hcfg (.inl (by simp [hphase]))⟩

/-! ### The clock, the channel and creation (R187, R60, R40) -/

/-- Settles O10: the two branches of the clock's turn. -/
theorem clockNeverGoesBack : Obligations.ClockNeverGoesBack :=
  fun _ _ _ hs => ⟨fun hle => step_of_move hs (if_pos hle), fun hlt => step_of_refuse hs (if_neg (not_le.mpr hlt))⟩

theorem modify_of_getElem? {α : Type} {l : List α} {k : Nat} {a : α} (f : α → α) (h : l[k]? = some a) :
    l.modify k f = l.set k (f a) := by
  simp [List.modify_eq_set_getElem?, h]

theorem Lane.act_absent_flying {l : Lane} {k : Nat} (h : l.flying[k]? = none) {a : ChannelAct}
    (ha : a = .arrive k ∨ a = .drop (.flying k) ∨ a = .dup (.flying k) ∨ a = .delay (.flying k) ∨
      ∃ i m, a = .flip (.flying k) i m) : l.act a = l := by
  have hlen := List.getElem?_eq_none_iff.mp h
  obtain rfl | rfl | rfl | rfl | ⟨i, m, rfl⟩ := ha
  · simp [Lane.act, h]
  · simp [Lane.act, List.eraseIdx_of_length_le hlen]
  · simp [Lane.act, h]
  · rfl
  · simp [Lane.act, List.modify_eq_self hlen]

theorem Lane.act_absent_waiting {l : Lane} {k : Nat} (h : l.waiting[k]? = none) {a : ChannelAct}
    (ha : a = .drop (.waiting k) ∨ a = .dup (.waiting k) ∨ a = .delay (.waiting k) ∨
      ∃ i m, a = .flip (.waiting k) i m) : l.act a = l := by
  have hlen := List.getElem?_eq_none_iff.mp h
  obtain rfl | rfl | rfl | ⟨i, m, rfl⟩ := ha
  · simp [Lane.act, List.eraseIdx_of_length_le hlen]
  · simp [Lane.act, h]
  · simp [Lane.act, h]
  · simp [Lane.act, List.modify_eq_self hlen]

/-- Settles O11: in either direction the turn puts the acted-on lane in the lane's place. -/
theorem channelMovesDatagrams : Obligations.ChannelMovesDatagrams := by
  intro s dest act ts hs lane put
  have hput : step s = put (lane.act act) := by
    cases dest <;> exact step_of_move hs rfl
  rw [hput]
  refine ⟨fun k d hd => ⟨?_, ?_, ?_, ?_, ?_⟩, fun k d hd => ⟨?_, ?_, ?_, ?_⟩, ?_, fun k hk ha => ?_, fun k hk ha => ?_⟩
  · rintro rfl; simp [Lane.act, hd]
  · rintro rfl; rfl
  · rintro rfl; simp [Lane.act, hd, Lane.emit]
  · rintro rfl; rfl
  · rintro i m rfl; simp [Lane.act, modify_of_getElem? _ hd, flipByte]
  · rintro rfl; rfl
  · rintro rfl; simp [Lane.act, hd, Lane.emit]
  · rintro rfl; simp [Lane.act, hd]
  · rintro i m rfl; simp [Lane.act, modify_of_getElem? _ hd, flipByte]
  · rintro d rfl; rfl
  · rw [Lane.act_absent_flying hk ha]
  · rw [Lane.act_absent_waiting hk ha]

/-- Settles O12: creation is the turn's move, and the created registers are the table's. -/
theorem resetGivesTheListedValues : Obligations.ResetGivesTheListedValues := by
  intro s cfg ts hcfg
  refine ⟨fun hs => ⟨_, step_of_move hs (if_pos hcfg), rfl, rfl, rfl, rfl, rfl, rfl, rfl, fun _ => rfl, ?_⟩,
    fun hs => ⟨_, step_of_move hs (if_pos hcfg), rfl, rfl, rfl, rfl⟩⟩
  intro i d hread
  exact absurd (bufRead_ok.mp hread).1 (Nat.not_lt_zero i)

end Sys2Proof.Machine
end

section
namespace Sys2Proof.Machine

/-! ### The steps of an honest schedule (R214, R233) -/

/-- `u` is `s` with the turn taken: the same machines and sink, and nothing in the channel that was not there. -/
structure Carries (s u : State) : Prop where
  snd   : u.snd = s.snd
  rcv   : u.rcv = s.rcv
  sink  : u.sink = s.sink
  toRcv : ∀ d, inLane u.toRcv d → inLane s.toRcv d
  toSnd : ∀ d, inLane u.toSnd d → inLane s.toSnd d

/-- The operations an honest turn can run from `s`; a datagram received was in the channel. -/
inductive HonestOp (s : State) : Instr → Prop
  | start (n : Nat) (chunks : List Chunk) : HonestOp s (.sStart n chunks)
  | fill : HonestOp s .fillWindow
  | timeout : HonestOp s .onTimeout
  | finish : HonestOp s .finish
  | rStart : HonestOp s .rStart
  | sRx (d : Datagram) (hphase : s.snd.phase = .wait) (hd : inLane s.toSnd d) : HonestOp s (.sRx d)
  | rRx (d : Datagram) (hphase : s.rcv.phase = .wait) (hd : inLane s.toRcv d) : HonestOp s (.rRx d)

/-- What an honest step does: an operation, the end test of S_FILL, or nothing to the machines. -/
inductive HonestStep (s t : State) : Prop
  | op (u : State) (i : Instr) (hu : Carries s u) (hi : HonestOp s i) (hexec : exec i u = .next t)
  | endTest (u : State) (hu : Carries s u) (hphase : s.snd.phase = .fill) (hend : s.snd.base = s.snd.totalPackets)
      (ht : t = Machine.endTest u)
  | quiet (ht : Carries s t)

theorem carries_schedule (s : State) (ts : List Turn) : Carries s { s with schedule := ts } :=
  ⟨rfl, rfl, rfl, fun _ h => h, fun _ h => h⟩

/-- Taking the first available datagram from a port. -/
theorem inLane_of_tail {l : Lane} {d : Datagram} {ds : List Datagram} (hport : l.waiting = d :: ds) {e : Datagram}
    (h : inLane { l with waiting := ds } e) : inLane l e :=
  h.imp_right fun hmem => hport ▸ List.mem_cons_of_mem d hmem

theorem carries_port_sender {s : State} {d : Datagram} {ds : List Datagram} (ts : List Turn)
    (hport : s.toSnd.waiting = d :: ds) :
    Carries s { s with schedule := ts, toSnd := { s.toSnd with waiting := ds } } :=
  ⟨rfl, rfl, rfl, fun _ h => h, fun _ h => inLane_of_tail hport h⟩

theorem carries_port_receiver {s : State} {d : Datagram} {ds : List Datagram} (ts : List Turn)
    (hport : s.toRcv.waiting = d :: ds) :
    Carries s { s with schedule := ts, toRcv := { s.toRcv with waiting := ds } } :=
  ⟨rfl, rfl, rfl, fun _ h => inLane_of_tail hport h, fun _ h => h⟩

theorem inLane_head {l : Lane} {d : Datagram} {ds : List Datagram} (hport : l.waiting = d :: ds) : inLane l d :=
  .inr (hport ▸ List.mem_cons_self)

section
variable {s t : State} {ts : List Turn}

theorem honestStep_sender {pick : Pick} (hs : s.schedule = .sender pick :: ts) (h : step s = .next t) :
    HonestStep s t := by
  by_cases hcfg : configLegal s.snd.cfg = true
  case neg =>
    rw [step_of_refuse hs (if_neg hcfg)] at h
    cases h
  cases hphase : s.snd.phase with
  | idle =>
    cases (step_sender_idle hs hcfg hphase).symm.trans h
    exact .quiet (carries_schedule s ts)
  | done =>
    cases (step_sender_done hs hcfg hphase).symm.trans h
    exact .quiet (carries_schedule s ts)
  | fin => exact .op _ _ (carries_schedule s ts) .finish ((step_sender_fin hs hcfg hphase).symm.trans h)
  | fill =>
    by_cases hend : s.snd.base = s.snd.totalPackets
    · cases (step_sender_endTest hs hcfg hphase hend).symm.trans h
      exact .endTest _ (carries_schedule s ts) hphase hend rfl
    · exact .op _ _ (carries_schedule s ts) .fill ((step_sender_fill hs hcfg hphase hend).symm.trans h)
  | wait =>
    by_cases hexp : expired s.snd s.now = true ∧ (s.toSnd.waiting = [] ∨ timeoutWins s.snd pick = true)
    · exact .op _ _ (carries_schedule s ts) .timeout
        ((step_sender_timeout hs hcfg hphase hexp.1 hexp.2).symm.trans h)
    · cases hport : s.toSnd.waiting with
      | nil =>
        have hearly : expired s.snd s.now = false := by simpa [hport] using hexp
        cases (step_sender_noEvent hs hcfg hphase hport hearly).symm.trans h
        exact .quiet (carries_schedule s ts)
      | cons d ds =>
        have hlose : expired s.snd s.now = false ∨ timeoutWins s.snd pick = false := by
          rw [← Bool.and_eq_false_iff]
          simpa [hport] using hexp
        exact .op _ _ (carries_port_sender ts hport)
          (.sRx d hphase (inLane_head hport)) ((step_sender_receive hs hcfg hphase hport hlose).symm.trans h)

theorem honestStep_receiver (hs : s.schedule = .receiver :: ts) (h : step s = .next t) : HonestStep s t := by
  by_cases hcfg : configLegal s.rcv.cfg = true
  case neg =>
    rw [step_of_refuse hs (if_neg hcfg)] at h
    cases h
  by_cases hquiet : s.rcv.phase ≠ .wait ∨ s.toRcv.waiting = []
  · cases (step_receiver_quiet hs hcfg hquiet).symm.trans h
    exact .quiet (carries_schedule s ts)
  · rw [not_or, not_not] at hquiet
    obtain ⟨hphase, hne⟩ := hquiet
    obtain ⟨d, ds, hport⟩ := List.exists_cons_of_ne_nil hne
    exact .op _ _ (carries_port_receiver ts hport)
      (.rRx d hphase (inLane_head hport)) ((step_receiver_receive hs hcfg hphase hport).symm.trans h)

theorem honestStep_channel {dest : Side} {act : ChannelAct} (hs : s.schedule = .channel dest act :: ts)
    (hhonest : honest (.channel dest act) = true) (h : step s = .next t) : HonestStep s t := by
  cases (step_of_move hs rfl).symm.trans h
  cases dest with
  | sender => exact .quiet ⟨rfl, rfl, rfl, fun _ he => he, fun _ he => inLane_act hhonest he⟩
  | receiver => exact .quiet ⟨rfl, rfl, rfl, fun _ he => inLane_act hhonest he, fun _ he => he⟩

theorem honestStep_clock {now : Nat} (hs : s.schedule = .clock now :: ts) (h : step s = .next t) : HonestStep s t := by
  by_cases hle : s.now ≤ now
  · cases (step_of_move hs (if_pos hle)).symm.trans h
    exact .quiet ⟨rfl, rfl, rfl, fun _ he => he, fun _ he => he⟩
  · rw [step_of_refuse hs (if_neg hle)] at h
    cases h

theorem step_honest (hhonest : ∀ u, nextTurn s = some u → honest u = true) (h : step s = .next t) :
    HonestStep s t := by
  cases hs : s.schedule with
  | nil =>
    have hstay : step s = .next s := by simp only [step, select, hs]
    cases hstay.symm.trans h
    exact .quiet ⟨rfl, rfl, rfl, fun _ he => he, fun _ he => he⟩
  | cons turn ts =>
    have hturn : honest turn = true := hhonest turn (by simp [nextTurn, hs])
    cases turn with
    | sender pick => exact honestStep_sender hs h
    | receiver => exact honestStep_receiver hs h
    | channel dest act => exact honestStep_channel hs hturn h
    | clock now => exact honestStep_clock hs h
    | startSender n cs =>
      exact .op _ _ (carries_schedule s ts) (.start n cs) ((step_of_run hs rfl rfl).symm.trans h)
    | startReceiver => exact .op _ _ (carries_schedule s ts) .rStart ((step_of_run hs rfl rfl).symm.trans h)
    | resetSender cfg => cases hturn
    | resetReceiver cfg => cases hturn
    | invoke f => cases hturn

end

/-! ### What travels, read by the side it arrives at -/

/-- A record's frame that passes another side's checks is read as that record with its checksum. -/
theorem checkInbound_frame {c c' : Config} {seq ack : U32} {flags : U16} {payload : Chunk} {p : Packet}
    (h : checkInbound c (frame c' seq ack flags payload) = .ok p) :
    p.seq = seq ∧ p.ack = ack ∧ p.flags = flags ∧ p.payload = payload := by
  obtain ⟨-, hdec, -⟩ := checkInbound_ok h
  cases (decodeRec_encodeRec _).symm.trans hdec
  exact ⟨rfl, rfl, rfl, rfl⟩

/-- What `DeliveryInv.outbound` says of a datagram: a packet below `next_seq`, or the FIN of a sender that is done. -/
def Sent (x : Sender) (d : Datagram) : Prop :=
  (∃ i, i < x.nextSeq.toNat ∧ x.buf.read i = some d) ∨ (x.phase = .done ∧ d = finPacket x.cfg)

/-- What `DeliveryInv.inbound` says of a datagram: an acknowledgment of what was accepted, or the wrapped one. -/
def Answered (r : Receiver) (d : Datagram) : Prop :=
  ∃ a : U32, d = ackPacket r.cfg a ∧ (a.toNat + 1 ≤ r.expectedSeq.toNat ∨ a = 0xFFFFFFFF)

section
variable {x : Sender} {c : Config} {d : Datagram} {p : Packet}

theorem sent_data (hx : SenderInv x) (hidle : x.phase = .idle → x.nextSeq = 0) (hd : Sent x d)
    (hin : checkInbound c d = .ok p) (hflags : p.flags = Kind.data.flags) :
    p.seq.toNat < x.nextSeq.toNat ∧ x.buf.read p.seq.toNat = some (dataPacket x.cfg p.seq.toNat p.payload) := by
  obtain ⟨i, hi, hread⟩ | ⟨-, rfl⟩ := hd
  · obtain ⟨-, htotal, -⟩ := hx.window
    have hstarted : x.phase ≠ .idle := fun h => by simp [hidle h] at hi
    obtain ⟨k, -, hk⟩ := hx.buffer hstarted i (hi.trans_le htotal)
    cases hread.symm.trans hk
    obtain ⟨hseq, -, -, hpayload⟩ := checkInbound_frame hin
    have hlt := x.nextSeq.isLt
    have hnum : p.seq.toNat = i := by
      rw [hseq, BitVec.toNat_ofNat]
      omega
    rw [hnum, hpayload]
    exact ⟨hi, hk⟩
  · exact absurd (hflags.symm.trans (checkInbound_frame hin).2.2.1) (by decide)

theorem sent_fin (hx : SenderInv x) (hidle : x.phase = .idle → x.nextSeq = 0) (hd : Sent x d)
    (hin : checkInbound c d = .ok p) (hflags : p.flags = Kind.fin.flags) : x.phase = .done := by
  obtain ⟨i, hi, hread⟩ | ⟨hdone, -⟩ := hd
  · obtain ⟨-, htotal, -⟩ := hx.window
    have hstarted : x.phase ≠ .idle := fun h => by simp [hidle h] at hi
    obtain ⟨k, -, hk⟩ := hx.buffer hstarted i (hi.trans_le htotal)
    cases hread.symm.trans hk
    exact absurd (hflags.symm.trans (checkInbound_frame hin).2.2.1) (by decide)
  · exact hdone

/-- An acknowledgment of what was accepted, or the wrapped one, never qualifies past what was accepted. -/
theorem qualifies_le {r : Receiver} (hd : Answered r d) (hin : checkInbound c d = .ok p)
    (hqual : qualifies x p.ack = true) : (p.ack + 1).toNat ≤ r.expectedSeq.toNat := by
  obtain ⟨hlo, -⟩ := (qualifies_iff ..).mp hqual
  obtain ⟨a, rfl, hack⟩ := hd
  obtain ⟨-, hpa, -, -⟩ := checkInbound_frame hin
  rw [hpa] at hlo ⊢
  obtain hle | rfl := hack
  · have hne : a ≠ 0xFFFFFFFF := by
      rintro rfl
      exact absurd hle (not_le.mpr r.expectedSeq.isLt)
    exact (toNat_add_one hne).le.trans hle
  · exact absurd hlo (Nat.not_lt_zero _)

end

/-! ### What an effect does to the packets sent -/

section
variable {now : Nat} {x x' : Sender} {i : Instr} {ds : List Datagram} (h : SenderEffect now x i x' ds)
  (hidle : x.phase = .idle → x.nextSeq = 0)
include h

include hidle

theorem SenderEffect.keeps_notSent : x'.phase = .idle → x'.nextSeq = 0 := by
  intro hphase
  obtain rfl | ⟨-, hne⟩ | ⟨-, hne⟩ := h.idle_cases
  · exact hidle hphase
  · exact absurd hphase hne
  · exact absurd hphase hne

/-- What has been sent stays in the buffer: a start finds nothing sent. -/
theorem SenderEffect.keeps_below_nextSeq {a : Nat} (ha : a < x.nextSeq.toNat) :
    a < x'.nextSeq.toNat ∧ x'.buf.read a = x.buf.read a := by
  obtain ⟨-, hphase⟩ | ⟨-, hbuf, -, hnext⟩ := h.start_or_kept
  · simp [hidle hphase] at ha
  · exact ⟨ha.trans_le hnext, by rw [hbuf]⟩

theorem SenderEffect.nextSeq_le : x.nextSeq.toNat ≤ x'.nextSeq.toNat := by
  by_contra hlt
  exact absurd (h.keeps_below_nextSeq hidle (not_le.mp hlt)).1 (lt_irrefl _)

theorem SenderEffect.keeps_sent {d : Datagram} (hd : Sent x d) : Sent x' d := by
  obtain ⟨a, ha, hread⟩ | ⟨hdone, hfin⟩ := hd
  · obtain ⟨ha', hread'⟩ := h.keeps_below_nextSeq hidle ha
    exact .inl ⟨a, ha', hread'.trans hread⟩
  · obtain ⟨rfl, -⟩ := h.eq_of_done hdone
    exact .inr ⟨hdone, hfin⟩

omit hidle in
theorem SenderEffect.emits_sent : ∀ d ∈ ds, Sent x' d := by
  intro d hd
  obtain ⟨j, hj, rfl⟩ := List.getElem_of_mem hd
  cases h with
  | fill next ds _ _ hnext hread =>
    refine .inl ⟨x.nextSeq.toNat + j, ?_, (hread j hj).trans (List.getElem?_eq_getElem hj)⟩
    exact hnext ▸ Nat.add_lt_add_left hj _
  | timeout ds _ _ hlen hread =>
    refine .inl ⟨x.base.toNat + j, ?_, (hread j hj).2.trans (List.getElem?_eq_getElem hj)⟩
    show x.base.toNat + j < x.nextSeq.toNat
    omega
  | finish => exact .inr ⟨rfl, List.getElem_replicate _⟩
  | _ => exact absurd hj (Nat.not_lt_zero j)

end

/-! ### The delivery invariant (R171, R246) -/

theorem DeliveryInv.of_carries {s u : State} (hs : DeliveryInv s) (hu : Carries s u) : DeliveryInv u := by
  obtain ⟨hsnd, hrcv, hsink, hout, hin⟩ := hu
  constructor
  case outbound => exact fun d hd => hsnd ▸ hs.outbound d (hout d hd)
  case inbound => exact fun d hd => hrcv ▸ hs.inbound d (hin d hd)
  all_goals simp only [hsnd, hrcv, hsink]
  exacts [hs.sender, hs.notSent, hs.idle, hs.expected, hs.acked, hs.count, hs.content, hs.complete]

theorem inLane_of_emit {l l' : Lane} {ds : List Datagram} {d : Datagram} (hfly : l'.flying = l.flying ++ ds)
    (hwait : l'.waiting = l.waiting) (hd : inLane l' d) : inLane l d ∨ d ∈ ds := by
  rw [inLane, hfly, hwait, List.mem_append] at hd
  obtain (hd | hd) | hd := hd
  · exact .inl (.inl hd)
  · exact .inr hd
  · exact .inl (.inr hd)

theorem inLane_emit {l : Lane} {ds : List Datagram} {d : Datagram} (hd : inLane (l.emit ds) d) : inLane l d ∨ d ∈ ds :=
  inLane_of_emit (l' := l.emit ds) rfl rfl hd

/-- R65: an effect on the sender keeps the invariant when it brings `base` to nothing the receiver has not accepted. -/
theorem DeliveryInv.of_senderDoes {u t : State} {i : Instr} (hu : DeliveryInv u) (hdoes : SenderDoes i u t)
    (hrcv : t.rcv = u.rcv) (hsink : t.sink = u.sink) (hin : t.toSnd = u.toSnd)
    (hwait : t.toRcv.waiting = u.toRcv.waiting) (hacked : t.snd.base.toNat ≤ u.rcv.expectedSeq.toNat) :
    DeliveryInv t := by
  obtain ⟨ds, heff, hfly⟩ := hdoes
  constructor
  case sender => exact heff.keeps_senderInv hu.sender
  case notSent => exact heff.keeps_notSent hu.notSent
  case outbound =>
    intro d hd
    obtain hold | hnew := inLane_of_emit hfly hwait hd
    · exact heff.keeps_sent hu.notSent (hu.outbound d hold)
    · exact heff.emits_sent d hnew
  case expected => exact hrcv ▸ hu.expected.trans (heff.nextSeq_le hu.notSent)
  case acked => exact hrcv ▸ hacked
  case content =>
    intro a ha
    rw [hsink] at ha ⊢
    obtain ⟨k, hk, hread⟩ := hu.content a ha
    have hlt : a < u.snd.nextSeq.toNat := (hu.count ▸ ha).trans_le hu.expected
    exact ⟨k, hk, heff.cfg_eq ▸ (heff.keeps_below_nextSeq hu.notSent hlt).2.trans hread⟩
  case complete =>
    rw [hrcv]
    intro hdone
    obtain ⟨hsnd, htotal⟩ := hu.complete hdone
    obtain ⟨hsame, -⟩ := heff.eq_of_done hsnd
    rw [hsame]
    exact ⟨hsnd, htotal⟩
  all_goals simp only [hrcv, hsink, hin]
  exacts [hu.inbound, hu.idle, hu.count]

/-- R164: the packet accepted is the next one of the transfer. -/
theorem DeliveryInv.of_accept {u t : State} {c : Chunk} (hu : DeliveryInv u) (hphase : u.rcv.phase = .wait)
    (hlt : u.rcv.expectedSeq.toNat < u.snd.nextSeq.toNat)
    (hread : u.snd.buf.read u.rcv.expectedSeq.toNat = some (dataPacket u.snd.cfg u.rcv.expectedSeq.toNat c))
    (ht : t = ((u.sinkAppend c).setExpectedSeq (u.rcv.expectedSeq + 1)).txR (ackPacket u.rcv.cfg u.rcv.expectedSeq)) :
    DeliveryInv t := by
  subst ht
  have hnext : (u.rcv.expectedSeq + 1).toNat = u.rcv.expectedSeq.toNat + 1 := by
    refine toNat_add_one fun hmax => ?_
    have := u.snd.nextSeq.isLt
    rw [hmax] at hlt
    exact absurd hlt (not_lt.mpr (Nat.le_of_lt_succ this))
  constructor
  case sender => exact hu.sender
  case notSent => exact hu.notSent
  case outbound => exact hu.outbound
  case inbound =>
    intro d hd
    obtain hold | hnew := inLane_emit (l := u.toSnd) hd
    · obtain ⟨a, rfl, hack⟩ := hu.inbound d hold
      refine ⟨a, rfl, hack.imp_left fun hle => hle.trans ?_⟩
      exact hnext ▸ Nat.le_succ _
    · exact ⟨u.rcv.expectedSeq, List.mem_singleton.mp hnew, .inl hnext.ge⟩
  case idle => exact fun hidle => absurd (hphase.symm.trans hidle) (by decide)
  case expected => exact hnext ▸ hlt
  case acked => exact hu.acked.trans (hnext ▸ Nat.le_succ _)
  case count => exact List.length_append.trans (hu.count ▸ hnext.symm)
  case content =>
    intro a ha
    change a < (u.sink ++ [c]).length at ha
    change ∃ k, (u.sink ++ [c])[a]? = some k ∧ u.snd.buf.read a = some (dataPacket u.snd.cfg a k)
    rw [List.length_append, List.length_singleton] at ha
    obtain hlast | hold := eq_or_lt_of_le (Nat.le_of_lt_succ ha)
    · subst hlast
      exact ⟨c, List.getElem?_concat_length, hu.count ▸ hread⟩
    · obtain ⟨k, hk, hb⟩ := hu.content a hold
      exact ⟨k, (List.getElem?_append_left hold).trans hk, hb⟩
  case complete => exact fun hdone => absurd (hphase.symm.trans hdone) (by decide)

/-- R166, R167: an emitted acknowledgment of what was accepted keeps the invariant. -/
theorem DeliveryInv.of_reack {u : State} {ds : List Datagram} {a : Anomaly} (hu : DeliveryInv u)
    (hds : ∀ d ∈ ds, Answered u.rcv d) :
    DeliveryInv { u with toSnd := u.toSnd.emit ds, anomalies := u.anomalies ++ [a] } where
  sender := hu.sender
  notSent := hu.notSent
  outbound := hu.outbound
  inbound d hd := (inLane_emit hd).elim (hu.inbound d) (hds d)
  idle := hu.idle
  expected := hu.expected
  acked := hu.acked
  count := hu.count
  content := hu.content
  complete := hu.complete

/-- R161: what R_START writes is what the invariant says of a receiver in R_IDLE. -/
theorem DeliveryInv.of_rStart {u : State} (hu : DeliveryInv u) (hphase : u.rcv.phase = .idle) :
    DeliveryInv ((u.setExpectedSeq 0).setPhaseR .wait) := by
  obtain ⟨-, hzero⟩ := hu.idle hphase
  have hsame : u.setExpectedSeq 0 = u := by
    rw [← hzero]
    rfl
  rw [hsame]
  exact ⟨hu.sender, hu.notSent, hu.outbound, hu.inbound, nofun, hu.expected, hu.acked, hu.count, hu.content, nofun⟩

/-- R168: the receiver ends after a sender that is done, with everything accepted. -/
theorem DeliveryInv.of_finAct {u : State} (hu : DeliveryInv u) (hdone : u.snd.phase = .done) :
    DeliveryInv (finAct u) := by
  have htotal : u.rcv.expectedSeq = u.snd.totalPackets := by
    obtain ⟨-, hle, -⟩ := hu.sender.window
    have hbase := congrArg BitVec.toNat (hu.sender.ended (.inr hdone))
    have hacked := hu.acked
    have hexpected := hu.expected
    exact BitVec.eq_of_toNat_eq (by omega)
  exact ⟨hu.sender, hu.notSent, hu.outbound, hu.inbound, nofun, hu.expected, hu.acked, hu.count, hu.content,
    fun _ => ⟨hdone, htotal⟩⟩

/-- R132: the end test changes only the sender's phase, and not to S_DONE. -/
theorem DeliveryInv.of_endTest {u : State} (hu : DeliveryInv u) (hphase : u.snd.phase = .fill)
    (hend : u.snd.base = u.snd.totalPackets) : DeliveryInv (endTest u) := by
  have hne : u.snd.phase ≠ .done := by simp [hphase]
  exact ⟨senderInv_endTest hu.sender hphase hend, nofun,
    fun d hd => .inl ((hu.outbound d hd).resolve_right fun h => hne h.1), hu.inbound, hu.idle, hu.expected, hu.acked,
    hu.count, hu.content, fun hdone => absurd (hu.complete hdone).1 hne⟩

theorem DeliveryInv.of_packetAct {u : State} {q : U32} {c : Chunk} (hu : DeliveryInv u)
    (hphase : u.rcv.phase = .wait)
    (hsent : q.toNat < u.snd.nextSeq.toNat ∧ u.snd.buf.read q.toNat = some (dataPacket u.snd.cfg q.toNat c)) :
    DeliveryInv (packetAct q c u) := by
  obtain ⟨rfl, hact⟩ | ⟨-, ds, a, hact, hds⟩ := packetAct_cases q c u
  · exact hu.of_accept hphase hsent.1 hsent.2 hact
  · rw [hact]
    refine hu.of_reack ?_
    obtain rfl | ⟨hne, rfl⟩ | ⟨-, rfl⟩ := hds
    · exact nofun
    · rintro _ hd
      refine ⟨_, List.mem_singleton.mp hd, .inl ?_⟩
      have hpos : u.rcv.expectedSeq - 1 ≠ 0xFFFFFFFF := by
        intro hmax
        rw [← BitVec.sub_add_cancel u.rcv.expectedSeq 1, hmax] at hne
        exact hne rfl
      have hadd := toNat_add_one hpos
      rw [BitVec.sub_add_cancel] at hadd
      exact hadd.ge
    · rintro _ hd
      exact ⟨_, List.mem_singleton.mp hd, .inr rfl⟩

theorem DeliveryInv.of_receiverReceive {u t : State} {d : Datagram} (hu : DeliveryInv u)
    (hphase : u.rcv.phase = .wait) (hd : Sent u.snd d) (h : receiverReceive d u = .next t) : DeliveryInv t := by
  obtain ⟨-, ⟨hne, -⟩ | ⟨-, _, rfl⟩ | ⟨-, p, hin, hflags, rfl⟩ | ⟨-, p, hin, hflags, rfl⟩⟩ := receiverReceive_next h
  · exact absurd hphase hne
  · exact hu.of_carries ⟨rfl, rfl, rfl, fun _ he => he, fun _ he => he⟩
  · exact hu.of_packetAct hphase (sent_data hu.sender hu.notSent hd hin hflags)
  · exact hu.of_finAct (sent_fin hu.sender hu.notSent hd hin hflags)

theorem DeliveryInv.of_senderReceive {u t : State} {d : Datagram} (hu : DeliveryInv u)
    (hphase : u.snd.phase = .wait) (hd : Answered u.rcv d) (h : senderReceive d u = .next t) : DeliveryInv t := by
  have hdoes : SenderDoes (.sRx d) u t := senderDoes_senderReceive rfl h
  obtain ⟨-, ⟨hne, -⟩ | ⟨-, _, rfl⟩ | ⟨-, p, hin, -, hack⟩⟩ := senderReceive_next h
  · exact absurd hphase hne
  · exact hu.of_senderDoes hdoes rfl rfl rfl rfl hu.acked
  · obtain ⟨hqual, rfl⟩ | ⟨-, _, rfl⟩ := ackAct_next hack
    · exact hu.of_senderDoes hdoes rfl rfl rfl rfl (qualifies_le hd hin hqual)
    · exact hu.of_senderDoes hdoes rfl rfl rfl rfl hu.acked

/-- Settles O57: the turn taken leaves the invariant, and each operation an honest turn can run keeps it. -/
theorem deliveryInvariantKept : Obligations.DeliveryInvariantKept := by
  intro s t hs hhonest h
  obtain ⟨u, i, hu, hi, hexec⟩ | ⟨u, hu, hphase, hend, rfl⟩ | ht := step_honest hhonest h
  · have hinv := hs.of_carries hu
    have hdoes := (exec_effects hexec).1
    cases hi with
    | start n cs =>
      obtain ⟨-, -, -, -, -, rfl⟩ := execSStart_next hexec
      exact hinv.of_senderDoes hdoes rfl rfl rfl rfl (Nat.zero_le _)
    | fill =>
      obtain ⟨-, -, -, ds, -, -, -, rfl⟩ := execFillWindow_next hexec
      exact hinv.of_senderDoes hdoes rfl rfl rfl rfl hinv.acked
    | timeout =>
      obtain ⟨-, -, -, ds, -, -, rfl⟩ := execOnTimeout_next hexec
      exact hinv.of_senderDoes hdoes rfl rfl rfl rfl hinv.acked
    | finish =>
      obtain ⟨-, -, rfl⟩ := execFinish_next hexec
      exact hinv.of_senderDoes hdoes rfl rfl rfl rfl hinv.acked
    | rStart =>
      obtain ⟨hphase, rfl⟩ := execRStart_next hexec
      exact hinv.of_rStart hphase
    | sRx d hphase hd => exact hinv.of_senderReceive (hu.snd ▸ hphase) (hu.rcv ▸ hs.inbound d hd) hexec
    | rRx d hphase hd => exact hinv.of_receiverReceive (hu.rcv ▸ hphase) (hu.snd ▸ hs.outbound d hd) hexec
  · exact (hs.of_carries hu).of_endTest (hu.snd ▸ hphase) (hu.snd ▸ hend)
  · exact hs.of_carries ht

/-! ### Runs -/

theorem step_schedule {s t : State} (h : step s = .next t) : t.schedule = s.schedule.tail := by
  obtain ⟨f, u, i, hsel, -, hexec⟩ | hmove := step_next_cases h
  · exact (exec_schedule hexec).trans (select_run_schedule hsel)
  · exact select_move_schedule hmove

/-- A transfer that has started keeps its packet count, its buffer and its configuration in every honest step. -/
def SameTransfer (x y : Sender) : Prop :=
  x.phase ≠ .idle → y.phase ≠ .idle ∧ y.totalPackets = x.totalPackets ∧ y.buf = x.buf ∧ y.cfg = x.cfg

theorem SenderEffect.sameTransfer {now : Nat} {x x' : Sender} {i : Instr} {ds : List Datagram}
    (h : SenderEffect now x i x' ds) : SameTransfer x x' := by
  intro hstarted
  obtain ⟨-, hidle⟩ | ⟨htotal, hbuf, -, -⟩ := h.start_or_kept
  · exact absurd hidle hstarted
  · refine ⟨?_, htotal, hbuf, h.cfg_eq⟩
    obtain rfl | ⟨-, hne⟩ | ⟨-, hne⟩ := h.idle_cases <;> assumption

theorem step_sameTransfer {s t : State} (hhonest : ∀ u, nextTurn s = some u → honest u = true)
    (h : step s = .next t) : SameTransfer s.snd t.snd := by
  obtain ⟨u, i, hu, -, hexec⟩ | ⟨u, hu, -, -, rfl⟩ | ht := step_honest hhonest h
  · obtain ⟨⟨ds, heff, -⟩, -⟩ := exec_effects hexec
    exact hu.snd ▸ heff.sameTransfer
  · rw [← hu.snd]
    exact fun _ => ⟨nofun, rfl, rfl, rfl⟩
  · rw [ht.snd]
    exact fun hstarted => ⟨hstarted, rfl, rfl, rfl⟩

theorem run_keeps_delivery {n : Nat} {s t : State} (hs : DeliveryInv s) (hhonest : ∀ u ∈ s.schedule, honest u = true)
    (h : Host.Core.run core n s = .next t) : DeliveryInv t ∧ SameTransfer s.snd t.snd := by
  induction n generalizing s with
  | zero =>
    cases h
    exact ⟨hs, fun hstarted => ⟨hstarted, rfl, rfl, rfl⟩⟩
  | succ n ih =>
    obtain ⟨u, hstep, hrun⟩ := run_succ_next.mp h
    have hstep : step s = .next u := hstep
    have hnext : ∀ v, nextTurn s = some v → honest v = true := fun v hv => hhonest v (List.mem_of_mem_head? hv)
    have hrest : ∀ v ∈ u.schedule, honest v = true := fun v hv =>
      hhonest v (List.mem_of_mem_tail (step_schedule hstep ▸ hv))
    obtain ⟨hinv, hsame⟩ := ih (deliveryInvariantKept s u hs hnext hstep) hrest hrun
    refine ⟨hinv, fun hstarted => ?_⟩
    obtain ⟨hu, htotal, hbuf, hcfg⟩ := step_sameTransfer hnext hstep hstarted
    obtain ⟨ht, htotal', hbuf', hcfg'⟩ := hsame hu
    exact ⟨ht, htotal'.trans htotal, hbuf'.trans hbuf, hcfg'.trans hcfg⟩

/-- Settles O58: the delivery invariant of the last state, and the transfer is the one before the run. -/
theorem endedReceiverHoldsEveryChunk : Obligations.EndedReceiverHoldsEveryChunk := by
  intro n s t hs hhonest hrun hdone
  obtain ⟨hinv, hsame⟩ := run_keeps_delivery hs hhonest hrun
  have hlen : t.sink.length = t.snd.totalPackets.toNat := hinv.count.trans (congrArg _ (hinv.complete hdone).2)
  have hcontent := hinv.content
  rw [hlen] at hcontent
  refine ⟨hlen, hcontent, fun hstarted => ?_⟩
  obtain ⟨-, htotal, hbuf, hcfg⟩ := hsame hstarted
  rw [htotal, hbuf, hcfg] at hcontent
  exact ⟨htotal, hcontent⟩

/-- Settles O56: reset creates both machines, with an empty channel and an empty sink. -/
theorem invariantsHoldAtReset : Obligations.InvariantsHoldAtReset := by
  have hsender : SenderInv State.reset.snd := senderInv_created configLegal_default
  refine ⟨hsender, ⟨fun _ => rfl, rfl, nofun⟩, ?_, rfl⟩
  exact ⟨hsender, fun _ => rfl, fun _ hd => hd.elim nofun nofun, fun _ hd => hd.elim nofun nofun,
    fun _ => ⟨rfl, rfl⟩, le_refl _, le_refl _, rfl, nofun, nofun⟩

end Sys2Proof.Machine
end

section
namespace Sys2Proof.Machine

/-! ### The codec operations where their rules give them a value (R111 to R117) -/

section
variable {side : Side} {s : State} (hcfg : configLegal (cfgOf side s) = true)
include hcfg

section
variable {p : Packet} (hlen : p.payload.length = (cfgOf side s).payloadCapacity)
include hlen

theorem exec_encode_of_record : exec (.encode side p) s = .next (s.giveBack (.datagram (encodeRec p))) :=
  (runIn_enabled _ _ hcfg rfl).trans (if_pos hlen)

theorem exec_cksum_of_record :
    exec (.cksum side p) s = .next (s.giveBack (.checksum (cksum (cfgOf side s) p))) :=
  (runIn_enabled _ _ hcfg rfl).trans (if_pos hlen)

end

theorem exec_frame_of_record (seq ack : U32) (kind : Kind) {payload : Chunk}
    (hlen : payload.length = (cfgOf side s).payloadCapacity) :
    exec (.frame side seq ack kind payload) s =
      .next (s.giveBack (.datagram (frame (cfgOf side s) seq ack kind.flags payload))) :=
  (runIn_enabled _ _ hcfg rfl).trans (if_pos hlen)

section
variable {d : Datagram} {p : Packet} (hlen : d.length = pktLen (cfgOf side s)) (hdec : decodeRec d = some p)
include hlen hdec

theorem exec_decode_of_datagram : exec (.decode side d) s = .next (s.giveBack (.packet p)) := by
  refine (runIn_enabled _ _ hcfg rfl).trans ?_
  simp only [withDatagram, hlen, hdec, if_true]

theorem exec_validate_of_datagram : exec (.validate side d) s =
    .next (s.giveBack (.verdict (decide (cksum (cfgOf side s) p = p.ck)))) := by
  refine (runIn_enabled _ _ hcfg rfl).trans ?_
  simp only [withDatagram, hlen, hdec, if_true]

end

section
variable {d : Datagram} (hlen : d.length ≠ pktLen (cfgOf side s))
include hlen

theorem exec_decode_of_badLength : exec (.decode side d) s = .fault (.badLength d.length) :=
  (runIn_enabled _ _ hcfg rfl).trans (if_neg hlen)

theorem exec_validate_of_badLength : exec (.validate side d) s = .fault (.badLength d.length) :=
  (runIn_enabled _ _ hcfg rfl).trans (if_neg hlen)

end
end

/-- R11: the bytes of a `u16` and of a `u32`, as quotients. -/
theorem bytesBe16_eq (v : U16) :
    bytesBe16 v = [BitVec.ofNat 8 (v.toNat / 256 ^ 1), BitVec.ofNat 8 (v.toNat / 256 ^ 0)] := by
  simp only [bytesBe16, List.cons.injEq, and_true, ← BitVec.toNat_inj, BitVec.extractLsb'_toNat, BitVec.toNat_ofNat,
    Nat.shiftRight_eq_div_pow]
  omega

theorem bytesBe32_eq (v : U32) :
    bytesBe32 v = [BitVec.ofNat 8 (v.toNat / 256 ^ 3), BitVec.ofNat 8 (v.toNat / 256 ^ 2),
      BitVec.ofNat 8 (v.toNat / 256 ^ 1), BitVec.ofNat 8 (v.toNat / 256 ^ 0)] := by
  simp only [bytesBe32, bytesBe16, List.cons_append, List.nil_append, List.cons.injEq, and_true, ← BitVec.toNat_inj,
    BitVec.extractLsb'_toNat, BitVec.toNat_ofNat, Nat.shiftRight_eq_div_pow]
  omega

/-- Settles O13: the image written out, byte by byte. -/
theorem encodeGivesTheWireImage : Obligations.EncodeGivesTheWireImage := by
  intro side p s hcfg hlen byte d
  have himage : encodeRec p = d := by
    rw [encodeRec, bytesBe32_eq, bytesBe32_eq, bytesBe16_eq, bytesBe16_eq]
    rfl
  have hd : d.length = 12 + (cfgOf side s).payloadCapacity := by
    rw [← himage, length_encodeRec, hlen, headerLen]
  exact ⟨himage ▸ exec_encode_of_record hcfg hlen, hd⟩

/-- Twelve header bytes, as DECODE reads them (R115). -/
theorem decodeRec_fields {d : Datagram} (h : headerLen ≤ d.length) : ∃ p, decodeRec d = some p ∧
    p.seq.toNat = headerNumber (d.take 4) ∧ p.ack.toNat = headerNumber ((d.drop 4).take 4) ∧
    p.ck.toNat = headerNumber ((d.drop 8).take 2) ∧ p.flags.toNat = headerNumber ((d.drop 10).take 2) ∧
    p.payload = d.drop 12 := by
  obtain ⟨b0, b1, b2, b3, b4, b5, b6, b7, b8, b9, b10, b11, rest, rfl⟩ := header_shape h
  exact ⟨_, decodeRec_of_header .., toNat_be32 .., toNat_be32 .., toNat_be16 .., toNat_be16 .., rfl⟩

/-- Settles O14: the fields of `decodeRec_fields`, and ENCODE and DECODE as inverses. -/
theorem decodeReadsTheFields : Obligations.DecodeReadsTheFields := by
  intro side s hcfg
  refine ⟨fun d hlen => ?_, fun d hlen => exec_decode_of_badLength hcfg hlen, fun p hlen => ?_⟩
  · have hle : headerLen ≤ d.length := hlen ▸ Nat.le_add_right ..
    obtain ⟨p, hdec, hseq, hack, hck, hflags, hpayload⟩ := decodeRec_fields hle
    obtain ⟨himage, hrest⟩ := encodeRec_of_decodeRec hle hdec
    have hcap : p.payload.length = (cfgOf side s).payloadCapacity := by
      rw [hlen, headerLen] at hrest
      omega
    refine ⟨p, exec_decode_of_datagram hcfg hlen hdec, hseq, hack, hck, hflags, hpayload, ?_⟩
    exact himage ▸ exec_encode_of_record hcfg hcap
  · exact exec_decode_of_datagram hcfg (by simp [pktLen, hlen]) (decodeRec_encodeRec p)

/-! ### The folds of R112 and R114 -/

@[simp] theorem wordFold_nil : wordFold [] = 0 := rfl

@[simp] theorem wordFold_singleton (a : Byte) : wordFold [a] = be16 a 0 := by
  simp [wordFold, List.range_succ]

theorem foldl_xor_eq {n : Nat} {α : Type} (f : α → BitVec n) (acc : BitVec n) (l : List α) :
    l.foldl (fun x a => x ^^^ f a) acc = acc ^^^ l.foldl (fun x a => x ^^^ f a) 0 := by
  induction l generalizing acc with
  | nil => simp
  | cons a l ih =>
    rw [List.foldl_cons, List.foldl_cons, ih, ih (0 ^^^ f a)]
    simp [BitVec.xor_assoc]

/-- The first word and the words after it. -/
@[simp] theorem wordFold_cons_cons (a b : Byte) (r : List Byte) : wordFold (a :: b :: r) = be16 a b ^^^ wordFold r := by
  have hwords : (a :: b :: r).length.succ / 2 = (r.length + 1) / 2 + 1 := by
    simp only [List.length_cons]
    omega
  rw [wordFold, hwords, List.range_succ_eq_map, List.foldl_cons, List.foldl_map, foldl_xor_eq]
  simp [wordFold, Nat.mul_succ]

/-- The fold of the rule, over an accumulator. -/
theorem xorWords_eq (acc : U16) (d : List Byte) : xorWords acc d = acc ^^^ wordFold d := by
  induction acc, d using xorWords.induct with
  | case1 acc => simp [xorWords]
  | case2 acc hi => simp [xorWords]
  | case3 acc hi lo r ih => rw [xorWords, ih, wordFold_cons_cons, BitVec.xor_assoc]

theorem wordFold_append {a : List Byte} (b : List Byte) (ha : a.length % 2 = 0) :
    wordFold (a ++ b) = wordFold a ^^^ wordFold b := by
  match a, ha with
  | [], _ => simp
  | x :: y :: r, ha =>
    have hr : r.length % 2 = 0 := by simpa [Nat.add_assoc] using ha
    rw [List.cons_append, List.cons_append, wordFold_cons_cons, wordFold_cons_cons, wordFold_append b hr,
      BitVec.xor_assoc]

theorem wordFold_bytesBe16_append (v : U16) (r : List Byte) : wordFold (bytesBe16 v ++ r) = v ^^^ wordFold r := by
  simp [bytesBe16, be16_bytes]

theorem wordFold_bytesBe32_append (v : U32) (r : List Byte) :
    wordFold (bytesBe32 v ++ r) = v.extractLsb' 16 16 ^^^ v.extractLsb' 0 16 ^^^ wordFold r := by
  rw [bytesBe32, List.append_assoc, wordFold_bytesBe16_append, wordFold_bytesBe16_append, BitVec.xor_assoc]

/-- R112: the closed form, over the fields and the payload. -/
theorem wordFold_encodeRec (p : Packet) : wordFold (encodeRec p) =
    p.seq.extractLsb' 16 16 ^^^ p.seq.extractLsb' 0 16 ^^^ p.ack.extractLsb' 16 16 ^^^ p.ack.extractLsb' 0 16 ^^^
      p.ck ^^^ p.flags ^^^ wordFold p.payload := by
  simp only [encodeRec, wordFold_bytesBe32_append, wordFold_bytesBe16_append, BitVec.xor_assoc]

theorem cksum_xor16be {c : Config} (halgo : c.ckAlgo = .xor16be) (p : Packet) :
    cksum c p = wordFold (encodeRec { p with ck := 0 }) := by
  rw [cksum, halgo]
  simp [xorWords_eq]

/-- R112: the checksum field's own word, taken out of the image's. -/
theorem wordFold_encodeRec_ck (p : Packet) :
    wordFold (encodeRec p) = wordFold (encodeRec { p with ck := 0 }) ^^^ p.ck := by
  rw [wordFold_encodeRec, wordFold_encodeRec]
  simp
  ac_rfl

theorem xorBytes_eq (acc : Byte) (d : List Byte) : xorBytes acc d = d.foldl (· ^^^ ·) acc := by
  induction d generalizing acc with
  | nil => rfl
  | cons b r ih => exact ih _

theorem cksum_xor8 {c : Config} (halgo : c.ckAlgo = .xor8) (p : Packet) :
    cksum c p = ((encodeRec { p with ck := 0 }).foldl (· ^^^ ·) 0).setWidth 16 := by
  rw [cksum, halgo]
  simp only [xorBytes_eq]

theorem high_byte_be16 (a b : Byte) : (be16 a b).extractLsb' 8 8 = a := by
  have h := bytesBe16_be16 a b
  simp only [bytesBe16, List.cons.injEq] at h
  exact h.1

theorem low_byte_be16 (a b : Byte) : (be16 a b).extractLsb' 0 8 = b := by
  have h := bytesBe16_be16 a b
  simp only [bytesBe16, List.cons.injEq] at h
  exact h.2.1

/-- R114: the two bytes of the word fold, folded once more, are the byte fold. -/
theorem foldl_xor_eq_wordFold (d : List Byte) : d.foldl (· ^^^ ·) 0 =
    (wordFold d).extractLsb' 8 8 ^^^ (wordFold d).extractLsb' 0 8 := by
  match d with
  | [] => rfl
  | [a] => simp [high_byte_be16, low_byte_be16]
  | a :: b :: r =>
    have hacc : r.foldl (· ^^^ ·) (0 ^^^ a ^^^ b) = (0 ^^^ a ^^^ b) ^^^ r.foldl (· ^^^ ·) 0 := foldl_xor_eq id _ r
    rw [List.foldl_cons, List.foldl_cons, hacc, foldl_xor_eq_wordFold r, wordFold_cons_cons,
      BitVec.extractLsb'_xor, BitVec.extractLsb'_xor, high_byte_be16, low_byte_be16]
    simp
    ac_rfl

/-- Settles O16: the rule's fold, and its closed form with a zero checksum word. -/
theorem checksumXor16Be : Obligations.ChecksumXor16Be := by
  intro side p s hcfg halgo hlen c
  refine ⟨?_, ?_⟩
  · rw [exec_cksum_of_record hcfg hlen, cksum_xor16be halgo]
    rfl
  · exact (wordFold_encodeRec _).trans (by simp)

/-- Settles O17: the byte fold, and its relation to the word fold. -/
theorem checksumXor8 : Obligations.ChecksumXor8 := by
  intro side p s hcfg halgo hlen b x
  refine ⟨?_, congrArg (BitVec.setWidth 16) (foldl_xor_eq_wordFold _)⟩
  rw [exec_cksum_of_record hcfg hlen, cksum_xor8 halgo]
  rfl

/-- Settles O18: the checksum field is not read, whatever the algorithm. -/
theorem checksumOfAnyAlgorithmCompletes : Obligations.ChecksumOfAnyAlgorithmCompletes := by
  intro side p s k hcfg _ hlen
  refine ⟨cksum (cfgOf side s) p, fun ck => ?_⟩
  have hrun := exec_cksum_of_record (p := { p with ck := ck }) hcfg hlen
  rw [cksum_set_ck] at hrun
  exact hrun

/-- Settles O19: the frame is the image with its checksum, which VALIDATE computes again. -/
theorem frameValidates : Obligations.FrameValidates := by
  intro side seq ack kind payload s hcfg hlen p d
  have hpkt : d.length = pktLen (cfgOf side s) := by simp [d, p, pktLen, hlen]
  refine ⟨exec_frame_of_record hcfg seq ack kind hlen, hpkt, ?_⟩
  rw [exec_validate_of_datagram hcfg hpkt (decodeRec_encodeRec _), decide_eq_true (cksum_set_ck _ p _)]
  rfl

/-- R112, R117: under XOR16_BE a datagram validates exactly when all its words cancel. -/
theorem validate_xor16be_iff {c : Config} {d : Datagram} (halgo : c.ckAlgo = .xor16be) (hlen : headerLen ≤ d.length) :
    validate c d = true ↔ wordFold d = 0 := by
  obtain ⟨p, hdec, -⟩ := decodeRec_fields hlen
  obtain ⟨rfl, -⟩ := encodeRec_of_decodeRec hlen hdec
  simp only [validate, hdec, decide_eq_true_eq, cksum_xor16be halgo, wordFold_encodeRec_ck p]
  exact BitVec.xor_eq_zero_iff.symm

/-- Settles O20: the verdict is the comparison; under XOR16_BE it is the cancelling of all words. -/
theorem validateComparesChecksums : Obligations.ValidateComparesChecksums := by
  intro side d s hcfg
  refine ⟨fun p hlen hdec => ⟨_, exec_validate_of_datagram hcfg hlen hdec, ?_, fun halgo => ?_⟩,
    fun hlen => exec_validate_of_badLength hcfg hlen⟩
  · rw [decide_eq_true_eq, ← cksum_set_ck _ p 0]
  · have hiff := validate_xor16be_iff (d := d) halgo (hlen ▸ Nat.le_add_right ..)
    rw [validate, hdec] at hiff
    exact hiff

/-! ### Changed bytes (R119) -/

/-- The word that byte `i` of a datagram, flipped by `m`, changes in the fold of R112. -/
def column (i : Nat) (m : Byte) : U16 := if i % 2 = 0 then be16 m 0 else be16 0 m

theorem be16_xor (a b c d : Byte) : be16 (a ^^^ c) (b ^^^ d) = be16 a b ^^^ be16 c d := BitVec.xor_append.symm

theorem be16_high_xor (a b m : Byte) : be16 (a ^^^ m) b = be16 a b ^^^ be16 m 0 := by
  simpa using be16_xor a b m 0

theorem be16_low_xor (a b m : Byte) : be16 a (b ^^^ m) = be16 a b ^^^ be16 0 m := by
  simpa using be16_xor a b 0 m

theorem wordFold_flipByte {d : Datagram} {i : Nat} (m : Byte) (hi : i < d.length) :
    wordFold (flipByte d i m) = wordFold d ^^^ column i m := by
  match d, i with
  | [a], 0 => simpa [flipByte, column] using be16_high_xor a 0 m
  | a :: b :: r, 0 =>
    have hflip : flipByte (a :: b :: r) 0 m = (a ^^^ m) :: b :: r := rfl
    rw [hflip, wordFold_cons_cons, wordFold_cons_cons, be16_high_xor, column, if_pos rfl]
    ac_rfl
  | a :: b :: r, 1 =>
    have hflip : flipByte (a :: b :: r) 1 m = a :: (b ^^^ m) :: r := rfl
    rw [hflip, wordFold_cons_cons, wordFold_cons_cons, be16_low_xor, column, if_neg (by decide)]
    ac_rfl
  | a :: b :: r, i + 2 =>
    have hflip : flipByte (a :: b :: r) (i + 2) m = a :: b :: flipByte r i m := rfl
    have hcol : column (i + 2) m = column i m := by simp [column]
    rw [hflip, wordFold_cons_cons, wordFold_cons_cons, wordFold_flipByte m (by simpa using hi), hcol, BitVec.xor_assoc]

@[simp] theorem length_flipByte (d : Datagram) (i : Nat) (m : Byte) : (flipByte d i m).length = d.length :=
  List.length_modify ..

/-- The two bytes of the checksum field (R81). -/
def checksumField (d : Datagram) : U16 := be16 (d.getD 8 0) (d.getD 9 0)

theorem checksumField_of_decodeRec {d : Datagram} {p : Packet} (hlen : headerLen ≤ d.length)
    (hdec : decodeRec d = some p) : p.ck = checksumField d := by
  obtain ⟨b0, b1, b2, b3, b4, b5, b6, b7, b8, b9, b10, b11, rest, rfl⟩ := header_shape hlen
  cases (decodeRec_of_header ..).symm.trans hdec
  rfl

theorem checksumField_flipByte {d : Datagram} (i : Nat) (m : Byte) (hlen : headerLen ≤ d.length) :
    checksumField (flipByte d i m) =
      if i = 8 ∨ i = 9 then checksumField d ^^^ column i m else checksumField d := by
  obtain ⟨b0, b1, b2, b3, b4, b5, b6, b7, b8, b9, b10, b11, rest, rfl⟩ := header_shape hlen
  by_cases h8 : i = 8
  · subst h8
    exact be16_high_xor b8 b9 m
  by_cases h9 : i = 9
  · subst h9
    exact be16_low_xor b8 b9 m
  · simp [checksumField, flipByte, List.getD_eq_getElem?_getD, h8, h9]

/-- R117, for an algorithm that is a function of the word fold: the checksum field's word is taken out of the fold. -/
theorem validate_iff_of_fold {c : Config} {g : U16 → U16}
    (hsum : ∀ p, cksum c p = g (wordFold (encodeRec p) ^^^ p.ck)) {d : Datagram} (hlen : headerLen ≤ d.length) :
    validate c d = true ↔ g (wordFold d ^^^ checksumField d) = checksumField d := by
  obtain ⟨p, hdec, -⟩ := decodeRec_fields hlen
  obtain ⟨himage, -⟩ := encodeRec_of_decodeRec hlen hdec
  rw [validate, hdec, decide_eq_true_eq, hsum, checksumField_of_decodeRec hlen hdec, himage]

/-- The byte fold, as a function of the word fold (R114). -/
def foldBytes (x : U16) : U16 := (x.extractLsb' 8 8 ^^^ x.extractLsb' 0 8).setWidth 16

theorem cksum_eq_of_xor16be {c : Config} (halgo : c.ckAlgo = .xor16be) (p : Packet) :
    cksum c p = wordFold (encodeRec p) ^^^ p.ck := by
  rw [cksum_xor16be halgo, wordFold_encodeRec_ck p, BitVec.xor_assoc]
  simp

theorem cksum_eq_of_xor8 {c : Config} (halgo : c.ckAlgo = .xor8) (p : Packet) :
    cksum c p = foldBytes (wordFold (encodeRec p) ^^^ p.ck) := by
  rw [cksum_xor8 halgo, foldl_xor_eq_wordFold, wordFold_encodeRec_ck p, BitVec.xor_assoc]
  simp [foldBytes]

theorem foldBytes_xor_column (x : U16) (i : Nat) (m : Byte) :
    foldBytes (x ^^^ column i m) = foldBytes x ^^^ m.setWidth 16 := by
  have hcolumn : (column i m).extractLsb' 8 8 ^^^ (column i m).extractLsb' 0 8 = m := by
    unfold column
    split <;> simp [high_byte_be16, low_byte_be16]
  rw [foldBytes, foldBytes, ← BitVec.setWidth_xor, BitVec.extractLsb'_xor, BitVec.extractLsb'_xor]
  conv_rhs => rw [← hcolumn]
  congr 1
  ac_rfl

theorem setWidth_ne_zero {m : Byte} (hm : m ≠ 0) : m.setWidth 16 ≠ 0 := by
  intro h
  have hlt := m.isLt
  have hzero := congrArg BitVec.toNat h
  rw [BitVec.toNat_setWidth, Nat.mod_eq_of_lt (by omega)] at hzero
  exact hm (BitVec.eq_of_toNat_eq hzero)

theorem column_ne_zero (i : Nat) {m : Byte} (hm : m ≠ 0) : column i m ≠ 0 := by
  intro h
  have hfold := foldBytes_xor_column 0 i m
  rw [h] at hfold
  exact setWidth_ne_zero hm (xor_left_eq_self_iff.mp hfold.symm)

/-- R119 (a): a flipped byte changes the sum and not the field, or the field and not the sum. -/
theorem validate_flipByte_false {c : Config} {g : U16 → U16}
    (hsum : ∀ p, cksum c p = g (wordFold (encodeRec p) ^^^ p.ck))
    (hflip : ∀ i m x, m ≠ 0 → g (x ^^^ column i m) ≠ g x) {d : Datagram} {i : Nat} {m : Byte}
    (hlen : headerLen ≤ d.length) (hi : i < d.length) (hm : m ≠ 0) (hvalid : validate c d = true) :
    validate c (flipByte d i m) = false := by
  rw [validate_iff_of_fold hsum hlen] at hvalid
  rw [← Bool.not_eq_true, validate_iff_of_fold hsum (by simpa using hlen), wordFold_flipByte m hi,
    checksumField_flipByte i m hlen]
  split
  · have hsame : wordFold d ^^^ column i m ^^^ (checksumField d ^^^ column i m) = wordFold d ^^^ checksumField d := by
      rw [BitVec.xor_assoc, BitVec.xor_comm (checksumField d), ← BitVec.xor_assoc (column i m)]
      simp
    rw [hsame, hvalid, eq_comm, xor_left_eq_self_iff]
    exact column_ne_zero i hm
  · rw [BitVec.xor_assoc, BitVec.xor_comm (column i m), ← BitVec.xor_assoc]
    exact fun heq => hflip i m _ hm (heq.trans hvalid.symm)

/-- Settles O21: both algorithms are functions of the word fold that a changed column changes. -/
theorem singleBitChangeDetected : Obligations.SingleBitChangeDetected := by
  intro c d i b halgo hlen hvalid hi hb
  have hle : headerLen ≤ d.length := hlen ▸ Nat.le_add_right ..
  have hm : BitVec.ofNat 8 (2 ^ b) ≠ 0 := by
    intro h
    have hzero := congrArg BitVec.toNat h
    rw [BitVec.toNat_ofNat, Nat.mod_eq_of_lt (Nat.pow_lt_pow_right (by decide) hb)] at hzero
    exact (Nat.two_pow_pos b).ne' hzero
  obtain halgo | halgo := halgo
  · exact validate_flipByte_false (g := id) (cksum_eq_of_xor16be halgo)
      (fun j m x hm heq => column_ne_zero j hm (xor_left_eq_self_iff.mp heq)) hle hi hm hvalid
  · refine validate_flipByte_false (cksum_eq_of_xor8 halgo) (fun j m x hm heq => ?_) hle hi hm hvalid
    rw [foldBytes_xor_column, xor_left_eq_self_iff] at heq
    exact setWidth_ne_zero hm heq

/-- Settles O22: under XOR16_BE only the fold of the words matters, and neither change moves it. -/
theorem columnPairsAndWordExchangesUndetected : Obligations.ColumnPairsAndWordExchangesUndetected := by
  intro c halgo
  have hsame {d e : Datagram} (hd : d.length = pktLen c) (he : e.length = d.length) (hfold : wordFold e = wordFold d) :
      validate c e = validate c d := by
    have hle : headerLen ≤ d.length := hd ▸ Nat.le_add_right ..
    rw [Bool.eq_iff_iff, validate_xor16be_iff halgo (he ▸ hle), validate_xor16be_iff halgo hle, hfold]
  refine ⟨fun d i j m hd hi hj _ hcol => hsame hd (by simp) ?_,
    fun l1 l2 l3 x0 x1 y0 y1 h1 h2 hd => hsame hd (by simp) ?_⟩
  · have hsamecol : column i m = column j m := by simp only [column, hcol]
    rw [wordFold_flipByte m (by simpa using hj), wordFold_flipByte m hi, hsamecol, BitVec.xor_assoc]
    simp
  · simp only [List.append_assoc, wordFold_append _ h1, wordFold_append _ h2, List.cons_append, List.nil_append,
      wordFold_cons_cons]
    ac_rfl

end Sys2Proof.Machine
end

section
namespace Sys2Proof.Machine

/-! ### Where an operation has no step or no meaning (R92, X1) -/

theorem runIn_disabled {side : Side} {s : State} {e : Bool} (code : Byte) (k : Out)
    (hcfg : configLegal (cfgOf side s) = true) (he : e = false) : runIn side s e code k = .fault (.noStep code) := by
  simp [runIn, hcfg, he]

/-- An operation whose body stops for want of a precondition stops either way. -/
theorem runIn_stop {side : Side} {s : State} {e : Bool} {code : Byte} {k : Out}
    (hcfg : configLegal (cfgOf side s) = true) (hstop : e = false ∨ k = .fault (.noStep code)) :
    runIn side s e code k = .fault (.noStep code) := by
  cases he : e with
  | false => exact runIn_disabled code k hcfg rfl
  | true => exact (runIn_enabled code k hcfg rfl).trans (hstop.resolve_left (by simp [he]))

theorem armTimer_armed {now : Nat} {tm : Timer} (h : isArmed tm = true) : armTimer now tm = .error (.noStep 0x30) := by
  cases tm with
  | disarmed => cases h
  | armed a => rfl

theorem restartTimer_disarmed {now : Nat} {tm : Timer} (h : isArmed tm = false) :
    restartTimer now tm = .error (.noStep 0x32) := by
  rw [eq_disarmed_of_isArmed h]
  rfl

theorem reacting_eq_false {x : Sender} (h : x.phase ≠ .wait ∧ x.phase ≠ .fill) : reacting x = false := by
  simp [reacting, h]

theorem outstanding_eq_false {x : Sender} (h : x.nextSeq.toNat ≤ x.base.toNat) : outstanding x = false := by
  simpa [outstanding] using h

theorem runIn_illegal {side : Side} {s : State} {e : Bool} {code : Byte} {k : Out}
    (hcfg : configLegal (cfgOf side s) = false) : runIn side s e code k = .refused .illegalConfig := by
  simp [runIn, hcfg]

theorem receiveAt_illegal {side : Side} {s : State} (d : Datagram) (hcfg : configLegal (cfgOf side s) = false) :
    receiveAt side d s = .refused .illegalConfig := by
  cases side with
  | sender => exact if_neg (by simpa using hcfg)
  | receiver => exact if_neg (by simpa using hcfg)

/-- Settles O44: a wire kind and a reception meet the check in the reception step, every other operation in its wrapper. -/
theorem illegalConfigurationRefused : Obligations.IllegalConfigurationRefused := by
  intro i s hcfg
  cases i with
  | data side => exact receiveAt_illegal _ hcfg
  | ack side => exact receiveAt_illegal _ hcfg
  | fin side => exact receiveAt_illegal _ hcfg
  | badflagDrop side => exact receiveAt_illegal _ hcfg
  | sRx d => exact receiveAt_illegal (side := .sender) d hcfg
  | rRx d => exact receiveAt_illegal (side := .receiver) d hcfg
  | _ => exact runIn_illegal hcfg

section
variable {s : State} (hcfg : configLegal s.snd.cfg = true)
include hcfg

theorem exec_arm_stops (h : s.snd.phase ≠ .fill ∨ s.snd.nextSeq.toNat ≤ s.snd.base.toNat ∨ isArmed s.snd.timer = true) :
    exec .arm s = .fault (.noStep 0x30) := by
  refine runIn_stop hcfg ?_
  obtain h | h | h := h
  · exact .inl (by simp [h])
  · exact .inl (by simp [outstanding_eq_false h])
  · exact .inr (by rw [armTimer_armed h, andThen_error])

theorem exec_disarm_stops
    (h : s.snd.phase ≠ .wait ∧ s.snd.phase ≠ .fill ∨ s.snd.base ≠ s.snd.nextSeq) :
    exec .disarm s = .fault (.noStep 0x31) := by
  refine runIn_disabled _ _ hcfg ?_
  obtain h | h := h
  · simp [reacting_eq_false h]
  · simp [h]

theorem exec_restart_stops (h : s.snd.phase ≠ .wait ∧ s.snd.phase ≠ .fill ∨ s.snd.nextSeq.toNat ≤ s.snd.base.toNat ∨
    isArmed s.snd.timer = false) : exec .restart s = .fault (.noStep 0x32) := by
  refine runIn_stop hcfg ?_
  obtain h | h | h := h
  · exact .inl (by simp [reacting_eq_false h])
  · exact .inl (by simp [outstanding_eq_false h])
  · exact .inr (by rw [restartTimer_disarmed h, andThen_error])

end

/-- Settles O43: the wrapper's precondition is false; ARM and RESTART also stop by the timer. -/
theorem noStepWithoutThePrecondition : Obligations.NoStepWithoutThePrecondition := by
  intro s
  refine ⟨fun hcfg => ⟨fun h => ?_, fun h => ?_, fun h => ?_, exec_arm_stops hcfg, exec_disarm_stops hcfg,
    exec_restart_stops hcfg, fun a hw hf => ?_⟩, fun hcfg => ⟨fun h => ?_, fun q p h => ?_, fun h => ?_⟩⟩
  · exact runIn_disabled _ _ hcfg (by simpa [← imp_iff_not_or] using h)
  · exact runIn_disabled _ _ hcfg (by simpa [← imp_iff_not_or] using h)
  · exact runIn_disabled _ _ hcfg (decide_eq_false h)
  · exact runIn_disabled _ _ hcfg (reacting_eq_false ⟨hw, hf⟩)
  · exact runIn_disabled _ _ hcfg (decide_eq_false h)
  · exact runIn_disabled _ _ hcfg (decide_eq_false h)
  · exact runIn_disabled _ _ hcfg (decide_eq_false h)

/-- Settles O24: the checks of S_START, in their order. -/
theorem sStartStopsOutsideItsContract : Obligations.SStartStopsOutsideItsContract := by
  intro n chunks s hcfg
  refine ⟨fun hphase => runIn_disabled _ _ hcfg (decide_eq_false hphase), fun hphase hn => ?_, fun hphase hn hbad => ?_⟩
  · exact (runIn_sender _ _ hcfg (decide_eq_true hphase)).trans (if_neg (not_lt.mpr hn))
  · refine (runIn_sender _ _ hcfg (decide_eq_true hphase)).trans ((if_pos hn).trans (if_neg fun hfit => ?_))
    obtain ⟨hlen, hcap⟩ := (chunksFit_iff ..).mp hfit
    obtain hne | ⟨k, hk, hne⟩ := hbad
    · exact hne hlen
    · exact hne (hcap k hk)

/-! ### The timer's primitives (R181 to R183) -/

section
variable {s : State} (hcfg : configLegal s.snd.cfg = true)
include hcfg

theorem exec_arm_of_disarmed (hphase : s.snd.phase = .fill) (hout : s.snd.base.toNat < s.snd.nextSeq.toNat)
    (htimer : s.snd.timer = .disarmed) : exec .arm s = .next (s.setTimer (.armed s.now)) := by
  refine (runIn_sender _ _ hcfg ?_).trans ?_
  · simp [hphase, outstanding, hout]
  · rw [htimer]
    rfl

theorem exec_restart_of_armed (hphase : s.snd.phase = .wait ∨ s.snd.phase = .fill)
    (hout : s.snd.base.toNat < s.snd.nextSeq.toNat) (htimer : isArmed s.snd.timer = true) :
    exec .restart s = .next (s.setTimer (.armed s.now)) := by
  refine (runIn_sender _ _ hcfg ?_).trans ?_
  · simp [(reacting_iff _).mpr hphase, outstanding, hout]
  · rw [restartTimer_armed htimer]
    rfl

theorem exec_disarm_of_end (hphase : s.snd.phase = .wait ∨ s.snd.phase = .fill) (hend : s.snd.base = s.snd.nextSeq) :
    exec .disarm s = .next (s.setTimer .disarmed) :=
  runIn_sender _ _ hcfg (by simp [(reacting_iff _).mpr hphase, hend])

end

/-- Settles O42: the three primitives, and the expiry of the timers they leave. -/
theorem timerPrimitives : Obligations.TimerPrimitives := by
  intro s hcfg set
  refine ⟨exec_arm_of_disarmed hcfg, fun tArm hphase hout htimer => ?_, exec_disarm_of_end hcfg, fun _ => rfl,
    fun now => ?_⟩
  · exact exec_restart_of_armed hcfg hphase hout (htimer ▸ rfl)
  · simp [expired_iff]

/-! ### FILL_WINDOW, ON_TIMEOUT and FINISH (R134, R142, R143) -/

theorem exec_fillWindow_answers {s : State} (hcfg : configLegal s.snd.cfg = true) (hphase : s.snd.phase = .fill)
    (hbase : s.snd.base.toNat < s.snd.totalPackets.toNat)
    (hread : ∀ i, s.snd.nextSeq.toNat ≤ i → i < s.snd.totalPackets.toNat →
      i < s.snd.base.toNat + s.snd.cfg.windowSize → ∃ d, s.snd.buf.read i = some d) :
    ∃ t, exec .fillWindow s = .next t := by
  obtain ⟨u, hu⟩ := fillLoop_total (fuel := s.snd.totalPackets.toNat - s.snd.nextSeq.toNat) hread
  have hrun : exec .fillWindow s = _ := runIn_sender 0x11 _ hcfg (by simp [hphase, hbase])
  rw [hrun, hu, andThen_ok, armIfNeeded_eq, andThen_ok]
  exact ⟨_, rfl⟩

/-- Settles O25: it answers, and `execFillWindow_next` says with which packets; they are the buffer's. -/
theorem fillWindowSendsTheWindow : Obligations.FillWindowSendsTheWindow := by
  intro s ds hcfg hphase hbase hlen hread
  obtain ⟨t, ht⟩ : ∃ t, exec .fillWindow s = .next t := by
    refine exec_fillWindow_answers hcfg hphase hbase fun i hi htotal hwin => ?_
    have hj : i - s.snd.nextSeq.toNat < ds.length := by omega
    have hat := hread _ hj
    rw [Nat.add_sub_cancel' hi] at hat
    exact ⟨_, hat.trans (List.getElem?_eq_getElem hj)⟩
  obtain ⟨-, -, -, es, hes, -, heslen, rfl⟩ := execFillWindow_next ht
  have hsame : es = ds := by
    refine List.ext_getElem? fun j => ?_
    by_cases hj : j < ds.length
    · exact (hes j (by omega)).symm.trans (hread j hj)
    · rw [List.getElem?_eq_none (by omega), List.getElem?_eq_none (by omega)]
  subst hsame
  have hout : s.snd.base.toNat < (s.snd.nextSeq + BitVec.ofNat 32 es.length).toNat := by
    have hwindow := ((configLegal_iff _).mp hcfg).1
    have htotal := s.snd.totalPackets.isLt
    rw [BitVec.toNat_add, BitVec.toNat_ofNat]
    omega
  refine ⟨ht.trans ?_, hout⟩
  simp only [hout, and_true]
  cases s.snd.timer <;> rfl

theorem exec_onTimeout_of_expired {s : State} {ds : List Datagram} (hcfg : configLegal s.snd.cfg = true)
    (hphase : s.snd.phase = .wait) (hexp : expired s.snd s.now = true)
    (hlen : ds.length = s.snd.nextSeq.toNat - s.snd.base.toNat)
    (hread : ∀ j, j < s.snd.nextSeq.toNat - s.snd.base.toNat →
      s.snd.base.toNat + j < s.snd.totalPackets.toNat ∧ s.snd.buf.read (s.snd.base.toNat + j) = ds[j]?) :
    exec .onTimeout s = .next { s with
      toRcv := s.toRcv.emit ds
      snd := { s.snd with timer := .armed s.now, phase := .fill }
      anomalies := s.anomalies ++ [.loss] } := by
  refine (runIn_sender _ _ hcfg (by simp [hphase, hexp])).trans ?_
  rw [txRange_total hlen hread, andThen_ok, restartTimer_armed (isArmed_of_expired hexp)]
  rfl

/-- Settles O30: the packets of the window are inside the transfer, so each is read. -/
theorem timeoutRetransmitsTheWindow : Obligations.TimeoutRetransmitsTheWindow := by
  intro s tArm ds hcfg hphase htimer hexp htotal hlen hread
  refine exec_onTimeout_of_expired hcfg hphase ((expired_iff ..).mpr ⟨tArm, htimer, hexp⟩) hlen fun j hj => ?_
  exact ⟨by omega, hread j (hlen ▸ hj)⟩

theorem exec_finish_of_fin {s : State} (hcfg : configLegal s.snd.cfg = true) (hphase : s.snd.phase = .fin) :
    exec .finish s = .next { s with
      toRcv := s.toRcv.emit (List.replicate s.snd.cfg.finRepeat (finPacket s.snd.cfg))
      snd := { s.snd with phase := .done } } := by
  refine (runIn_sender _ _ hcfg (decide_eq_true hphase)).trans ?_
  rw [txRepeat_eq]
  rfl

/-- Settles O31: the state that `exec_finish_of_fin` names. -/
theorem finishSendsTheFinCopies : Obligations.FinishSendsTheFinCopies :=
  fun _ hcfg hphase => exec_finish_of_fin hcfg hphase

/-! ### Acknowledgments (R140, R141) -/

theorem toNat_add_one_mod (a : U32) : (a + 1).toNat = (a.toNat + 1) % 2 ^ 32 := by
  rw [BitVec.toNat_add]
  rfl

section
variable {s : State} {a : U32}

theorem ackAct_of_qualifies (hqual : qualifies s.snd a = true) (htimer : isArmed s.snd.timer = true) :
    ackAct a s = .next ((s.setBase (a + 1)).setTimer (if a + 1 = s.snd.nextSeq then .disarmed else .armed s.now)) := by
  rw [ackAct, if_pos hqual, restartTimer_armed htimer]
  by_cases hend : a + 1 = s.snd.nextSeq
  · rw [if_pos hend, if_pos (show ackNext a = _ from hend)]
    rfl
  · rw [if_neg hend, if_neg (show ackNext a ≠ _ from hend)]
    rfl

theorem ackAct_of_stale (hstale : (a + 1).toNat ≤ s.snd.base.toNat) : ackAct a s = .next (s.note .staleAck) := by
  have hqual : ¬ qualifies s.snd a = true := fun h => absurd ((qualifies_iff ..).mp h).1 (not_lt.mpr hstale)
  rw [ackAct, if_neg hqual]
  exact if_pos hstale

theorem ackAct_of_beyond (hbase : s.snd.base.toNat < (a + 1).toNat) (hbeyond : s.snd.nextSeq.toNat < (a + 1).toNat) :
    ackAct a s = .next (s.note .beyondAck) := by
  have hqual : ¬ qualifies s.snd a = true := fun h => absurd ((qualifies_iff ..).mp h).2 (not_le.mpr hbeyond)
  rw [ackAct, if_neg hqual]
  exact if_neg (not_le.mpr hbase)

/-- A qualifying acknowledgment finds packets outstanding, so under R29 the timer is armed. -/
theorem isArmed_of_qualifies {x : Sender} (hinv : TimerInv x) (hqual : qualifies x a = true) :
    isArmed x.timer = true := by
  obtain ⟨hlo, hhi⟩ := (qualifies_iff ..).mp hqual
  exact hinv.trans ((outstanding_iff x).mpr (hlo.trans_le hhi))

theorem ackAct_answers (hinv : TimerInv s.snd) : ∃ t, ackAct a s = .next t := by
  by_cases hqual : qualifies s.snd a = true
  · exact ⟨_, ackAct_of_qualifies hqual (isArmed_of_qualifies hinv hqual)⟩
  · by_cases hstale : (a + 1).toNat ≤ s.snd.base.toNat
    · exact ⟨_, ackAct_of_stale hstale⟩
    · rw [qualifies_iff, not_and, not_le] at hqual
      exact ⟨_, ackAct_of_beyond (not_le.mp hstale) (hqual (not_le.mp hstale))⟩

end

/-! ### The sender's reception, check by check (R85, R136) -/

section
variable {s : State} {d : Datagram} {p : Packet} (hcfg : configLegal s.snd.cfg = true)
include hcfg

theorem senderReceive_of_not_wait (hphase : s.snd.phase ≠ .wait) :
    senderReceive d s = .next (s.leaveInChannel .sender d) := by
  rw [senderReceive, if_pos hcfg, if_neg hphase]

variable (hphase : s.snd.phase = .wait)
include hphase

theorem senderReceive_of_error {a : Anomaly} (hin : checkInbound s.snd.cfg d = .error a) :
    senderReceive d s = .next ((s.setPhaseS .fill).note a) := by
  simp only [senderReceive, hcfg, hphase, hin, if_true]

theorem senderReceive_of_ack (hin : checkInbound s.snd.cfg d = .ok p) (hflags : p.flags = Kind.ack.flags) :
    senderReceive d s = ackAct p.ack (s.setPhaseS .fill) := by
  simp only [senderReceive, hcfg, hphase, hin, hflags, if_true]

theorem senderReceive_of_other (hin : checkInbound s.snd.cfg d = .ok p) (hflags : p.flags ≠ Kind.ack.flags) :
    senderReceive d s = .next ((s.setPhaseS .fill).note .badFlag) := by
  simp only [senderReceive, hcfg, hphase, hin, hflags, if_true, if_false]

end

/-- The second check fails (R117). -/
theorem checkInbound_of_wrong_sum {c : Config} {d : Datagram} {p : Packet} (hlen : d.length = pktLen c)
    (hdec : decodeRec d = some p) (hne : cksum c p ≠ p.ck) : checkInbound c d = .error .badSum := by
  refine checkInbound_badSum hlen ?_
  rw [validate, hdec]
  exact decide_eq_false hne

/-- Settles O26: the three checks, in their order. -/
theorem senderDropsByTheFirstFailingCheck : Obligations.SenderDropsByTheFirstFailingCheck := by
  intro d s hcfg hphase dropped
  refine ⟨fun hlen => ?_, fun p hlen hdec hne => ?_, fun p hlen hdec hsum hflags => ?_⟩
  · exact senderReceive_of_error hcfg hphase (checkInbound_badLen hlen)
  · exact senderReceive_of_error hcfg hphase (checkInbound_of_wrong_sum hlen hdec hne)
  · exact senderReceive_of_other hcfg hphase (checkInbound_accepts hlen hdec hsum) hflags

/-- R140, R141: invoked directly, framed in a datagram, or as an ACK packet on the sender's port, an acknowledgment gets the one
reaction `ackAct`. -/
theorem ackAct_by_every_way_in {s : State} {ack : U32} {payload : Chunk} {after : PhaseS → Out} (seq : U32)
    (hcfg : configLegal s.snd.cfg = true) (hphase : s.snd.phase = .wait)
    (hlen : payload.length = s.snd.cfg.payloadCapacity) (hact : ∀ x, ackAct ack (s.setPhaseS x) = after x) :
    let p : Packet := { seq, ack, ck := 0, flags := 1, payload }
    let ck := cksum s.snd.cfg p
    (∀ x, x = .wait ∨ x = .fill → exec (.onAck ack) (s.setPhaseS x) = after x) ∧
      exec (.sRx (encodeRec { p with ck := ck })) s = after .fill ∧
      exec (.ack .sender seq ack ck payload) s = after .fill := by
  intro p ck
  have hrecv : senderReceive (encodeRec { p with ck := ck }) s = after .fill :=
    (senderReceive_of_ack hcfg hphase (checkInbound_image hlen) rfl).trans (hact .fill)
  refine ⟨fun x hx => ?_, hrecv, hrecv⟩
  exact (runIn_sender (s := s.setPhaseS x) _ _ hcfg ((reacting_iff _).mpr hx)).trans (hact x)

/-- Settles O27: the reaction to a qualifying acknowledgment, by every way in. -/
theorem qualifyingAckAdvancesBase : Obligations.QualifyingAckAdvancesBase := by
  intro s seq ack payload hcfg hphase hinv hlo hhi hlen
  rw [← toNat_add_one_mod] at hlo hhi
  have hqual : qualifies s.snd ack = true := (qualifies_iff ..).mpr ⟨hlo, hhi⟩
  exact ackAct_by_every_way_in seq hcfg hphase hlen fun x =>
    ackAct_of_qualifies (s := s.setPhaseS x) hqual (isArmed_of_qualifies hinv hqual)

/-- Settles O28: the two reactions to an acknowledgment that does not qualify, by every way in. -/
theorem staleOrBeyondAckIgnored : Obligations.StaleOrBeyondAckIgnored := by
  intro s seq ack payload hcfg hphase hlen
  rw [← toNat_add_one_mod]
  refine ⟨fun hstale => ?_, fun hbase hbeyond => ?_⟩
  · exact ackAct_by_every_way_in seq hcfg hphase hlen fun x => ackAct_of_stale (s := s.setPhaseS x) hstale
  · exact ackAct_by_every_way_in seq hcfg hphase hlen fun x => ackAct_of_beyond (s := s.setPhaseS x) hbase hbeyond

/-- Settles O29: 0xFFFFFFFF + 1 is 0, which is past no `base`. -/
theorem allOnesAckIsAlwaysStale : Obligations.AllOnesAckIsAlwaysStale := by
  intro s t h
  obtain ⟨-, hact⟩ := execOnAck_next h
  cases (ackAct_of_stale (Nat.zero_le _)).symm.trans hact
  exact ⟨rfl, rfl, rfl⟩

/-! ### The sender never stops (R247) -/

theorem senderReceive_answers {s : State} (d : Datagram) (hcfg : configLegal s.snd.cfg = true)
    (hinv : TimerInv s.snd) : ∃ t, senderReceive d s = .next t := by
  by_cases hphase : s.snd.phase = .wait
  case neg => exact ⟨_, senderReceive_of_not_wait hcfg hphase⟩
  cases hin : checkInbound s.snd.cfg d with
  | error a => exact ⟨_, senderReceive_of_error hcfg hphase hin⟩
  | ok p =>
    by_cases hflags : p.flags = Kind.ack.flags
    · rw [senderReceive_of_ack hcfg hphase hin hflags]
      exact ackAct_answers hinv
    · exact ⟨_, senderReceive_of_other hcfg hphase hin hflags⟩

/-- The `n` packets listed from entry `i` on. -/
def bufferedFrom (m : Memory) (i n : Nat) : List Datagram := (List.range n).map fun j => (m.read (i + j)).getD []

theorem length_bufferedFrom (m : Memory) (i n : Nat) : (bufferedFrom m i n).length = n := by
  simp [bufferedFrom]

theorem getElem?_bufferedFrom {m : Memory} {i n j : Nat} {d : Datagram} (hj : j < n) (hd : m.read (i + j) = some d) :
    (bufferedFrom m i n)[j]? = m.read (i + j) := by
  simp [bufferedFrom, hj, hd]

/-- R142: the window lies inside the transfer, whose packets are in the buffer. -/
theorem exec_onTimeout_answers {s : State} (hinv : SenderInv s.snd) (hphase : s.snd.phase = .wait)
    (hexp : expired s.snd s.now = true) : ∃ t, exec .onTimeout s = .next t := by
  obtain ⟨-, htotal, -⟩ := hinv.window
  refine ⟨_, exec_onTimeout_of_expired hinv.legal hphase hexp
    (length_bufferedFrom s.snd.buf s.snd.base.toNat _) fun j hj => ?_⟩
  have hlt : s.snd.base.toNat + j < s.snd.totalPackets.toNat := by omega
  obtain ⟨k, -, hk⟩ := hinv.buffer (by simp [hphase]) _ hlt
  exact ⟨hlt, (getElem?_bufferedFrom hj hk).symm⟩

/-- Settles O59: in each phase, what the turn selects answers. -/
theorem senderTurnAlwaysAnswers : Obligations.SenderTurnAlwaysAnswers := by
  intro s pick ts hinv hs
  have hcfg := hinv.legal
  cases hphase : s.snd.phase with
  | idle => exact ⟨_, step_sender_idle hs hcfg hphase⟩
  | done => exact ⟨_, step_sender_done hs hcfg hphase⟩
  | fin => exact ⟨_, (step_sender_fin hs hcfg hphase).trans (exec_finish_of_fin hcfg hphase)⟩
  | fill =>
    by_cases hend : s.snd.base = s.snd.totalPackets
    · exact ⟨_, step_sender_endTest hs hcfg hphase hend⟩
    · rw [step_sender_fill hs hcfg hphase hend]
      obtain ⟨hbase, htotal, -⟩ := hinv.window
      refine exec_fillWindow_answers hcfg hphase ?_ fun i _ hi _ => ?_
      · exact lt_of_le_of_ne (hbase.trans htotal) fun heq => hend (BitVec.eq_of_toNat_eq heq)
      · obtain ⟨k, -, hk⟩ := hinv.buffer (by simp [hphase]) i hi
        exact ⟨_, hk⟩
  | wait =>
    by_cases hexp : expired s.snd s.now = true ∧ (s.toSnd.waiting = [] ∨ timeoutWins s.snd pick = true)
    · rw [step_sender_timeout hs hcfg hphase hexp.1 hexp.2]
      exact exec_onTimeout_answers (s := { s with schedule := ts }) hinv hphase hexp.1
    · cases hport : s.toSnd.waiting with
      | nil =>
        exact ⟨_, step_sender_noEvent hs hcfg hphase hport (by simpa [hport] using hexp)⟩
      | cons d ds =>
        rw [step_sender_receive hs hcfg hphase hport (by rw [← Bool.and_eq_false_iff]; simpa [hport] using hexp)]
        exact senderReceive_answers d hcfg hinv.timer

end Sys2Proof.Machine
end

section
namespace Sys2Proof.Machine

/-! ### The receiver's reception, check by check (R86, R163) -/

section
variable {s : State} {d : Datagram} {p : Packet} (hcfg : configLegal s.rcv.cfg = true)
include hcfg

theorem receiverReceive_of_not_wait (hphase : s.rcv.phase ≠ .wait) :
    receiverReceive d s = .next (s.leaveInChannel .receiver d) := by
  rw [receiverReceive, if_pos hcfg, if_neg hphase]

variable (hphase : s.rcv.phase = .wait)
include hphase

theorem receiverReceive_of_error {a : Anomaly} (hin : checkInbound s.rcv.cfg d = .error a) :
    receiverReceive d s = .next (s.note a) := by
  simp only [receiverReceive, hcfg, hphase, hin, if_true]

theorem receiverReceive_of_other (hin : checkInbound s.rcv.cfg d = .ok p) (hdata : p.flags ≠ Kind.data.flags)
    (hfin : p.flags ≠ Kind.fin.flags) : receiverReceive d s = .next (s.note .badFlag) := by
  simp only [receiverReceive, hcfg, hphase, hin, hdata, hfin, if_true, if_false]

end

theorem receiverReceive_answers {s : State} (d : Datagram) (hcfg : configLegal s.rcv.cfg = true) :
    ∃ t, receiverReceive d s = .next t := by
  by_cases hphase : s.rcv.phase = .wait
  case neg => exact ⟨_, receiverReceive_of_not_wait hcfg hphase⟩
  cases hin : checkInbound s.rcv.cfg d with
  | error a => exact ⟨_, receiverReceive_of_error hcfg hphase hin⟩
  | ok p =>
    by_cases hdata : p.flags = Kind.data.flags
    · exact ⟨_, receiverReceive_of_data hcfg hphase hin hdata⟩
    · by_cases hfin : p.flags = Kind.fin.flags
      · exact ⟨_, receiverReceive_of_fin hcfg hphase hin hfin⟩
      · exact ⟨_, receiverReceive_of_other hcfg hphase hin hdata hfin⟩

/-- Settles O50: in every phase, and whatever the checks say, both reception steps answer. -/
theorem receptionNeverStops : Obligations.ReceptionNeverStops :=
  fun d _ => ⟨receiverReceive_answers d, senderReceive_answers d⟩

/-- Settles O37: the three checks, in their order. -/
theorem receiverDropsByTheFirstFailingCheck : Obligations.ReceiverDropsByTheFirstFailingCheck := by
  intro d s hcfg hphase dropped
  refine ⟨fun hlen => ?_, fun p hlen hdec hne => ?_, fun p hlen hdec hsum hdata hfin => ?_⟩
  · exact receiverReceive_of_error hcfg hphase (checkInbound_badLen hlen)
  · exact receiverReceive_of_error hcfg hphase (checkInbound_of_wrong_sum hlen hdec hne)
  · exact receiverReceive_of_other hcfg hphase (checkInbound_accepts hlen hdec hsum) hdata hfin

/-- Settles O39: neither reception step consumes a datagram outside its waiting phase. -/
theorem datagramStaysInTheChannel : Obligations.DatagramStaysInTheChannel :=
  fun _ _ => ⟨senderReceive_of_not_wait, receiverReceive_of_not_wait⟩

/-! ### Unexpected packets (R166, R167) -/

theorem packetAct_unexpected {s : State} {seq : U32} (payload : Chunk) (hne : seq ≠ s.rcv.expectedSeq) :
    packetAct seq payload s = (reack s).note (unexpectedLabel seq s.rcv.expectedSeq) :=
  if_neg hne

theorem reack_of_ne_zero {s : State} (h : s.rcv.expectedSeq ≠ 0) :
    reack s = s.txR (ackPacket s.rcv.cfg (s.rcv.expectedSeq - 1)) :=
  if_neg h

/-- Settles O34: by every way in the packet gets the one reaction, the acknowledgment of the last good one. -/
theorem unexpectedPacketReacknowledged : Obligations.UnexpectedPacketReacknowledged := by
  intro s seq ack payload hcfg hphase hlen hne hzero
  have hways := packetAct_by_every_way_in seq ack hcfg hphase hlen
  rw [packetAct_unexpected payload hne, reack_of_ne_zero hzero] at hways
  exact hways

/-- Settles O35: at 0 the reaction is `REACK0`'s, and every other number is above. -/
theorem unexpectedPacketAtZero : Obligations.UnexpectedPacketAtZero := by
  intro s seq ack payload hcfg hphase hlen hne hzero p ck emitted after
  have hact : .next (packetAct seq payload s) = after := by
    have hlabel : unexpectedLabel seq s.rcv.expectedSeq = .ahead := by
      rw [hzero]
      exact if_neg (Nat.not_lt_zero _)
    rw [packetAct_unexpected payload (hzero ▸ hne), hlabel]
    simp only [reack, hzero, if_true, after, emitted]
    cases s.rcv.cfg.reack0 with
    | suppress => simp [State.note]
    | wrap => rfl
  have hways := packetAct_by_every_way_in seq ack hcfg hphase hlen
  rw [hact] at hways
  exact hways

/-! ### Wire kinds (R84, R87, R88) -/

/-- Settles O38: a wire kind is its side's reception of the image; a record that passes both checks and whose flags the side does
not take is dropped. -/
theorem illegalAndMisdirectedKindsDropped : Obligations.IllegalAndMisdirectedKindsDropped := by
  intro s seq ack flags payload
  refine ⟨fun side ck => by cases side <;> exact ⟨rfl, rfl, rfl, rfl⟩, ?_⟩
  intro p atSender atReceiver
  refine ⟨fun hcfg hphase hlen => ?_, fun hcfg hphase hlen => ?_⟩
  · have hdrop {f : U16} (hf : f ≠ Kind.ack.flags) :
        senderReceive (encodeRec { p f with ck := cksum s.snd.cfg (p f) }) s = atSender :=
      senderReceive_of_other hcfg hphase (checkInbound_image hlen) hf
    exact ⟨hdrop (by decide), hdrop (by decide), fun h => hdrop (illegal_flags h .ack)⟩
  · have hdrop {f : U16} (hdata : f ≠ Kind.data.flags) (hfin : f ≠ Kind.fin.flags) :
        receiverReceive (encodeRec { p f with ck := cksum s.rcv.cfg (p f) }) s = atReceiver :=
      receiverReceive_of_other hcfg hphase (checkInbound_image hlen) hdata hfin
    exact ⟨hdrop (by decide) (by decide), fun h => hdrop (illegal_flags h .data) (illegal_flags h .fin)⟩

/-! ### The all-zero datagram (R95, R241) -/

theorem wordFold_replicate_zero (n : Nat) : wordFold (List.replicate n 0) = 0 := by
  match n with
  | 0 => rfl
  | 1 => rfl
  | n + 2 =>
    rw [List.replicate_succ, List.replicate_succ, wordFold_cons_cons, wordFold_replicate_zero n]
    rfl

/-- The record of zeros, its checksum field among them. -/
def zeroRecord (n : Nat) : Packet := { seq := 0, ack := 0, ck := 0, flags := 0, payload := List.replicate n 0 }

theorem encodeRec_zeroRecord (n : Nat) : encodeRec (zeroRecord n) = List.replicate (12 + n) 0 := by
  have h32 : bytesBe32 0 = List.replicate 4 0 := by decide
  have h16 : bytesBe16 0 = List.replicate 2 0 := by decide
  have hlen : 4 + (4 + (2 + (2 + n))) = 12 + n := by omega
  simp only [encodeRec, zeroRecord, h32, h16, List.replicate_append_replicate, hlen]

/-- Settles O40: every word of the datagram is 0, so its checksum is the one it carries, and its number is the expected one. -/
theorem allZeroDatagramAccepted : Obligations.AllZeroDatagramAccepted := by
  intro s hcfg halgo hphase hzero
  have hsum : cksum s.rcv.cfg (zeroRecord s.rcv.cfg.payloadCapacity) = 0 := by
    rw [cksum_xor16be halgo]
    exact (congrArg wordFold (encodeRec_zeroRecord _)).trans (wordFold_replicate_zero _)
  have hin : checkInbound s.rcv.cfg (List.replicate (12 + s.rcv.cfg.payloadCapacity) 0) =
      .ok (zeroRecord s.rcv.cfg.payloadCapacity) := by
    rw [← encodeRec_zeroRecord]
    exact checkInbound_accepts (by simp [pktLen, zeroRecord]) (decodeRec_encodeRec _) hsum
  have hact := receiverReceive_of_data hcfg hphase hin rfl
  exact ⟨_, hact.trans (congrArg _ (packetAct_inOrder _ hzero.symm)), rfl, rfl⟩

/-! ### Instances configured differently (R234) -/

section
variable {c c' : Config} (seq ack : U32) (flags : U16) {payload : Chunk} (hlen : payload.length = c.payloadCapacity)
include hlen

theorem checkInbound_frame_of_ne_capacity (hne : c.payloadCapacity ≠ c'.payloadCapacity) :
    checkInbound c' (frame c seq ack flags payload) = .error .badLen := by
  refine checkInbound_badLen ?_
  rw [(frame_validates seq ack flags hlen).1]
  simpa [pktLen] using hne

theorem checkInbound_frame_of_ne_cksum (hcap : c.payloadCapacity = c'.payloadCapacity)
    (hne : cksum c { seq, ack, ck := 0, flags, payload } ≠ cksum c' { seq, ack, ck := 0, flags, payload }) :
    checkInbound c' (frame c seq ack flags payload) = .error .badSum := by
  have hpkt : (frame c seq ack flags payload).length = pktLen c' := by
    rw [(frame_validates seq ack flags hlen).1]
    simp [pktLen, hcap]
  refine checkInbound_of_wrong_sum hpkt (decodeRec_encodeRec _) fun heq => hne ?_
  exact (heq.symm.trans (cksum_set_ck c' { seq, ack, ck := 0, flags, payload } _))

end

/-- R112, R114: the two sums of a record are the same exactly when the word sum has a zero high byte. -/
theorem foldBytes_eq_self_iff (x : U16) : x = foldBytes x ↔ x.toNat < 0x100 := by
  constructor
  · intro h
    have hlt := (x.extractLsb' 8 8 ^^^ x.extractLsb' 0 8).isLt
    rw [h, foldBytes, BitVec.toNat_setWidth]
    omega
  · intro h
    have hhigh : x.extractLsb' 8 8 = 0 := by
      rw [← BitVec.toNat_inj, BitVec.extractLsb'_toNat, Nat.shiftRight_eq_div_pow, Nat.div_eq_of_lt h]
      rfl
    have hlow : (x.extractLsb' 0 8).toNat = x.toNat := by
      rw [BitVec.extractLsb'_toNat, Nat.shiftRight_zero, Nat.mod_eq_of_lt h]
    rw [foldBytes, hhigh, zero_xor, ← BitVec.toNat_inj, BitVec.toNat_setWidth, hlow, Nat.mod_eq_of_lt x.isLt]

/-- Settles O41: across different capacities the length check fails, across different sums the checksum check. -/
theorem mismatchedCapacityDropsEverything : Obligations.MismatchedCapacityDropsEverything := by
  constructor
  case right =>
    intro c c' p halgo halgo'
    rw [cksum_eq_of_xor8 halgo', cksum_eq_of_xor16be halgo]
    exact foldBytes_eq_self_iff _
  intro s seq ack flags payload hsnd hrcv p atReceiver atSender
  refine ⟨fun hcap => ⟨fun hphase hlen => ?_, fun hphase hlen => ?_⟩,
    fun hcap hsum hlen => ⟨fun hphase => ?_, fun hphase => ?_⟩⟩
  · exact receiverReceive_of_error hrcv hphase (checkInbound_frame_of_ne_capacity seq ack flags hlen hcap)
  · exact senderReceive_of_error hsnd hphase (checkInbound_frame_of_ne_capacity seq ack flags hlen hcap.symm)
  · exact receiverReceive_of_error hrcv hphase (checkInbound_frame_of_ne_cksum seq ack flags hlen hcap hsum)
  · exact senderReceive_of_error hsnd hphase
      (checkInbound_frame_of_ne_cksum seq ack flags (hlen.trans hcap) hcap.symm hsum.symm)

/-! ### Stops on an entry or an operand (R52, X5, X6, R14) -/

theorem bufRead_of_unlisted {x : Sender} {i : Nat} (hi : i < x.totalPackets.toNat) (hread : x.buf.read i = none) :
    bufRead x i = .error (.bufNoValue i) := by
  rw [bufRead, if_pos hi, hread]

theorem bufRead_of_outOfRange {x : Sender} {i : Nat} (hi : x.totalPackets.toNat ≤ i) :
    bufRead x i = .error (.bufOutOfRange i) :=
  if_neg (not_lt.mpr hi)

/-- FILL_WINDOW's loop stops at the first entry of the window it cannot read. -/
theorem fillLoop_error {fuel i : Nat} {s : State} {f : Fault} (hfuel : i < s.snd.nextSeq.toNat + fuel)
    (hi : s.snd.nextSeq.toNat ≤ i) (hwin : i < s.snd.base.toNat + s.snd.cfg.windowSize)
    (htotal : i < s.snd.totalPackets.toNat)
    (hbefore : ∀ j, s.snd.nextSeq.toNat ≤ j → j < i → ∃ d, bufRead s.snd j = .ok d)
    (hread : bufRead s.snd i = .error f) : fillLoop fuel s = .error f := by
  induction fuel generalizing s with
  | zero => omega
  | succ fuel ih =>
    have hopen : windowOpen s.snd = true := by
      simp only [windowOpen, Bool.and_eq_true, decide_eq_true_eq]
      omega
    rw [fillLoop, if_pos hopen]
    obtain heq | hlt := eq_or_lt_of_le hi
    · rw [heq, hread]
    · obtain ⟨d, hd⟩ := hbefore _ (le_refl _) hlt
      have hnext : (s.snd.nextSeq + 1).toNat = s.snd.nextSeq.toNat + 1 := by
        have hbound := s.snd.totalPackets.isLt
        rw [toNat_add_one_mod]
        omega
      rw [hd]
      refine ih (s := (s.txS d).setNextSeq (s.snd.nextSeq + 1)) ?_ ?_ hwin htotal (fun j hj => hbefore j ?_) hread <;>
        simp only [State.setNextSeq_snd_nextSeq, hnext] at * <;> omega

/-- ON_TIMEOUT's loop stops at the first entry of its range it cannot read. -/
theorem txRange_error {n k i : Nat} {s : State} {f : Fault} (hk : k ≤ i) (hi : i < k + n)
    (hbefore : ∀ j, k ≤ j → j < i → ∃ d, bufRead s.snd j = .ok d) (hread : bufRead s.snd i = .error f) :
    txRange n k s = .error f := by
  induction n generalizing k s with
  | zero => omega
  | succ n ih =>
    rw [txRange]
    obtain rfl | hlt := eq_or_lt_of_le hk
    · rw [hread]
    · obtain ⟨d, hd⟩ := hbefore k (le_refl _) hlt
      rw [hd]
      exact ih (s := s.txS d) hlt (by omega) (fun j hj => hbefore j (by omega)) hread

theorem exec_onTimeout_stops {s : State} {f : Fault} {i : Nat} (hcfg : configLegal s.snd.cfg = true)
    (hphase : s.snd.phase = .wait) (hexp : expired s.snd s.now = true) (hlo : s.snd.base.toNat ≤ i)
    (hhi : i < s.snd.nextSeq.toNat)
    (hbefore : ∀ j, s.snd.base.toNat ≤ j → j < i → j < s.snd.totalPackets.toNat ∧ ∃ d, s.snd.buf.read j = some d)
    (hread : bufRead s.snd i = .error f) : exec .onTimeout s = .fault f := by
  refine (runIn_sender _ _ hcfg (by simp [hphase, hexp])).trans ?_
  rw [txRange_error hlo (by omega) (fun j hj hji => ?_) hread, andThen_error]
  obtain ⟨hj, d, hd⟩ := hbefore j hj hji
  exact ⟨d, bufRead_ok.mpr ⟨hj, hd⟩⟩

theorem exec_fillWindow_stops {s : State} {i : Nat} (hcfg : configLegal s.snd.cfg = true)
    (hphase : s.snd.phase = .fill) (hbase : s.snd.base.toNat < s.snd.totalPackets.toNat)
    (hlo : s.snd.nextSeq.toNat ≤ i)
    (hhi : i < min (s.snd.base.toNat + s.snd.cfg.windowSize) s.snd.totalPackets.toNat)
    (hbefore : ∀ j, s.snd.nextSeq.toNat ≤ j → j < i → ∃ d, s.snd.buf.read j = some d)
    (hread : s.snd.buf.read i = none) : exec .fillWindow s = .fault (.bufNoValue i) := by
  obtain ⟨hwin, htotal⟩ := lt_min_iff.mp hhi
  refine (runIn_sender _ _ hcfg (by simp [hphase, hbase])).trans ?_
  rw [fillLoop_error (by omega) hlo hwin htotal (fun j hj hji => ?_) (bufRead_of_unlisted htotal hread), andThen_error]
  obtain ⟨d, hd⟩ := hbefore j hj hji
  exact ⟨d, bufRead_ok.mpr ⟨hji.trans htotal, hd⟩⟩

/-- R14: a codec operation or ON_PACKET of a payload of another length. -/
theorem withRecord_refused {side : Side} {payload : Chunk} {s : State} {k : Out}
    (hne : payload.length ≠ (cfgOf side s).payloadCapacity) :
    withRecord side payload s k = .refused (.badRecord payload.length) :=
  if_neg hne

/-- Settles O60: both loops stop at the first unreadable entry, and the operand is checked before the body runs. -/
theorem unreadableEntriesAndBadRecordsStop : Obligations.UnreadableEntriesAndBadRecordsStop := by
  intro s
  refine ⟨fun hcfg hphase hbase i hlo hhi hbefore hread =>
      exec_fillWindow_stops hcfg hphase hbase hlo hhi hbefore hread,
    fun hcfg hphase hexp i hlo hhi hbefore => ⟨fun hout => ?_, fun hin hread => ?_⟩,
    fun side p kind hcfg hne => ⟨?_, ?_, ?_⟩, fun seq payload hcfg hphase hne => ?_⟩
  · exact exec_onTimeout_stops hcfg hphase hexp hlo hhi hbefore (bufRead_of_outOfRange hout)
  · exact exec_onTimeout_stops hcfg hphase hexp hlo hhi hbefore (bufRead_of_unlisted hin hread)
  · exact (runIn_enabled _ _ hcfg rfl).trans (withRecord_refused hne)
  · exact (runIn_enabled _ _ hcfg rfl).trans (withRecord_refused hne)
  · exact (runIn_enabled _ _ hcfg rfl).trans (withRecord_refused hne)
  · exact (runIn_receiver _ _ hcfg (decide_eq_true hphase)).trans (if_neg hne)

end Sys2Proof.Machine
end
